-- ==== Sys2Proof/Word.lean ====
section
/-! DEFINITION. The data widths of the flash bridge: every data item is 8 bits wide (`BYTE_W`, 00_scope R5),
a hexadecimal digit stands for 4 bits (40_frame_codec R90) and a flash address has 24 bits (20_memory R43). -/

namespace Sys2Proof

/-- An 8-bit value: a frame byte, an SPI byte, a buffer cell, a checksum, a length field (R5, R44). -/
abbrev Byte := BitVec 8

/-- The value of one hexadecimal digit (R90). -/
abbrev Nibble := BitVec 4

/-- A flash address, carried by the bridge as three bytes and never interpreted by it (R23, R43). -/
abbrev FlashAddr := BitVec 24

end Sys2Proof
end

