-- ==== Sys2Proof/Config.lean ====
section
/-! DEFINITION. The parameters of the hardware (00_scope R5) and the one free value of the model: the level of the
data-in line where the run's own list of samples gives none (93 V5). -/

namespace Sys2Proof.Config

/-- `BUF_DEPTH` (R5): the working buffer has the cells 0 to 254. -/
def bufDepth : Nat := 255

/-- `MAX_PAYLOAD` and `MAX_RETURN` (R5). -/
def maxPayload : Nat := 255

/-- `ERR_BYTE` (R5). -/
def errByte : Byte := 0xFF

/-- `STATUS_OPCODE` (R5, R142): the one command byte the bridge itself originates. -/
def statusOpcode : Byte := 0x05

/-- `FILL_BYTE` (R5, D5): the byte sent where only the clocking matters. -/
def fillByte : Byte := 0x00

/-- `DIAG_C` (R5, D21): the `c` frame is sent in RUN on the success path. Log entry 12 (DESIGN CHOICE; unsafe). -/
def diagC : Bool := true

/-- A level of the data-in line under no law (R126, 93 V5): the sample number `n` of a run whose own list of
samples is used up. It has no body, so nothing can be proved about its value. Log entry 3. -/
opaque freeMiso : Nat → Bool

end Sys2Proof.Config
end

