-- ==== Sys2Proof/Syntax.lean ====
section
/-! DEFINITION. The instructions of the bridge, one constructor per row of spec/opcode_table.json (30_encoding R75),
and the shapes in which the spec encodes them: text on RX, text on TX, a request's payload with its `out_bytes`,
the parallel request lines of the block operations, and the value of `orch.state`. -/

namespace Sys2Proof

/-- `orch.state` (R15): eleven names, no binary encoding (D19). -/
inductive OrchState where
  | start | pollReady | countBytes | returnBytes | readData | checksum
  | run | spiWrite | spiStall | spiRead | err
  deriving DecidableEq, Repr

/-- One constructor per row of spec/opcode_table.json. -/
inductive Instr where
  /-- REQ (R60): a request frame; `in_bytes` is the payload's length. -/
  | req (outBytes : Byte) (payload : List Byte) (checksum : Byte)
  /-- ACK (R67): `.` `\n`. -/
  | ack
  /-- DIAG (R67): `c`, `hex(dec.sum,2)`, `\n`; the value is the machine's `dec.sum`, so the frame has no operand. -/
  | diag
  /-- DATA (R67): `.`, the bytes' digits, `\n`. -/
  | data (bytes : List Byte)
  /-- ERROR (R67): `e` `F` `F` `\n`. -/
  | error
  /-- WREN (R181). -/
  | wren
  /-- SECTOR_ERASE (R182). -/
  | sectorErase (addr : FlashAddr)
  /-- PAGE_PROGRAM (R183). -/
  | pageProgram (addr : FlashAddr) (bytes : List Byte)
  /-- READ (R184): `count` is `out_bytes`. -/
  | read (addr : FlashAddr) (count : Byte)
  /-- READ_STATUS (R185). -/
  | readStatus (count : Byte)
  /-- READ_ID (R186). -/
  | readId (count : Byte)
  /-- SpiXfer (R121). -/
  | spiXfer (byteOut : Byte) (first last : Bool)
  /-- DecByte (R93). -/
  | decByte
  /-- DecReset (R98). -/
  | decReset
  /-- EncByte (R104). -/
  | encByte (b marker : Byte) (first last emptyFrame : Bool)
  /-- START (R142). -/
  | start
  /-- POLL_READY (R143). -/
  | pollReady
  /-- COUNT_BYTES (R144). -/
  | countBytes
  /-- RETURN_BYTES (R145). -/
  | returnBytes
  /-- READ_DATA (R146). -/
  | readData
  /-- CHECKSUM (R147). -/
  | checksum
  /-- RUN (R148). -/
  | run
  /-- SPI_WRITE (R149). -/
  | spiWrite
  /-- SPI_STALL (R150). -/
  | spiStall
  /-- SPI_READ (R151). -/
  | spiRead
  /-- ERR (R152). -/
  | err
  deriving DecidableEq, Repr

/-- The request lines of the block operations (R30, R71): the operands are parallel fields. -/
structure ReqLines where
  decNext  : Bool
  decReset : Bool
  encStart : Bool
  encByte  : Byte
  encMarker : Byte
  encFirst : Bool
  encLast  : Bool
  encEmpty : Bool
  spiStart : Bool
  spiOut   : Byte
  spiFirst : Bool
  spiLast  : Bool
  deriving DecidableEq, Repr

/-- What the decoder reads: each row of the table in the form the spec encodes it. Log entry 19. -/
inductive Encoded where
  /-- Characters from host to device (R60). -/
  | rx (chars : List Byte)
  /-- Characters from device to host (R67). -/
  | tx (chars : List Byte)
  /-- The payload of a request and its `out_bytes` (R70). -/
  | payload (outBytes : Byte) (bytes : List Byte)
  /-- The request lines of the block operations (R71). -/
  | lines (l : ReqLines)
  /-- The value of `orch.state` (R15). -/
  | orch (q : OrchState)
  deriving DecidableEq, Repr

/-- Why the decoder rejects. -/
inductive Reject where
  /-- The text does not begin with the marker its kind of frame needs. -/
  | badMarker
  /-- A character outside the digit alphabet stands where a digit is required (R65). -/
  | badDigit
  /-- The text ends before the frame does (R61). -/
  | truncated
  /-- The terminator is not `\r\n` (a request) or `\n` (a response), or text follows it (R69). -/
  | badTerminator
  /-- A response's digits are not the two characters `FF` of the ERROR frame (R67). -/
  | badErrorCode
  /-- A payload or a DATA frame longer than 255 bytes, which no frame can express (R227, R5). -/
  | tooLong
  /-- No request line is asserted. -/
  | noRequest
  /-- More than one request line is asserted: at most one operation is in flight (R28). -/
  | severalRequests
  deriving DecidableEq, Repr

end Sys2Proof
end

