-- ==== Sys2Proof/WellFormed.lean ====
section
/-! DEFINITION. Which instructions are well formed: the ranges of spec/opcode_table.json's length columns. -/

namespace Sys2Proof

/-- The operand ranges of the table. A request may hold any checksum: a wrong one is legal input (R72). -/
def Instr.wf : Instr → Bool
  | .req _ p _         => decide (p.length ≤ Config.maxPayload)
  | .data ds           => decide (1 ≤ ds.length ∧ ds.length ≤ Config.maxPayload)
  | .pageProgram _ ds  => decide (1 ≤ ds.length ∧ ds.length ≤ 128)
  | .read _ m          => decide (m ≠ 0)
  | .readStatus m      => decide (m ≠ 0)
  | .ack | .diag | .error | .wren | .sectorErase _ | .readId _
  | .spiXfer _ _ _ | .decByte | .decReset | .encByte _ _ _ _ _
  | .start | .pollReady | .countBytes | .returnBytes | .readData | .checksum
  | .run | .spiWrite | .spiStall | .spiRead | .err => true

end Sys2Proof
end

