-- ==== Sys2Proof/Decode.lean ====
section
/-! DEFINITION. The wire alphabet (30_encoding R65, 40_frame_codec R90), the checksum (R63), the decoder (total,
rejecting by name) and the encoder, both written from the frame formats of 30_encoding. -/

namespace Sys2Proof

/-! The characters of the wire alphabet (R65; the codes are ASCII, log entry 23). -/

def chDot : Byte := 0x2E
def chC   : Byte := 0x63
def chE   : Byte := 0x65
def chF   : Byte := 0x46
def chCR  : Byte := 0x0D
def chLF  : Byte := 0x0A

/-- `hexval` (R90): the value of a digit of either case, nothing for every other character. -/
def hexval (c : Byte) : Option Nibble :=
  if 0x30 ≤ c ∧ c ≤ 0x39 then some ((c - 0x30).setWidth 4)
  else if 0x41 ≤ c ∧ c ≤ 0x46 then some ((c - 0x37).setWidth 4)
  else if 0x61 ≤ c ∧ c ≤ 0x66 then some ((c - 0x57).setWidth 4)
  else none

/-- `hexchar` (R90): always an upper-case digit. -/
def hexchar (v : Nibble) : Byte :=
  if v ≤ 9 then v.setWidth 8 + 0x30 else v.setWidth 8 + 0x37

/-- The byte of two digits, `16 * hi + lo` (R66, R91; the high digit is first on the wire, R41). -/
def joinNibbles (hi lo : Nibble) : Byte := hi ++ lo

/-- The high digit's value, `b[7:4]`. -/
def hiNibble (b : Byte) : Nibble := b.extractLsb' 4 4

/-- The low digit's value, `b[3:0]`. -/
def loNibble (b : Byte) : Nibble := b.extractLsb' 0 4

/-- `hex(b,2)` (R6): two upper-case digits, high digit first. -/
def hex2 (b : Byte) : List Byte := [hexchar (hiNibble b), hexchar (loNibble b)]

/-- The digits of a sequence of bytes. -/
def hexBytes : List Byte → List Byte
  | []      => []
  | b :: bs => hex2 b ++ hexBytes bs

/-- The sum of bytes modulo 256 (R91). -/
def byteSum : List Byte → Byte
  | []      => 0
  | b :: bs => b + byteSum bs

/-- `in_bytes` of a payload (R61). -/
def lengthByte (p : List Byte) : Byte := BitVec.ofNat 8 p.length

/-- The checksum of R63: the two's complement of the sum of the other fields. -/
def checksumOf (outBytes : Byte) (p : List Byte) : Byte :=
  0 - (lengthByte p + outBytes + byteSum p)

/-- The characters of a request frame (R60, R61). -/
def reqChars (outBytes : Byte) (p : List Byte) (ck : Byte) : List Byte :=
  chDot :: (hex2 (lengthByte p) ++ (hex2 outBytes ++ (hexBytes p ++ (hex2 ck ++ [chCR, chLF]))))

/-- A correctly encoded request, `REQ(outBytes; p)` (R74). -/
def reqFrame (outBytes : Byte) (p : List Byte) : List Byte :=
  reqChars outBytes p (checksumOf outBytes p)

/-- The three bytes of a flash address, A23:16 first (R43). -/
def addrBytes (a : FlashAddr) : List Byte :=
  [a.extractLsb' 16 8, a.extractLsb' 8 8, a.extractLsb' 0 8]

/-- The address of three payload bytes, big-endian (R43). -/
def joinAddr (x y z : Byte) : FlashAddr := x ++ (y ++ z : BitVec 16)

/-! Decoding. -/

/-- Is the character a digit as `hex(v,2)` writes it (upper case, R6, R65)? -/
def isUpperDigit (c : Byte) : Bool :=
  (decide (0x30 ≤ c) && decide (c ≤ 0x39)) || (decide (0x41 ≤ c) && decide (c ≤ 0x46))

/-- The value of a digit of a frame's text. The frame formats use `hex(v,2)`, which is upper case (R6, R60, R67).
Lower-case text is no frame of R60 but tolerated input (R72), which `step` offers to DEC as it stands. Log entry 19. -/
def upperval (c : Byte) : Option Nibble := if isUpperDigit c = true then hexval c else none

/-- One byte of two digits. -/
def takeByte : List Byte → Except Reject (Byte × List Byte)
  | a :: b :: r =>
    match upperval a, upperval b with
    | some x, some y => .ok (joinNibbles x y, r)
    | _, _ => .error .badDigit
  | _ => .error .truncated

/-- `n` bytes of two digits each. -/
def takeBytes : Nat → List Byte → Except Reject (List Byte × List Byte)
  | 0, cs => .ok ([], cs)
  | n + 1, cs =>
    match takeByte cs with
    | .error e => .error e
    | .ok (b, r) =>
      match takeBytes n r with
      | .error e => .error e
      | .ok (bs, r') => .ok (b :: bs, r')

/-- The checksum and the terminator of a request. -/
def decodeReqTail (outBytes : Byte) (p cs : List Byte) : Except Reject Instr :=
  match takeByte cs with
  | .error e => .error e
  | .ok (ck, r) => if r = [chCR, chLF] then .ok (.req outBytes p ck) else .error .badTerminator

/-- A request frame (R60, R61, R64: `in_bytes` decides the length). -/
def decodeReq : List Byte → Except Reject Instr
  | [] => .error .truncated
  | c :: cs =>
    if c = chDot then
      match takeByte cs with
      | .error e => .error e
      | .ok (n, r1) =>
        match takeByte r1 with
        | .error e => .error e
        | .ok (outBytes, r2) =>
          match takeBytes n.toNat r2 with
          | .error e => .error e
          | .ok (p, r3) => decodeReqTail outBytes p r3
    else .error .badMarker

/-- The digits of a DATA frame up to its terminator, which ends the text. -/
def decodeDigits : List Byte → Except Reject (List Byte)
  | [] => .error .truncated
  | [c] => if c = chLF then .ok [] else .error .truncated
  | a :: b :: r =>
    match upperval a, upperval b with
    | some x, some y =>
      match decodeDigits r with
      | .ok xs => .ok (joinNibbles x y :: xs)
      | .error e => .error e
    | _, _ => if a = chLF then .error .badTerminator else .error .badDigit

/-- A response frame (R67). The DIAG row is matched by its mask: its two value characters are the machine's output
and no operand. Log entry 18. -/
def decodeRsp : List Byte → Except Reject Instr
  | [] => .error .truncated
  | c :: cs =>
    if c = chDot then
      match decodeDigits cs with
      | .error e => .error e
      | .ok [] => .ok .ack
      | .ok (d :: ds) => if ds.length < Config.maxPayload then .ok (.data (d :: ds)) else .error .tooLong
    else if c = chC then
      match cs with
      | [_, _, t] => if t = chLF then .ok .diag else .error .badTerminator
      | _ => .error .truncated
    else if c = chE then
      match cs with
      | [x, y, t] =>
        if x = chF ∧ y = chF then (if t = chLF then .ok .error else .error .badTerminator) else .error .badErrorCode
      | _ => .error .truncated
    else .error .badMarker

/-- A request's payload and `out_bytes`: one of the six commands where the table's columns fit, and otherwise the
request itself, since the bridge passes every payload through (R70, R72, R180). -/
def decodePayload (outBytes : Byte) (p : List Byte) : Except Reject Instr :=
  if Config.maxPayload < p.length then .error .tooLong
  else
    match p with
    | [c] =>
      if c = 0x06 ∧ outBytes = 0 then .ok .wren
      else if c = 0x05 then .ok (.readStatus outBytes)
      else if c = 0x9F then .ok (.readId outBytes)
      else .ok (.req outBytes p (checksumOf outBytes p))
    | [c, x, y, z] =>
      if c = 0x20 ∧ outBytes = 0 then .ok (.sectorErase (joinAddr x y z))
      else if c = 0x03 then .ok (.read (joinAddr x y z) outBytes)
      else .ok (.req outBytes p (checksumOf outBytes p))
    | c :: x :: y :: z :: d :: ds =>
      if c = 0x02 ∧ outBytes = 0 then .ok (.pageProgram (joinAddr x y z) (d :: ds))
      else .ok (.req outBytes p (checksumOf outBytes p))
    | _ => .ok (.req outBytes p (checksumOf outBytes p))

/-- The request lines of the block operations (R30, R71): exactly one start line is asserted. -/
def decodeLines (l : ReqLines) : Except Reject Instr :=
  match l.decNext, l.decReset, l.encStart, l.spiStart with
  | true, false, false, false => .ok .decByte
  | false, true, false, false => .ok .decReset
  | false, false, true, false => .ok (.encByte l.encByte l.encMarker l.encFirst l.encLast l.encEmpty)
  | false, false, false, true => .ok (.spiXfer l.spiOut l.spiFirst l.spiLast)
  | false, false, false, false => .error .noRequest
  | _, _, _, _ => .error .severalRequests

/-- The rule a value of `orch.state` selects (R15). -/
def decodeState : OrchState → Instr
  | .start => .start
  | .pollReady => .pollReady
  | .countBytes => .countBytes
  | .returnBytes => .returnBytes
  | .readData => .readData
  | .checksum => .checksum
  | .run => .run
  | .spiWrite => .spiWrite
  | .spiStall => .spiStall
  | .spiRead => .spiRead
  | .err => .err

/-- The decoder: total, rejecting by name. -/
def decode : Encoded → Except Reject Instr
  | .rx cs => decodeReq cs
  | .tx cs => decodeRsp cs
  | .payload m p => decodePayload m p
  | .lines l => decodeLines l
  | .orch q => .ok (decodeState q)

/-! Encoding. -/

/-- No request line asserted. -/
def idleLines : ReqLines :=
  { decNext := false, decReset := false, encStart := false, encByte := 0, encMarker := 0, encFirst := false,
    encLast := false, encEmpty := false, spiStart := false, spiOut := 0, spiFirst := false, spiLast := false }

/-- The encoder, from the same tables. -/
def encode : Instr → Encoded
  | .req m p ck => .rx (reqChars m p ck)
  | .ack => .tx [chDot, chLF]
  | .diag => .tx (chC :: (hex2 0 ++ [chLF]))
  | .data ds => .tx (chDot :: (hexBytes ds ++ [chLF]))
  | .error => .tx (chE :: (hex2 Config.errByte ++ [chLF]))
  | .wren => .payload 0 [0x06]
  | .sectorErase a => .payload 0 (0x20 :: addrBytes a)
  | .pageProgram a ds => .payload 0 (0x02 :: (addrBytes a ++ ds))
  | .read a m => .payload m (0x03 :: addrBytes a)
  | .readStatus m => .payload m [0x05]
  | .readId m => .payload m [0x9F]
  | .spiXfer b f l => .lines { idleLines with spiStart := true, spiOut := b, spiFirst := f, spiLast := l }
  | .decByte => .lines { idleLines with decNext := true }
  | .decReset => .lines { idleLines with decReset := true }
  | .encByte b m f l e =>
      .lines { idleLines with encStart := true, encByte := b, encMarker := m, encFirst := f, encLast := l, encEmpty := e }
  | .start => .orch .start
  | .pollReady => .orch .pollReady
  | .countBytes => .orch .countBytes
  | .returnBytes => .orch .returnBytes
  | .readData => .orch .readData
  | .checksum => .orch .checksum
  | .run => .orch .run
  | .spiWrite => .orch .spiWrite
  | .spiStall => .orch .spiStall
  | .spiRead => .orch .spiRead
  | .err => .orch .err

/-! The table's words as numbers (R75: the frame's first byte is the most significant). -/

/-- The bytes of an `n`-byte number, most significant first. -/
def bytesOfNat : Nat → Nat → List Byte
  | 0, _ => []
  | n + 1, w => BitVec.ofNat 8 (w / 256 ^ n) :: bytesOfNat n w

/-- The least `in_bytes` of a command byte (the table's column): where the table's word is shorter than the
command, the operand bytes are zeros. -/
def leastPayload (c : Byte) : Nat :=
  if c = 0x20 then 4 else if c = 0x02 then 5 else if c = 0x03 then 4 else 1

/-- `p` filled up with zeros to `n` bytes. -/
def padZeros (n : Nat) (p : List Byte) : List Byte := p ++ List.replicate (n - p.length) 0

/-- The encoded form of a table row's number: a response frame if it begins with one of the three markers, else a
payload. The rows of the block operations and of the states have no bit pattern. Log entry 20. -/
def encodedOfTableWord (nbits w : Nat) : Option Encoded :=
  match bytesOfNat (nbits / 8) w with
  | [] => none
  | c :: cs =>
    if c = chDot ∨ c = chC ∨ c = chE then some (.tx (c :: cs))
    else some (.payload 0 (padZeros (leastPayload c) (c :: cs)))

/-- What the decoder gives for a table row's number. -/
def decodeTableWord (nbits w : Nat) : Option Instr :=
  match encodedOfTableWord nbits w with
  | none => none
  | some e =>
    match decode e with
    | .ok i => some i
    | .error _ => none

end Sys2Proof
end

