-- ==== Sys2Proof/Machine/State.lean ====
section
/-! DEFINITION. The state of the bridge (10_state R10), of its environment (R29, 70 R242) and its value after reset
(70 R220). -/

namespace Sys2Proof.Machine

/-- The events of an execution (00_scope R7, R8). -/
inductive Event where
  /-- DEC took this byte from RX. -/
  | rx (c : Byte)
  /-- The transport accepted this character on TX. -/
  | tx (c : Byte)
  /-- The chip-select output was written. -/
  | cs (v : Bool)
  /-- The clock output was written. -/
  | sck (v : Bool)
  /-- The data-out output took this level. -/
  | mosi (v : Bool)
  /-- The data-in line was sampled at this level. -/
  | miso (v : Bool)
  deriving DecidableEq, Repr

/-- The orchestrator's registers (R11, R15, R16). -/
structure Orch where
  state       : OrchState
  byteCount   : Byte
  returnBytes : Byte
  idx         : Byte
  deriving DecidableEq, Repr

/-- The decoder's registers (R14, R17, R18, R19, R92). -/
structure Dec where
  inFrame : Bool
  err     : Bool
  sum     : Byte
  busy    : Bool
  hi      : Nibble
  haveHi  : Bool
  deriving DecidableEq, Repr

/-- The encoder's registers: `busy` (R21) and the characters of the call in flight that the transport has not
accepted, the first of them being offered (R105). Log entry 5. -/
structure Enc where
  busy    : Bool
  pending : List Byte
  deriving DecidableEq, Repr

/-- The SPI driver's registers (R12, R13, R20, R21). `mosi` is bit 7 of `shOut`. -/
structure Spi where
  cs    : Bool
  sck   : Bool
  shOut : Byte
  shIn  : Byte
  bit   : Fin 9
  last  : Bool
  ready : Bool
  deriving DecidableEq, Repr

/-- The parameters of a run (R29, R243), as plain data the step reads. Log entries 2, 3 and 4. -/
structure Env where
  /-- Bytes the host has offered on RX and DEC has not taken, oldest first. -/
  rx      : List Byte
  /-- The levels the flash chip will drive at the coming samples. -/
  miso    : List Bool
  /-- How many samples have been taken: the index of the free value where `miso` is used up. -/
  samples : Nat
  /-- Whether the transport accepts the character offered, at the coming offers; it accepts where the list is used up. -/
  txReady : List Bool
  /-- For each coming step, whether `rst` is asserted in it and after how many of the step's events; not asserted
  where the list is used up. Log entry 11. -/
  rst     : List (Option Nat)
  deriving DecidableEq, Repr

/-- The working buffer: written cells by address, addresses strictly rising. An unlisted cell holds no value
(93 V1), so no entry can equal what an unlisted address reads as. Log entry 9. -/
abbrev Memory := List Host.Cell

/-- The whole machine and its surroundings, as plain data. -/
structure State where
  orch    : Orch
  dec     : Dec
  enc     : Enc
  spi     : Spi
  buf     : Memory
  env     : Env
  /-- The events so far, oldest first (R8). Log entry 6. -/
  trace   : List Event
  /-- What the outside asks for next, oldest first: `step` carries these out before ORCH goes on. Log entry 7. -/
  stimuli : List Encoded
  deriving DecidableEq, Repr

/-- Why the machine stops. -/
inductive Fault where
  /-- READ_DATA, SPI_WRITE or SPI_READ addressed a cell outside 0..254 (R7). Safe: no run reaches it (R16). -/
  | bufRange (a : Nat)
  /-- SPI_WRITE read a cell that nothing has written since reset (R221, 93 V1). Safe: no run reaches it (R22). -/
  | bufUnwritten (a : Nat)
  deriving DecidableEq, Repr

/-- Why an instruction is refused. -/
inductive Refusal where
  /-- Raised by `exec` for an instruction without a meaning; no arm uses it. Safe. -/
  | notModelled (mnemonic : String)
  /-- SpiXfer while a transfer is in progress: the operation is not offered (R124, 93 V10). Safe. -/
  | spiBusy
  /-- DecByte while a decode is outstanding: the operation is not offered (R93, 93 V10). Safe. -/
  | decBusy
  /-- An encoder call while ENC is busy: the operation is not offered (R104, 93 V10). Safe. -/
  | encBusy
  /-- Raised by `step` where the pending stimulus is no instruction and no text on RX. Safe. -/
  | undecodable (r : Reject)
  deriving DecidableEq, Repr

/-- ORCH after reset (R220). -/
def Orch.reset : Orch := { state := .start, byteCount := 0, returnBytes := 0, idx := 0 }

/-- DEC after reset (R220). `hi` is unspecified there; 0 is the model's (DESIGN CHOICE, log entry 8). -/
def Dec.reset : Dec := { inFrame := false, err := false, sum := 0, busy := false, hi := 0, haveHi := false }

/-- ENC after reset (R220). -/
def Enc.reset : Enc := { busy := false, pending := [] }

/-- SPI after reset (R220). -/
def Spi.reset : Spi :=
  { cs := false, sck := false, shOut := 0, shIn := 0, bit := 0, last := false, ready := true }

/-- Surroundings in which nothing has been offered yet. -/
def Env.reset : Env := { rx := [], miso := [], samples := 0, txReady := [], rst := [] }

/-- The machine right after reset (R220). -/
def State.reset : State :=
  { orch := Orch.reset, dec := Dec.reset, enc := Enc.reset, spi := Spi.reset, buf := [],
    env := Env.reset, trace := [], stimuli := [] }

end Sys2Proof.Machine
end

