-- ==== Sys2Proof/Machine/Ops.lean ====
section
/-! DEFINITION. The operations every meaning is built from: the working buffer, one operation of each block
(40_frame_codec R93, R98, R104; 41_spi_driver R121-R123), the orchestrator's register writes, taking an error and
recovering from it (60 R208, R209), and taking reset (70 R220, R223). -/

namespace Sys2Proof.Machine

/-! ## The working buffer (R22) -/

/-- The canonical form: addresses strictly rising and below `BUF_DEPTH`. -/
def Memory.wf : Memory → Bool
  | [] => true
  | (a, _) :: rest =>
    decide (a < Config.bufDepth) &&
    (match rest with
     | [] => true
     | (b, _) :: _ => decide (a < b)) && Memory.wf rest

/-- The cell at `a`, if something has written it. -/
def Memory.get : Memory → Nat → Option Byte
  | [], _ => none
  | (b, v) :: rest, a => if a = b then some v else Memory.get rest a

/-- The buffer with `v` in the cell at `a`. -/
def Memory.set : Memory → Nat → Byte → Memory
  | [], a, v => [(a, v)]
  | (b, w) :: rest, a, v =>
    if a < b then (a, v) :: (b, w) :: rest
    else if a = b then (a, v) :: rest
    else (b, w) :: Memory.set rest a v

/-- `MemRead(a, 1)` (R7). A cell outside the buffer, or one nothing has written (93 V1), faults. -/
def memRead (s : State) (a : Nat) : Except Fault Byte :=
  if a < Config.bufDepth then
    match s.buf.get a with
    | some v => .ok v
    | none => .error (.bufUnwritten a)
  else .error (.bufRange a)

/-- `MemWrite(a, 1, v)` (R7). -/
def memWrite (s : State) (a : Nat) (v : Byte) : Except Fault State :=
  if a < Config.bufDepth then .ok { s with buf := s.buf.set a v } else .error (.bufRange a)

/-! ## Register writes of ORCH (R15, R16, R11) -/

/-- `state <- q` (R7). -/
def State.goto (s : State) (q : OrchState) : State := { s with orch := { s.orch with state := q } }

/-- `orch.idx <- v`. -/
def State.setIdx (s : State) (v : Byte) : State := { s with orch := { s.orch with idx := v } }

/-- `orch.byte_count <- v`. -/
def State.setByteCount (s : State) (v : Byte) : State := { s with orch := { s.orch with byteCount := v } }

/-- `orch.return_bytes <- v`. -/
def State.setReturnBytes (s : State) (v : Byte) : State := { s with orch := { s.orch with returnBytes := v } }

/-! ## DEC -/

/-- `DecReset()` (R98): `dec.sum` stays, nothing is taken from RX. `dec.hi` is unspecified behind it (93 V2) and keeps its
old value here (DESIGN CHOICE, log entry 8). -/
def decReset (s : State) : State :=
  { s with dec := { s.dec with inFrame := false, err := false, haveHi := false, busy := false } }

/-- What a decode request answers (R96): the byte, a failure, or nothing yet. -/
inductive DecAnswer where
  | byte (b : Byte)
  | error
  | waiting
  deriving DecidableEq, Repr

/-- What one character does to DEC. -/
inductive DecStep where
  /-- The request goes on. -/
  | more (d : Dec)
  /-- The byte is complete. -/
  | byte (b : Byte) (d : Dec)
  /-- FrameDecodeError. -/
  | error (d : Dec)
  deriving DecidableEq, Repr

/-- One character taken from RX (R92, R93, R95): hunt, first digit, second digit. -/
def decChar (c : Byte) (d : Dec) : DecStep :=
  if d.inFrame = false then
    if c = chDot then .more { d with inFrame := true, sum := 0, haveHi := false } else .more d
  else if d.haveHi = false then
    match hexval c with
    | none => .error { d with err := true, busy := false }
    | some v => .more { d with hi := v, haveHi := true }
  else
    match hexval c with
    | none => .error { d with err := true, haveHi := false, busy := false }
    | some v =>
      .byte (joinNibbles d.hi v)
        { d with haveHi := false, sum := d.sum + joinNibbles d.hi v, busy := false }

/-- The result of running DEC over the bytes offered. -/
structure DecScan where
  answer : DecAnswer
  dec    : Dec
  /-- The bytes taken, in order. -/
  taken  : List Byte
  /-- The bytes still offered. -/
  rest   : List Byte
  deriving DecidableEq, Repr

/-- DEC takes bytes until the request completes or none is offered (R93). -/
def decScan (d : Dec) : List Byte → DecScan
  | [] => ⟨.waiting, d, [], []⟩
  | c :: cs =>
    match decChar c d with
    | .byte b d' => ⟨.byte b, d', [c], cs⟩
    | .error d' => ⟨.error, d', [c], cs⟩
    | .more d' =>
      let r := decScan d' cs
      { r with taken := c :: r.taken }

/-- The request line: `dec.busy <- 1`. A request already outstanding goes on where it is; a new one starts with no
digit latched. Log entry 15. -/
def decRequest (d : Dec) : Dec :=
  if d.busy = true then d else { d with busy := true, haveHi := false }

/-- `DecByte()` (R93), begun or continued. With `dec.err = 1` it takes nothing and does not complete (R95). -/
def decByteOp (s : State) : DecAnswer × State :=
  if s.dec.err = true then (.waiting, { s with dec := decRequest s.dec })
  else
    let r := decScan (decRequest s.dec) s.env.rx
    (r.answer,
     { s with dec := r.dec, env := { s.env with rx := r.rest }, trace := s.trace ++ r.taken.map Event.rx })

/-! ## ENC -/

/-- The characters of one encoder call (R104). -/
def encChars (b marker : Byte) (first last emptyFrame : Bool) : List Byte :=
  (if first = true then [marker] else []) ++
  ((if emptyFrame = true then [] else hex2 b) ++
   (if last = true then [chLF] else []))

/-- The result of offering characters to the transport. -/
structure EncDrain where
  /-- Accepted, in order. -/
  sent  : List Byte
  /-- Not accepted; the first is still offered. -/
  left  : List Byte
  /-- What is left of the transport's acceptances. -/
  ready : List Bool
  deriving DecidableEq, Repr

/-- `TxPush` of each character in turn (R105), until the transport does not accept one. Log entry 4. -/
def encDrain : List Byte → List Bool → EncDrain
  | [], r => ⟨[], [], r⟩
  | c :: cs, [] => let d := encDrain cs []; { d with sent := c :: d.sent }
  | c :: cs, true :: r => let d := encDrain cs r; { d with sent := c :: d.sent }
  | c :: cs, false :: r => ⟨[], c :: cs, r⟩

/-- ENC goes on with the call in flight; `enc.busy` falls when its last character is accepted (R105). -/
def encPump (s : State) : State :=
  let d := encDrain s.enc.pending s.env.txReady
  { s with enc := { busy := !d.left.isEmpty, pending := d.left }, env := { s.env with txReady := d.ready },
           trace := s.trace ++ d.sent.map Event.tx }

/-- A request to ENC to send these characters. -/
def encSend (cs : List Byte) (s : State) : State :=
  encPump { s with enc := { busy := true, pending := cs } }

/-- `EncByte(b, marker, first, last, emptyFrame)` (R104). -/
def encByteOp (b marker : Byte) (first last emptyFrame : Bool) (s : State) : State :=
  encSend (encChars b marker first last emptyFrame) s

/-- The encoder call of an ORCH rule: begun, or continued where it waits on the transport. Log entry 5. -/
def encCall (b marker : Byte) (first last emptyFrame : Bool) (s : State) : State :=
  if s.enc.busy = true then encPump s else encByteOp b marker first last emptyFrame s

/-- What follows an encoder call: nothing as long as the call waits (R141). -/
def afterEnc (k : State → State) (s : State) : State :=
  if s.enc.busy = true then s else k s

/-! ## SPI -/

/-- `Miso()` (R7, R126): the run's next level, or a free value. Log entry 3. -/
def Env.sample (e : Env) : Bool × Env :=
  match e.miso with
  | [] => (Config.freeMiso e.samples, { e with samples := e.samples + 1 })
  | v :: r => (v, { e with miso := r, samples := e.samples + 1 })

/-- Driver, surroundings and pin events. -/
structure SpiRun where
  spi    : Spi
  env    : Env
  events : List Event
  deriving DecidableEq, Repr

/-- `mosi` (R12). -/
def Spi.mosi (p : Spi) : Bool := p.shOut.msb

/-- The `accept` events of a transfer (R123). -/
def spiAccept (out : Byte) (first last : Bool) (p : Spi) : Spi :=
  { p with ready := false, last := last, bit := 0, shOut := out, cs := if first = true then true else p.cs }

/-- The pin events of `accept`; that `cs` stands before `mosi` is the model's choice (R123: they happen together).
Log entry 24. -/
def acceptEvents (out : Byte) (first : Bool) : List Event :=
  (if first = true then [.cs true] else []) ++ [.mosi out.msb]

/-- The rising edge: sample (R123, R13). -/
def spiRise (p : Spi) (e : Env) : SpiRun :=
  let v := e.sample
  ⟨{ p with sck := true, shIn := p.shIn.extractLsb' 0 7 ++ BitVec.ofBool v.1 }, v.2, [.sck true, .miso v.1]⟩

/-- The falling edge: shift with zero fill (R123, R12). -/
def spiFall (p : Spi) (e : Env) : SpiRun :=
  let q := { p with sck := false, shOut := p.shOut.extractLsb' 0 7 ++ 0#1,
                    bit := if p.bit = 8 then 8 else p.bit + 1 }
  ⟨q, e, [.sck false, .mosi q.mosi]⟩

/-- The `complete` events (R122, R123). -/
def spiComplete (p : Spi) (e : Env) : SpiRun :=
  ⟨{ p with cs := if p.last = true then false else p.cs, ready := true }, e,
   if p.last = true then [.cs false] else []⟩

/-- The next pin event of the transfer in progress. -/
def spiTick (p : Spi) (e : Env) : SpiRun :=
  if p.sck = true then spiFall p e
  else if p.bit = 8 then spiComplete p e
  else spiRise p e

/-- The driver goes on for at most `n` pin events, until it is ready. -/
def spiRun : Nat → Spi → Env → SpiRun
  | 0, p, e => ⟨p, e, []⟩
  | n + 1, p, e =>
    if p.ready = true then ⟨p, e, []⟩
    else
      let t := spiTick p e
      let r := spiRun n t.spi t.env
      { r with events := t.events ++ r.events }

/-- Sixteen toggles and the completion: no transfer is longer (R127). -/
def transferTicks : Nat := 17

/-- `wait spi.ready = 1`: the transfer in progress, if any, runs to its end (R20, R124, R127). Log entry 26. -/
def spiWait (s : State) : State :=
  let r := spiRun transferTicks s.spi s.env
  { s with spi := r.spi, env := r.env, trace := s.trace ++ r.events }

/-- The request to the driver. -/
def spiRequest (out : Byte) (first last : Bool) (s : State) : State :=
  { s with spi := spiAccept out first last s.spi, trace := s.trace ++ acceptEvents out first }

/-- `SpiXfer(out, first, last) -> in` (R121, R123), once the bus is free. -/
def spiXferOp (out : Byte) (first last : Bool) (s : State) : Byte × State :=
  let t := spiWait (spiRequest out first last (spiWait s))
  (t.spi.shIn, t)

/-! ## Errors (60_exceptions) -/

/-- FrameDecodeError is taken (R201, R208): DEC has set `dec.err`, ORCH goes to ERR, nothing is saved. -/
def takeDecodeError (s : State) : State := s.goto .err

/-- Recovery (R209): control goes to START, there is no return address. -/
def recover (s : State) : State := s.goto .start

/-- The error is reported (R203, R208): one `eFF` frame, then START. Both errors end here. -/
def reportError (s : State) : State :=
  afterEnc recover (encCall Config.errByte chE true true false s)

/-! ## Reset (70 R220, R223) -/

/-- The bridge takes reset: every field of R10 to its reset value, an operation in flight is abandoned, the pins go
to 0 at once; what is outside the bridge stays. The order in which the three pins are recorded (`cs`, `sck`, `mosi`)
is the model's choice (DESIGN CHOICE; R223 says at once). Log entry 11. -/
def takeReset (s : State) : State :=
  { s with orch := Orch.reset, dec := Dec.reset, enc := Enc.reset, spi := Spi.reset, buf := [],
           trace := s.trace ++ [.cs false, .sck false, .mosi false] }

/-! ## The environment -/

/-- The host offers bytes on RX (R24, R242): they stay offered, in order, until DEC takes them. -/
def offerRx (cs : List Byte) (s : State) : State :=
  { s with env := { s.env with rx := s.env.rx ++ cs } }

/-- ORCH waits in a block operation (R157): for a byte or for the transport. -/
def State.waiting (s : State) : Bool := s.dec.busy || s.enc.busy

end Sys2Proof.Machine
end

