-- ==== Sys2Proof/Machine/Blocks.lean ====
section
/-! DEFINITION. The four block operations as instructions (30_encoding R71). A request to a busy block is not
offered (93 V10, log entry 16). -/

namespace Sys2Proof.Machine

/-- SpiXfer (R121): the byte received stands in `spi.sh_in`. -/
def execSpiXfer (byteOut : Byte) (first last : Bool) (s : State) : Host.Outcome State Fault Refusal :=
  if s.spi.ready = true then .next (spiXferOp byteOut first last s).2 else .refused .spiBusy

/-- DecByte (R93): the byte decoded, a decode error, or `dec.busy = 1` while it waits. -/
def execDecByte (s : State) : Host.Outcome State Fault Refusal :=
  if s.dec.busy = true then .refused .decBusy else .next (decByteOp s).2

/-- DecReset (R98; `dec.hi` is log entry 8). -/
def execDecReset (s : State) : Host.Outcome State Fault Refusal := .next (decReset s)

/-- EncByte (R104). -/
def execEncByte (b marker : Byte) (first last emptyFrame : Bool) (s : State) : Host.Outcome State Fault Refusal :=
  if s.enc.busy = true then .refused .encBusy else .next (encByteOp b marker first last emptyFrame s)

end Sys2Proof.Machine
end

