-- ==== Sys2Proof/Machine/Flags.lean ====
section
/-! DEFINITION. The conditions ORCH computes: the write-in-progress bit, the checksum test, and the `first` and
`last` flags of the transfers and encoder calls of SPI_WRITE and SPI_READ (42_orchestrator R143, R148, R149, R151). -/

namespace Sys2Proof.Machine

/-- WIP: bit 0 of a status byte; the other bits are ignored (R143). -/
def wip (status : Byte) : Bool := status.getLsbD 0

/-- The frame's checksum is right (R148). -/
def State.checksumOk (s : State) : Bool := decide (s.dec.sum = 0)

/-- All payload bytes are stored or sent (R146, R149). -/
def State.payloadDone (s : State) : Bool := decide (s.orch.idx = s.orch.byteCount)

/-- All bytes are read back (R151). -/
def State.readDone (s : State) : Bool := decide (s.orch.idx = s.orch.returnBytes)

/-- `first` of a payload transfer (R149): the very first byte, if chip-select is not already asserted. -/
def State.writeFirst (s : State) : Bool := decide (s.orch.idx = 0) && !s.spi.cs

/-- `last` of a payload transfer (R149): the final byte, if nothing is to be read back. -/
def State.writeLast (s : State) : Bool :=
  decide (s.orch.idx = s.orch.byteCount - 1) && decide (s.orch.returnBytes = 0)

/-- `first` of an encoder call of SPI_READ (R151). -/
def State.readFirst (s : State) : Bool := decide (s.orch.idx = 0)

/-- `last` of a read transfer and of its encoder call (R151). -/
def State.readLast (s : State) : Bool := decide (s.orch.idx = s.orch.returnBytes - 1)

end Sys2Proof.Machine
end

