-- ==== Sys2Proof/Machine/Operands.lean ====
section
/-! DEFINITION. The operand forms of the orchestrator's rules: the working buffer is addressed by `orch.idx` and by
nothing else (20_memory R48), and a command's payload is its command byte, address bytes and data (30_encoding R70). -/

namespace Sys2Proof.Machine

/-- `MemRead(orch.idx, 1)`. -/
def readAtIdx (s : State) : Except Fault Byte := memRead s s.orch.idx.toNat

/-- `MemWrite(orch.idx, 1, v)`. -/
def writeAtIdx (s : State) (v : Byte) : Except Fault State := memWrite s s.orch.idx.toNat v

/-- `orch.idx <- orch.idx + 1` (R16). -/
def State.advanceIdx (s : State) : State := s.setIdx (s.orch.idx + 1)

/-- The payload of WREN (R181). -/
def payloadWren : List Byte := [0x06]

/-- The payload of SECTOR_ERASE (R182). -/
def payloadSectorErase (a : FlashAddr) : List Byte := 0x20 :: addrBytes a

/-- The payload of PAGE_PROGRAM (R183). -/
def payloadPageProgram (a : FlashAddr) (ds : List Byte) : List Byte := 0x02 :: (addrBytes a ++ ds)

/-- The payload of READ (R184). -/
def payloadRead (a : FlashAddr) : List Byte := 0x03 :: addrBytes a

/-- The payload of READ_STATUS (R185). -/
def payloadReadStatus : List Byte := [0x05]

/-- The payload of READ_ID (R186). -/
def payloadReadId : List Byte := [0x9F]

end Sys2Proof.Machine
end

