-- ==== Sys2Proof/Machine/Orchestrator.lean ====
section
/-! DEFINITION. The eleven states of the orchestrator (42_orchestrator R142-R152). A rule that must wait for a
handshake answers a state in which it waits (`dec.busy` or `enc.busy` is 1) and goes on when it is performed again. -/

namespace Sys2Proof.Machine

/-- START (R142; `dec.hi` behind its `DecReset()` is log entry 8). -/
def execStart (s : State) : Host.Outcome State Fault Refusal :=
  let s1 := spiWait ((decReset s).setIdx 0)
  let s2 := (spiXferOp Config.fillByte false true s1).2
  let s3 := (spiXferOp Config.statusOpcode true false s2).2
  .next (s3.goto .pollReady)

/-- POLL_READY (R143): one status byte; still busy, or release and go on. -/
def execPollReady (s : State) : Host.Outcome State Fault Refusal :=
  let r := spiXferOp Config.fillByte false false s
  if wip r.1 = true then .next (r.2.goto .pollReady)
  else .next ((spiXferOp Config.fillByte false true r.2).2.goto .countBytes)

/-- A decoding rule: what the byte is for, or ERR, or the wait (R144-R147, R201). -/
def withByte (k : Byte → State → Host.Outcome State Fault Refusal) (s : State) : Host.Outcome State Fault Refusal :=
  match decByteOp s with
  | (.byte b, t) => k b t
  | (.error, t) => .next (takeDecodeError t)
  | (.waiting, t) => .next t

/-- COUNT_BYTES (R144). -/
def execCountBytes (s : State) : Host.Outcome State Fault Refusal :=
  withByte (fun b t => .next ((t.setByteCount b).goto .returnBytes)) s

/-- RETURN_BYTES (R145). -/
def execReturnBytes (s : State) : Host.Outcome State Fault Refusal :=
  withByte (fun b t => .next ((t.setReturnBytes b).goto .readData)) s

/-- The byte goes to the cell at `orch.idx` and the cursor moves on (R146). -/
def storeByte (b : Byte) (s : State) : Host.Outcome State Fault Refusal :=
  match writeAtIdx s b with
  | .ok t => .next (t.advanceIdx.goto .readData)
  | .error f => .fault f

/-- READ_DATA (R146). -/
def execReadData (s : State) : Host.Outcome State Fault Refusal :=
  if s.payloadDone = true then .next (s.goto .checksum) else withByte storeByte s

/-- CHECKSUM (R147): the byte itself is not stored. -/
def execChecksum (s : State) : Host.Outcome State Fault Refusal :=
  withByte (fun _ t => .next (t.goto .run)) s

/-- `orch.idx <- 0; state <- SPI_WRITE`. -/
def enterWrite (s : State) : State := (s.setIdx 0).goto .spiWrite

/-- RUN (R148) for either value of `DIAG_C`. -/
def runWith (diagC : Bool) (s : State) : Host.Outcome State Fault Refusal :=
  if s.checksumOk = true then
    if diagC = true then .next (afterEnc enterWrite (encCall s.dec.sum chC true true false s))
    else .next (enterWrite s)
  else .next (reportError s)

/-- RUN (R148). -/
def execRun (s : State) : Host.Outcome State Fault Refusal := runWith Config.diagC s

/-- SPI_WRITE (R149). -/
def execSpiWrite (s : State) : Host.Outcome State Fault Refusal :=
  if s.payloadDone = false then
    match readAtIdx s with
    | .ok v => .next (((spiXferOp v s.writeFirst s.writeLast s).2).advanceIdx.goto .spiWrite)
    | .error f => .fault f
  else if s.orch.returnBytes = 0 then
    .next (afterEnc (fun t => t.goto .start) (encCall 0 chDot true true true s))
  else .next (s.goto .spiStall)

/-- SPI_STALL (R150): the byte received is dropped. -/
def execSpiStall (s : State) : Host.Outcome State Fault Refusal :=
  .next ((((spiXferOp Config.fillByte false false s).2).setIdx 0).goto .spiRead)

/-- The position is done: the cursor moves on. -/
def nextPosition (s : State) : State := s.advanceIdx.goto .spiRead

/-- The byte received goes to the cell at `orch.idx` and to the encoder (R151, R155). -/
def returnByte (d : Byte) (s : State) : Host.Outcome State Fault Refusal :=
  match writeAtIdx s d with
  | .ok t => .next (afterEnc nextPosition (encByteOp d chDot s.readFirst s.readLast false t))
  | .error f => .fault f

/-- SPI_READ (R151). While the encoder call of a position waits, its transfer is not made again. -/
def execSpiRead (s : State) : Host.Outcome State Fault Refusal :=
  if s.readDone = true then .next (s.goto .start)
  else if s.enc.busy = true then .next (afterEnc nextPosition (encPump s))
  else
    let r := spiXferOp Config.fillByte false s.readLast s
    returnByte r.1 r.2

/-- ERR (R152). -/
def execErr (s : State) : Host.Outcome State Fault Refusal := .next (reportError s)

/-- The rule that `orch.state` selects (R140, R141). -/
def orchRule (s : State) : Host.Outcome State Fault Refusal :=
  match s.orch.state with
  | .start => execStart s
  | .pollReady => execPollReady s
  | .countBytes => execCountBytes s
  | .returnBytes => execReturnBytes s
  | .readData => execReadData s
  | .checksum => execChecksum s
  | .run => execRun s
  | .spiWrite => execSpiWrite s
  | .spiStall => execSpiStall s
  | .spiRead => execSpiRead s
  | .err => execErr s

/-- Between two requests ORCH releases and polls the bus (START, POLL_READY) and takes no request (R51, R142, R143). -/
def State.betweenRequests (s : State) : Bool :=
  decide (s.orch.state = .start) || decide (s.orch.state = .pollReady)

/-- ORCH goes on by its rules, at most `n` of them, until it is back in START or waits for a handshake. -/
def runPass : Nat → State → Host.Outcome State Fault Refusal
  | 0, s => .next s
  | n + 1, s =>
    if s.betweenRequests = true then .next s
    else
      match orchRule s with
      | .next t => if t.waiting = true then .next t else runPass n t
      | .fault f => .fault f
      | .refused r => .refused r

/-- More rules than the longest request needs: 2 + 256 + 2 + 256 + 1 + 256 (R156). Log entry 17. -/
def passFuel : Nat := 1024

/-- The host offers these characters and ORCH, where it waits for them, carries the command out (R24, R49, R180). -/
def handleText (cs : List Byte) (s : State) : Host.Outcome State Fault Refusal :=
  runPass passFuel (offerRx cs s)

/-- The host offers the request `REQ(outBytes; p)` (R74). -/
def handleRequest (outBytes : Byte) (p : List Byte) (s : State) : Host.Outcome State Fault Refusal :=
  handleText (reqFrame outBytes p) s

end Sys2Proof.Machine
end

