-- ==== Sys2Proof/Machine/Requests.lean ====
section
/-! DEFINITION. The request frame (30_encoding R60-R64) and the six flash commands as requests
(43_flash_commands_and_host R180-R186). The bridge treats every payload alike. Log entry 17. -/

namespace Sys2Proof.Machine

/-- REQ (R60, R180): with the checksum the host put into it. -/
def execReq (outBytes : Byte) (payload : List Byte) (checksum : Byte) (s : State) :
    Host.Outcome State Fault Refusal :=
  handleText (reqChars outBytes payload checksum) s

/-- WREN (R181). -/
def execWren (s : State) : Host.Outcome State Fault Refusal := handleRequest 0 payloadWren s

/-- SECTOR_ERASE (R182). -/
def execSectorErase (addr : FlashAddr) (s : State) : Host.Outcome State Fault Refusal :=
  handleRequest 0 (payloadSectorErase addr) s

/-- PAGE_PROGRAM (R183). -/
def execPageProgram (addr : FlashAddr) (bytes : List Byte) (s : State) : Host.Outcome State Fault Refusal :=
  handleRequest 0 (payloadPageProgram addr bytes) s

/-- READ (R184). -/
def execRead (addr : FlashAddr) (count : Byte) (s : State) : Host.Outcome State Fault Refusal :=
  handleRequest count (payloadRead addr) s

/-- READ_STATUS (R185). -/
def execReadStatus (count : Byte) (s : State) : Host.Outcome State Fault Refusal :=
  handleRequest count payloadReadStatus s

/-- READ_ID (R186). -/
def execReadId (count : Byte) (s : State) : Host.Outcome State Fault Refusal :=
  handleRequest count payloadReadId s

end Sys2Proof.Machine
end

