-- ==== Sys2Proof/Machine/Responses.lean ====
section
/-! DEFINITION. The four response frames (30_encoding R67), each the encoder calls of 42_orchestrator R153. -/

namespace Sys2Proof.Machine

/-- ACK: one call, marker `.`, first, last, empty. -/
def execAck (s : State) : Host.Outcome State Fault Refusal :=
  if s.enc.busy = true then .refused .encBusy else .next (encByteOp 0 chDot true true true s)

/-- DIAG: one call, marker `c`, first, last, byte `dec.sum`. -/
def execDiag (s : State) : Host.Outcome State Fault Refusal :=
  if s.enc.busy = true then .refused .encBusy else .next (encByteOp s.dec.sum chC true true false s)

/-- The characters of the calls of a DATA frame: marker on the first, terminator on the last (R151, R153). -/
def dataChars (first : Bool) : List Byte → List Byte
  | [] => []
  | [d] => encChars d chDot first true false
  | d :: ds => encChars d chDot first false false ++ dataChars false ds

/-- DATA: one call per byte. Log entry 22. -/
def execData (bytes : List Byte) (s : State) : Host.Outcome State Fault Refusal :=
  if s.enc.busy = true then .refused .encBusy else .next (encSend (dataChars true bytes) s)

/-- ERROR: one call, marker `e`, first, last, byte 0xFF. -/
def execError (s : State) : Host.Outcome State Fault Refusal :=
  if s.enc.busy = true then .refused .encBusy else .next (encByteOp Config.errByte chE true true false s)

end Sys2Proof.Machine
end

