-- ==== Sys2Proof/Machine/Dispatch.lean ====
section
/-! DEFINITION. One arm per instruction. -/

namespace Sys2Proof.Machine

def exec (i : Instr) (s : State) : Host.Outcome State Fault Refusal :=
  match i with
  | .req outBytes payload checksum => Sys2Proof.Machine.execReq outBytes payload checksum s
  | .ack => Sys2Proof.Machine.execAck s
  | .diag => Sys2Proof.Machine.execDiag s
  | .data bytes => Sys2Proof.Machine.execData bytes s
  | .error => Sys2Proof.Machine.execError s
  | .wren => Sys2Proof.Machine.execWren s
  | .sectorErase addr => Sys2Proof.Machine.execSectorErase addr s
  | .pageProgram addr bytes => Sys2Proof.Machine.execPageProgram addr bytes s
  | .read addr count => Sys2Proof.Machine.execRead addr count s
  | .readStatus count => Sys2Proof.Machine.execReadStatus count s
  | .readId count => Sys2Proof.Machine.execReadId count s
  | .spiXfer byteOut first last => Sys2Proof.Machine.execSpiXfer byteOut first last s
  | .decByte => Sys2Proof.Machine.execDecByte s
  | .decReset => Sys2Proof.Machine.execDecReset s
  | .encByte b marker first last emptyFrame => Sys2Proof.Machine.execEncByte b marker first last emptyFrame s
  | .start => Sys2Proof.Machine.execStart s
  | .pollReady => Sys2Proof.Machine.execPollReady s
  | .countBytes => Sys2Proof.Machine.execCountBytes s
  | .returnBytes => Sys2Proof.Machine.execReturnBytes s
  | .readData => Sys2Proof.Machine.execReadData s
  | .checksum => Sys2Proof.Machine.execChecksum s
  | .run => Sys2Proof.Machine.execRun s
  | .spiWrite => Sys2Proof.Machine.execSpiWrite s
  | .spiStall => Sys2Proof.Machine.execSpiStall s
  | .spiRead => Sys2Proof.Machine.execSpiRead s
  | .err => Sys2Proof.Machine.execErr s

end Sys2Proof.Machine
end

