-- ==== Sys2Proof/Machine/Events.lean ====
section
/-! DEFINITION. What each interface saw of an execution (00_scope R8): the views of a list of events. -/

namespace Sys2Proof.Machine

/-- The bytes consumed from RX. -/
def rxOf : List Event → List Byte
  | [] => []
  | .rx c :: es => c :: rxOf es
  | .tx _ :: es | .cs _ :: es | .sck _ :: es | .mosi _ :: es | .miso _ :: es => rxOf es

/-- The characters delivered to TX. -/
def txOf : List Event → List Byte
  | [] => []
  | .tx c :: es => c :: txOf es
  | .rx _ :: es | .cs _ :: es | .sck _ :: es | .mosi _ :: es | .miso _ :: es => txOf es

/-- The events at the SPI pins. -/
def pinsOf : List Event → List Event
  | [] => []
  | .rx _ :: es | .tx _ :: es => pinsOf es
  | .cs v :: es => .cs v :: pinsOf es
  | .sck v :: es => .sck v :: pinsOf es
  | .mosi v :: es => .mosi v :: pinsOf es
  | .miso v :: es => .miso v :: pinsOf es

/-- How many samples of the data-in line stand among these events. -/
def sampleCount : List Event → Nat
  | [] => 0
  | .miso _ :: es => sampleCount es + 1
  | .rx _ :: es | .tx _ :: es | .cs _ :: es | .sck _ :: es | .mosi _ :: es => sampleCount es

end Sys2Proof.Machine
end

