-- ==== Sys2Proof/Machine/Fetch.lean ====
section
/-! DEFINITION. Where `step` finds what to do next: the oldest stimulus from outside, and without one the value of
`orch.state`, which is this hardware's program counter (10_state R15); and where in a step reset lands (70 R223). -/

namespace Sys2Proof.Machine

/-- What the next step carries out. -/
def fetch (s : State) : Encoded :=
  match s.stimuli with
  | [] => .orch s.orch.state
  | w :: _ => w

/-- Whether `rst` is asserted in the next step, and after how many of its events (R220, R223). -/
def rstSample (s : State) : Option Nat :=
  match s.env.rst with
  | [] => none
  | v :: _ => v

/-- Is `rst` asserted in the next step? -/
def rstAsserted (s : State) : Bool := (rstSample s).isSome

/-- The sample of `rst` is taken. -/
def sampleRst (s : State) : State := { s with env := { s.env with rst := s.env.rst.tail } }

/-- The sample of `rst` and the stimulus are taken. -/
def afterFetch (s : State) : State := { sampleRst s with stimuli := s.stimuli.tail }

/-- Words that are no instruction: text on RX is offered to DEC like any bytes (R72, R242), anything else is
refused by name. -/
def undecoded (w : Encoded) (r : Reject) (s : State) : Host.Outcome State Fault Refusal :=
  match w with
  | .rx cs => handleText cs s
  | .tx _ | .payload _ _ | .lines _ | .orch _ => .refused (.undecodable r)

/-- The instruction fetched is carried out. -/
def carryOut (s : State) : Host.Outcome State Fault Refusal :=
  match decode (fetch s) with
  | .ok i => exec i (afterFetch s)
  | .error r => undecoded (fetch s) r (afterFetch s)

/-- The step from `s` to `t` after only `n` of its events: the bytes DEC has not taken by then are still offered, and
the samples and acceptances that have not happened are still to come. -/
def rewind (n : Nat) (s t : State) : State :=
  let fresh := t.trace.drop s.trace.length
  let kept := fresh.take n
  { t with
    trace := s.trace ++ kept,
    env := { t.env with
      rx := rxOf (fresh.drop n) ++ t.env.rx,
      miso := s.env.miso.drop (sampleCount kept),
      samples := s.env.samples + sampleCount kept,
      txReady := if fresh.length ≤ n then t.env.txReady else s.env.txReady.drop (txOf kept).length } }

/-- Reset in the middle of a step abandons what is in flight (R223). Log entry 11. -/
def cutShort (n : Nat) (s : State) : Host.Outcome State Fault Refusal → Host.Outcome State Fault Refusal
  | .next t => .next (takeReset (rewind n s t))
  | .fault f => .fault f
  | .refused r => .refused r

/-- The table's word as the pending stimulus. A request is taken at the rest point COUNT_BYTES (R157, R243), so
ORCH stands there. Log entry 21. -/
def placeWord (w : Encoded) (s : State) : State :=
  match w with
  | .payload _ _ | .rx _ =>
    { s with stimuli := w :: s.stimuli, env := { s.env with rst := [] }, orch := { s.orch with state := .countBytes } }
  | .tx _ | .lines _ | .orch _ => { s with stimuli := w :: s.stimuli, env := { s.env with rst := [] } }

end Sys2Proof.Machine
end

