-- ==== Sys2Proof/Machine/Step.lean ====
section
/-! DEFINITION. One step: the instruction fetched is carried out, or reset is taken where `rst` is asserted: before
the first event of the step, or after some of them (70 R220, R223). -/

namespace Sys2Proof.Machine

/-- One step of the machine. -/
def step (s : State) : Host.Outcome State Fault Refusal :=
  match rstSample s with
  | none => carryOut s
  | some 0 => .next (takeReset (sampleRst s))
  | some (n + 1) => cutShort (n + 1) s (carryOut s)

/-- `s` with the table row's word placed where the next step finds it. Log entry 21. -/
def State.withFetchWord (s : State) (nbits w : Nat) : State :=
  match encodedOfTableWord nbits w with
  | none => s
  | some e => placeWord e s

end Sys2Proof.Machine
end

