-- ==== Sys2Proof/Machine/Programmer.lean ====
section
/-! DEFINITION. The host programmer (43_flash_commands_and_host R187-R190, 70 R229): the software that produces the
request frames and reads the responses. It is no part of the bridge (R2) and no step of the machine uses it.
Log entry 27. -/

namespace Sys2Proof.Machine

/-- The list cut into pieces of at most `n` elements. The fuel is the list's length at most. -/
def piecesOf (n : Nat) : Nat → List Byte → List (List Byte)
  | 0, _ => []
  | fuel + 1, l => if l.isEmpty then [] else l.take n :: piecesOf n fuel (l.drop n)

/-- Erase the sector at `c` (R188). -/
def hostErase (c : FlashAddr) : List Instr := [.wren, .sectorErase c]

/-- Program the page at `p` (R189). -/
def hostProgram (p : FlashAddr) (page : List Byte) : List Instr := [.wren, .pageProgram p page]

/-- Read the page back (R190): as many bytes as the page has. -/
def hostVerify (p : FlashAddr) (page : List Byte) : List Instr := [.read p (BitVec.ofNat 8 page.length)]

/-- The pages of a chunk, in order (R187): page `j` at `c + 128*j`. -/
def hostPages : FlashAddr → List (List Byte) → List Instr
  | _, [] => []
  | p, page :: rest => hostProgram p page ++ (hostVerify p page ++ hostPages (p + 128) rest)

/-- The chunks of an image, in order (R187): chunk `i` at `base + 4096*i`. -/
def hostChunks : FlashAddr → List (List Byte) → List Instr
  | _, [] => []
  | c, chunk :: rest =>
    hostErase c ++ (hostPages c (piecesOf 128 chunk.length chunk) ++ hostChunks (c + 4096) rest)

/-- `flash(transport, imagePath, baseAddress)` (R187): the commands it sends, in order. -/
def hostFlash (base : FlashAddr) (image : List Byte) : List Instr :=
  hostChunks base (piecesOf 4096 image.length image)

/-- The comparison of R190: the response's digits against the upper-case text of the page. -/
def verifyMatches (digits page : List Byte) : Bool := decide (digits = hexBytes page)

/-- The lines of a response stream, each without its `\n`; a `\n` with nothing before it is an empty line. Where the
stream ends without a `\n` (a response cut off), the rest counts as a line: DESIGN CHOICE, the spec is silent (91 N13,
N22). Log entry 27. -/
def linesOf : List Byte → List (List Byte)
  | [] => []
  | c :: cs =>
    if c = chLF then [] :: linesOf cs
    else match linesOf cs with
      | [] => [[c]]
      | l :: ls => (c :: l) :: ls

/-- A line that starts with `.` or `e`: the response itself. An empty line and a DIAG line are none. -/
def isResponse : List Byte → Bool
  | [] => false
  | c :: _ => decide (c = chDot ∨ c = chE)

/-- The host reads lines until it has one that starts with `.` or `e` (R229); only the end of the stream stops it
without one. -/
def hostResponse (cs : List Byte) : Option (List Byte) := (linesOf cs).find? isResponse

end Sys2Proof.Machine
end

