-- ==== Sys2Proof/Machine/Run.lean ====
section
/-! DEFINITION. The end of a run (42_orchestrator R157, 70 R243, 92 D23): RX exhausted and ORCH at the rest point. -/

namespace Sys2Proof.Machine

/-- The rest point at which every command begun is complete (R157): ORCH in COUNT_BYTES with its decode request out,
DEC hunting, the bus idle and deselected, ENC free. -/
def State.atRestPoint (s : State) : Bool :=
  decide (s.orch.state = .countBytes) && s.dec.busy && !s.dec.inFrame && !s.spi.cs && s.spi.ready && !s.enc.busy

/-- The run has ended (R157, D23): RX is exhausted at the rest point. Stimuli and assertions of `rst` still to come are
part of the run too. Log entry 31. -/
def State.runEnded (s : State) : Bool :=
  s.atRestPoint && s.env.rx.isEmpty && s.stimuli.isEmpty && s.env.rst.isEmpty

/-- The run from `s`, in at most `n` steps: its end state, or the stop it meets. Where the steps do not reach the end
there is no result (93 U1), and a run that rests or loops elsewhere has none for any `n` (R243). -/
def runToEnd : Nat → State → Option (Host.Outcome State Fault Refusal)
  | 0, s => if s.runEnded = true then some (.next s) else none
  | n + 1, s =>
    if s.runEnded = true then some (.next s)
    else
      match step s with
      | .next t => runToEnd n t
      | .fault f => some (.fault f)
      | .refused r => some (.refused r)

end Sys2Proof.Machine
end

