-- ==== Sys2Proof/Machine/Ports.lean ====
section
/-! DEFINITION. The output ports of the bridge (10_state R30) as functions of its state. -/

namespace Sys2Proof.Machine

/-- `rx_ready`: DEC takes a byte, while a decode is outstanding and no error is recorded (R30, R17, D2). -/
def State.rxReady (s : State) : Bool := s.dec.busy && !s.dec.err

/-- `tx_valid`: ENC offers a character (R30, R25). -/
def State.txValid (s : State) : Bool := s.enc.busy

/-- `tx_data`: the character offered (R30, R105). -/
def State.txData (s : State) : Option Byte := s.enc.pending.head?

/-- `spi_cs` (R21, R30): 1 is asserted; the board inverts it. -/
def State.spiCs (s : State) : Bool := s.spi.cs

/-- `spi_sck` (R30). -/
def State.spiSck (s : State) : Bool := s.spi.sck

/-- `spi_mosi` (R12, R30). -/
def State.spiMosi (s : State) : Bool := s.spi.mosi

end Sys2Proof.Machine
end

