-- ==== Sys2Proof/Safety.lean ====
section
/-! DEFINITION. The vocabulary of the claims: the pin events of a transfer (41_spi_driver R123), the transfers of a request (43 R180), the rest point (42_orchestrator R157) and the
invariant of a machine that only the host stimulates. -/

namespace Sys2Proof.Machine

/-! ## Transfers -/

/-- The byte of eight samples, the first in bit 7 (R40, R126). -/
def byteOfBits (bs : List Bool) : Byte := BitVec.ofNat 8 (bs.foldl (fun n v => 2 * n + v.toNat) 0)

/-- The next `n` levels of the data-in line. -/
def Env.nextBits : Nat → Env → List Bool × Env
  | 0, e => ([], e)
  | n + 1, e =>
    let v := e.sample
    let r := Env.nextBits n v.2
    (v.1 :: r.1, r.2)

/-- The next byte on the data-in line, and the surroundings after it. -/
def Env.nextByte (e : Env) : Byte × Env :=
  let r := Env.nextBits 8 e
  (byteOfBits r.1, r.2)

/-- The clock edges of bits `n-1` down to 0 (R123): rise with a sample, fall with a shift. -/
def edgeEvents (byteOut byteIn : Byte) : Nat → List Event
  | 0 => []
  | i + 1 =>
    [.sck true, .miso (byteIn.getLsbD i), .sck false, .mosi (decide (0 < i) && byteOut.getLsbD (i - 1))]
      ++ edgeEvents byteOut byteIn i

/-- The pin events of one transfer (R122, R123). -/
def transferEvents (byteOut byteIn : Byte) (first last : Bool) : List Event :=
  (if first = true then [.cs true] else []) ++ [.mosi (byteOut.getLsbD 7)]
    ++ edgeEvents byteOut byteIn 8 ++ (if last = true then [.cs false] else [])

/-- A transfer as the triple `(byteOut, first, last)` of 43. -/
abbrev Triple := Byte × Bool × Bool

/-- Transfers one after the other: the pin events, the bytes received, the surroundings after them. -/
def transfers : List Triple → Env → List Event × List Byte × Env
  | [], e => ([], [], e)
  | (o, f, l) :: ts, e =>
    let v := e.nextByte
    let r := transfers ts v.2
    (transferEvents o v.1 f l ++ r.1, v.1 :: r.2.1, r.2.2)

/-- The payload transfers of R180 from position `i` on: `first` on the first, `last` on the last if nothing is to be
read back. -/
def payloadTriples (m : Byte) : Bool → List Byte → List Triple
  | _, [] => []
  | f, [b] => [(b, f, decide (m = 0))]
  | f, b :: c :: bs => (b, f, false) :: payloadTriples m false (c :: bs)

/-- The read transfers of R180: `n` of them, `last` on the final one. -/
def readTriples : Nat → List Triple
  | 0 => []
  | 1 => [(0, false, true)]
  | n + 2 => (0, false, false) :: readTriples (n + 1)

/-- The transfers of a request after POLL_READY (R180). -/
def requestTriples (m : Byte) (p : List Byte) : List Triple :=
  payloadTriples m true p ++ (if m = 0 then [] else (0, false, false) :: readTriples m.toNat)

/-- The data of the response: the bytes received in the last `m` transfers (R180). -/
def responseData (m : Byte) (p : List Byte) (e : Env) : List Byte :=
  (transfers (requestTriples m p) e).2.1.drop (p.length + 1)

/-- The characters of the response to a request that succeeds (R153, with `DIAG_C`): `c00\n`, then the empty
acknowledgment or the data frame. -/
def successText (m : Byte) (data : List Byte) : List Byte :=
  [chC, 0x30, 0x30, chLF] ++ (if m = 0 then [chDot, chLF] else chDot :: (hexBytes data ++ [chLF]))

/-- The characters of the ERROR frame, `eFF\n` (R67). -/
def errorText : List Byte := [chE, chF, chF, chLF]

/-- The block operation SpiXfer, once per triple. -/
def runTransfers : List Triple → State → Host.Outcome State Fault Refusal
  | [], s => .next s
  | (o, f, l) :: ts, s =>
    match exec (.spiXfer o f l) s with
    | .next t => runTransfers ts t
    | .fault r => .fault r
    | .refused r => .refused r

/-- `DecByte()`, `n` times, as long as it answers with a byte: the bytes and the state after them. -/
def decodeBytes : Nat → State → List Byte × State
  | 0, s => ([], s)
  | n + 1, s =>
    match decByteOp s with
    | (.byte b, t) => let r := decodeBytes n t; (b :: r.1, r.2)
    | (.error, t) => ([], t)
    | (.waiting, t) => ([], t)

/-- `s` after DEC has taken these bytes and is left like this. -/
def State.withDec (s : State) (d : Dec) (taken rest : List Byte) : State :=
  { s with dec := d, env := { s.env with rx := rest }, trace := s.trace ++ taken.map Event.rx }

/-- A decode request at `s` answers `a` and leaves `t`: one that goes on where it waited as well as one that begins;
beginning one is the operation DecByte, which R93 offers with `dec.busy = 0`. -/
def State.DecodeGives (s : State) (a : DecAnswer) (t : State) : Prop :=
  decByteOp s = (a, t) ∧ (s.dec.busy = false → exec .decByte s = .next t)

/-- `s` after a transfer: the driver's registers, the samples taken and the pin events (R121-R123). -/
def State.withTransfer (s : State) (byteOut : Byte) (first last : Bool) : State :=
  { s with
    spi := { cs := if last = true then false else if first = true then true else s.spi.cs, sck := false, shOut := 0,
             shIn := s.env.nextByte.1, bit := 8, last := last, ready := true },
    env := s.env.nextByte.2,
    trace := s.trace ++ transferEvents byteOut s.env.nextByte.1 first last }

/-- `s` after the transport has accepted these characters and ENC is done (R105). -/
def State.withSent (s : State) (cs : List Byte) : State :=
  { s with enc := { busy := false, pending := [] }, trace := s.trace ++ cs.map Event.tx }

/-- `s` after the transport has accepted `k` of these characters and then not the next: ENC goes on offering that one
(R105). Log entry 5. -/
def State.withStalled (s : State) (cs : List Byte) (k : Nat) (r : List Bool) : State :=
  { s with enc := { busy := true, pending := cs.drop k }, env := { s.env with txReady := r },
           trace := s.trace ++ (cs.take k).map Event.tx }

/-- `16 * hi + lo` (R66). -/
def valueOf (hi lo : Nibble) : Byte := 16 * hi.setWidth 8 + lo.setWidth 8

/-- The transitions of R154, a wait or a loop in the same state aside. -/
def transitions : List (OrchState × OrchState) :=
  [(.start, .pollReady), (.pollReady, .countBytes), (.countBytes, .returnBytes), (.countBytes, .err),
   (.returnBytes, .readData), (.returnBytes, .err), (.readData, .err), (.readData, .checksum), (.checksum, .run),
   (.checksum, .err), (.run, .start), (.run, .spiWrite), (.spiWrite, .start), (.spiWrite, .spiStall),
   (.spiStall, .spiRead), (.spiRead, .start), (.err, .start)]

/-- The states that may also follow themselves: a loop (R154) or a wait (R157). START and SPI_STALL always go on. -/
def mayStay : List OrchState :=
  [.pollReady, .countBytes, .returnBytes, .readData, .checksum, .run, .spiWrite, .spiRead, .err]

/-- `n` steps of the machine. -/
def runSteps : Nat → State → Host.Outcome State Fault Refusal
  | 0, s => .next s
  | n + 1, s =>
    match step s with
    | .next t => runSteps n t
    | .fault r => .fault r
    | .refused r => .refused r

/-- The writes of the chip-select output among these events. -/
def csWrites : List Event → List Bool
  | [] => []
  | .cs v :: es => v :: csWrites es
  | .rx _ :: es | .tx _ :: es | .sck _ :: es | .mosi _ :: es | .miso _ :: es => csWrites es

/-- The writes of the clock output among these events. -/
def sckWrites : List Event → List Bool
  | [] => []
  | .sck v :: es => v :: sckWrites es
  | .rx _ :: es | .tx _ :: es | .cs _ :: es | .mosi _ :: es | .miso _ :: es => sckWrites es

/-! ## Rest points and premises -/

/-- ORCH can take a request: the premises R243 names for a start at COUNT_BYTES, whether or not the decode request is
already out (`State.atRestPoint` asks that it is, R157), and the cursor at 0, where START has put it (R142, R145; log
entry 30). -/
def State.Resting (s : State) : Prop :=
  s.orch.state = .countBytes ∧ s.orch.idx = 0 ∧ s.dec.err = false ∧ s.dec.inFrame = false ∧
  s.spi.ready = true ∧ s.spi.sck = false ∧ s.spi.cs = false ∧ s.enc.busy = false

/-- The transport accepts every character (93 V6). -/
def State.TxAccepts (s : State) : Prop := s.env.txReady = []

/-- Every register at the value of R220, the buffer forgotten. `dec.hi`, unspecified there, is not named. -/
def State.AtReset (s : State) : Prop :=
  s.orch = { state := .start, byteCount := 0, returnBytes := 0, idx := 0 } ∧
  s.dec.inFrame = false ∧ s.dec.err = false ∧ s.dec.busy = false ∧ s.dec.haveHi = false ∧ s.dec.sum = 0 ∧
  s.enc.busy = false ∧ s.enc.pending = [] ∧ s.buf = [] ∧
  s.spi = { cs := false, sck := false, shOut := 0, shIn := 0, bit := 0, last := false, ready := true }

/-- The driver is between two transfers (R124, R123: the clock idles at 0). -/
def State.BusFree (s : State) : Prop := s.spi.ready = true ∧ s.spi.sck = false

/-! ## The invariant -/

/-- The stimuli a host can produce: text on RX, or a payload a frame can hold. -/
def fromHost : Encoded → Bool
  | .rx _ => true
  | .payload _ p => decide (p.length ≤ Config.maxPayload)
  | .tx _ | .lines _ | .orch _ => false

/-- Every cell below `n` has been written since reset. -/
def Memory.WrittenBelow (m : Memory) (n : Nat) : Prop := ∀ a, a < n → (m.get a).isSome = true

/-- The driver between two steps: no transfer in progress, clock and data-out at 0 (R12, R124). -/
def spiLaw (p : Spi) : Prop := p.ready = true ∧ p.sck = false ∧ p.shOut = 0 ∧ (p.bit = 0 ∨ p.bit = 8)

/-- Chip-select by state (R27, R156): asserted in the status burst and in the command burst, nowhere else. -/
def csLaw (s : State) : Prop :=
  match s.orch.state with
  | .start | .countBytes | .returnBytes | .readData | .checksum | .run | .err => s.spi.cs = false
  | .pollReady => s.spi.cs = true
  | .spiWrite =>
    s.spi.cs = (decide (s.orch.idx ≠ 0) &&
      (decide (s.orch.idx ≠ s.orch.byteCount) || decide (s.orch.returnBytes ≠ 0)))
  | .spiStall => s.spi.cs = decide (s.orch.byteCount ≠ 0)
  | .spiRead =>
    s.spi.cs = (decide (s.orch.byteCount ≠ 0) && decide (s.orch.idx ≠ s.orch.returnBytes) &&
      !(s.enc.busy && decide (s.orch.idx = s.orch.returnBytes - 1)))

/-- Cursor and buffer by state (R16, R221, 93 V1): the cursor stays within its bound, and every cell SPI_WRITE will
read has been written since reset. -/
def cursorLaw (s : State) : Prop :=
  match s.orch.state with
  | .start | .err => True
  | .pollReady | .countBytes | .returnBytes => s.orch.idx = 0
  | .readData => s.orch.idx ≤ s.orch.byteCount ∧ s.buf.WrittenBelow s.orch.idx.toNat
  | .checksum | .run => s.buf.WrittenBelow s.orch.byteCount.toNat
  | .spiWrite => s.orch.idx ≤ s.orch.byteCount ∧ s.buf.WrittenBelow s.orch.byteCount.toNat
  | .spiStall => s.orch.returnBytes ≠ 0
  | .spiRead => s.orch.returnBytes ≠ 0 ∧ s.orch.idx ≤ s.orch.returnBytes

/-- In which states ORCH may be waiting for DEC, and in which an error may be recorded (R157, R152). -/
def decLaw (s : State) : Prop :=
  (s.dec.haveHi = true → s.dec.busy = true ∧ s.dec.inFrame = true) ∧
  match s.orch.state with
  | .start | .err => s.dec.busy = false
  | .pollReady => s.dec.busy = false ∧ s.dec.err = false ∧ s.dec.inFrame = false
  | .countBytes => s.dec.err = false ∧ (s.dec.busy = false → s.dec.inFrame = false)
  | .returnBytes | .checksum => s.dec.err = false ∧ s.dec.inFrame = true
  | .readData =>
    s.dec.err = false ∧ s.dec.inFrame = true ∧ (s.dec.busy = true → s.orch.idx ≠ s.orch.byteCount)
  | .run | .spiWrite | .spiStall | .spiRead => s.dec.busy = false ∧ s.dec.err = false ∧ s.dec.inFrame = true

/-- In which states ORCH may be waiting for ENC (R157). -/
def encLaw (s : State) : Prop :=
  (s.enc.busy = !s.enc.pending.isEmpty) ∧
  match s.orch.state with
  | .start | .pollReady | .countBytes | .returnBytes | .readData | .checksum | .spiStall => s.enc.busy = false
  | .run | .err => True
  | .spiWrite => s.enc.busy = true → s.orch.idx = s.orch.byteCount ∧ s.orch.returnBytes = 0
  | .spiRead => s.enc.busy = true → s.orch.idx ≠ s.orch.returnBytes

/-- The invariant of a machine that only the host stimulates. -/
def State.Inv (s : State) : Prop :=
  s.buf.wf = true ∧ spiLaw s.spi ∧ csLaw s ∧ cursorLaw s ∧ decLaw s ∧ encLaw s ∧ s.stimuli.all fromHost = true

end Sys2Proof.Machine
end

