-- ==== Sys2Proof/Certificates/Slice0/Obligations.lean ====
section
/-! DEFINITION. The statements for the provers. Each docstring names the rule of spec/ it formalises. Where a statement
rests on a choice of the model, the docstring says so and names the log entry. -/

open Sys2Proof Sys2Proof.Machine

/-! ## Reset, fetching, decoding -/

/-- R220: the reset values the spec gives. `buf` and `dec.hi` are unspecified there and are not stated. -/
def Obligations.ResetHasTheSpecValues : Prop :=
  State.reset.orch = { state := .start, byteCount := 0, returnBytes := 0, idx := 0 } ∧
  State.reset.dec.inFrame = false ∧ State.reset.dec.err = false ∧ State.reset.dec.busy = false ∧
  State.reset.dec.haveHi = false ∧ State.reset.dec.sum = 0 ∧ State.reset.enc.busy = false ∧
  State.reset.spi = { cs := false, sck := false, shOut := 0, shIn := 0, bit := 0, last := false, ready := true }

/-- R220, R223: reset at the beginning of a step, or after `n` of its events, gives every field its reset value and
drives the pins to 0 at once; the events after it do not happen (a step with no more than `n` events has them all),
and the bytes DEC has not taken by then stay on RX (how the model places reset among events, and the order in which it
records the three pins, are log entry 11). -/
def Obligations.RstForcesResetValues : Prop :=
  (∀ (s : State) (r : List (Option Nat)), s.env.rst = some 0 :: r → ∃ t, step s = .next t ∧ t.AtReset ∧
    t.trace = s.trace ++ [.cs false, .sck false, .mosi false] ∧ t.env = { s.env with rst := r } ∧
    t.stimuli = s.stimuli) ∧
  (∀ (s u : State) (n : Nat) (r : List (Option Nat)), s.env.rst = some (n + 1) :: r →
    step { s with env := { s.env with rst := none :: r } } = .next u →
    ∃ t kept lost, step s = .next t ∧ t.AtReset ∧ u.trace = s.trace ++ (kept ++ lost) ∧
      kept.length = min (n + 1) (kept ++ lost).length ∧ t.trace = s.trace ++ (kept ++ [.cs false, .sck false, .mosi false]) ∧
      t.env.rx = rxOf lost ++ u.env.rx ∧ t.env.rst = r)

/-- R8, R47: a step only adds events behind those that have happened; nothing is undone (the record is log entry 6). -/
def Obligations.EventsAreNeverUndone : Prop :=
  ∀ s t : State, step s = .next t → ∃ evs, t.trace = s.trace ++ evs

/-- A step runs the decoded instruction: exec of what the fetched words decode to, after the fetch has taken the
stimulus and the sample of `rst`; without a stimulus it is the rule of `orch.state` (R15, R140; log entries 7, 21). -/
def Obligations.StepRunsDecodedInstruction : Prop :=
  ∀ (s : State) (i : Instr), rstAsserted s = false →
    (decode (fetch s) = .ok i → step s = exec i (afterFetch s)) ∧
    (s.stimuli = [] → step s = exec (decodeState s.orch.state) (sampleRst s))

/-- R72, R242: whatever text the host offers, the step offers exactly these characters to DEC and lets ORCH go on;
no text is refused (the shape of that step is the model's, log entries 7 and 17). -/
def Obligations.AnyTextIsOfferedAsItStands : Prop :=
  ∀ (s : State) (cs : List Byte) (ws : List Encoded), rstAsserted s = false → s.stimuli = .rx cs :: ws →
    step s = handleText cs (afterFetch s)

/-- Decode and encode agree, for every well-formed instruction (R60, R67, R70, R71, R15). -/
def Obligations.DecodeOfEncodeIsIdentity : Prop :=
  ∀ i : Instr, i.wf = true → decode (encode i) = .ok i

/-- A text that decodes as a request is the text its fields encode to: no character of it is dropped (R60, R61). -/
def Obligations.RequestTextHasOneReading : Prop :=
  ∀ (cs : List Byte) (i : Instr), decode (.rx cs) = .ok i →
    encode i = .rx cs ∧ ∃ m p ck, i = .req m p ck ∧ p.length ≤ 255

/-- Words written out from the spec's encodings: X6, X10, R67, R70, R43, R71. -/
def Obligations.SpecWordsDecode : Prop :=
  decode (.rx [0x2E, 0x30, 0x31, 0x30, 0x30, 0x30, 0x36, 0x46, 0x39, 0x0D, 0x0A]) = .ok (.req 0 [0x06] 0xF9) ∧
  decode (.tx [0x2E, 0x0A]) = .ok .ack ∧ decode (.tx [0x63, 0x30, 0x30, 0x0A]) = .ok .diag ∧
  decode (.tx [0x2E, 0x32, 0x32, 0x33, 0x33, 0x0A]) = .ok (.data [0x22, 0x33]) ∧
  decode (.tx [0x65, 0x46, 0x46, 0x0A]) = .ok .error ∧
  decode (.payload 0 [0x20, 0x00, 0x10, 0x00]) = .ok (.sectorErase 0x001000) ∧
  decode (.payload 128 [0x03, 0x00, 0x10, 0x00]) = .ok (.read 0x001000 128) ∧
  decode (.lines { idleLines with spiStart := true, spiOut := 0x05, spiFirst := true }) = .ok (.spiXfer 0x05 true false) ∧
  decode (.orch .spiStall) = .ok .spiStall

/-! ## DEC -/

/-- R92, R93, R94: from the hunt, junk is dropped, the marker clears the sum, two digits of either case give
`16 * hi + lo`; nothing else changes. The byte itself is the request's answer. So for a request that begins (DecByte)
and for one already outstanding in the hunt (R157). -/
def Obligations.DecByteHuntsAndDelivers : Prop :=
  ∀ (s : State) (junk rest : List Byte) (c1 c2 : Byte) (v1 v2 : Nibble),
    s.dec.err = false → s.dec.inFrame = false → chDot ∉ junk →
    hexval c1 = some v1 → hexval c2 = some v2 → s.env.rx = junk ++ chDot :: c1 :: c2 :: rest →
    s.DecodeGives (.byte (valueOf v1 v2)) (s.withDec
      { inFrame := true, err := false, sum := valueOf v1 v2, busy := false, hi := v1, haveHi := false }
      (junk ++ [chDot, c1, c2]) rest)

/-- R93, R94, R26: inside a frame the next two digits give a byte and are added to the sum; a request that waits
with its first digit latched needs only the second, and one that waits without needs both. -/
def Obligations.DecByteInsideFrame : Prop :=
  (∀ (s : State) (c1 c2 : Byte) (v1 v2 : Nibble) (rest : List Byte),
    s.dec.busy = false → s.dec.err = false → s.dec.inFrame = true →
    hexval c1 = some v1 → hexval c2 = some v2 → s.env.rx = c1 :: c2 :: rest →
    exec .decByte s = .next (s.withDec
      { inFrame := true, err := false, sum := s.dec.sum + valueOf v1 v2, busy := false, hi := v1, haveHi := false }
      [c1, c2] rest) ∧ (decByteOp s).1 = .byte (valueOf v1 v2)) ∧
  (∀ (s : State) (c : Byte) (v : Nibble) (rest : List Byte),
    s.dec.busy = true → s.dec.err = false → s.dec.inFrame = true → s.dec.haveHi = true →
    hexval c = some v → s.env.rx = c :: rest →
    decByteOp s = (.byte (valueOf s.dec.hi v), s.withDec
      { s.dec with sum := s.dec.sum + valueOf s.dec.hi v, busy := false, haveHi := false } [c] rest)) ∧
  (∀ (s : State) (c1 c2 : Byte) (v1 v2 : Nibble) (rest : List Byte),
    s.dec.busy = true → s.dec.err = false → s.dec.inFrame = true → s.dec.haveHi = false →
    hexval c1 = some v1 → hexval c2 = some v2 → s.env.rx = c1 :: c2 :: rest →
    decByteOp s = (.byte (valueOf v1 v2), s.withDec
      { s.dec with sum := s.dec.sum + valueOf v1 v2, busy := false, hi := v1 } [c1, c2] rest))

/-- R95, R93, R92: a character that is no digit (a `.` too) in either digit position is consumed, sets `dec.err`,
drops a latched digit and leaves `in_frame` and `sum`. The request may begin or may have waited (R26): in the hunt
behind junk and the marker (vectors T40, T75), inside the frame before a first digit, or with the first digit
latched. -/
def Obligations.BadCharacterFailsDecode : Prop :=
  (∀ (s : State) (c : Byte) (rest : List Byte),
    s.dec.err = false → s.dec.inFrame = true → hexval c = none → s.env.rx = c :: rest →
    s.DecodeGives .error (s.withDec { s.dec with err := true, haveHi := false, busy := false } [c] rest)) ∧
  (∀ (s : State) (c1 c2 : Byte) (v : Nibble) (rest : List Byte),
    s.dec.err = false → s.dec.inFrame = true → (s.dec.busy = true → s.dec.haveHi = false) →
    hexval c1 = some v → hexval c2 = none → s.env.rx = c1 :: c2 :: rest →
    s.DecodeGives .error
      (s.withDec { s.dec with err := true, hi := v, haveHi := false, busy := false } [c1, c2] rest)) ∧
  (∀ (s : State) (junk rest : List Byte) (c : Byte),
    s.dec.err = false → s.dec.inFrame = false → chDot ∉ junk → hexval c = none →
    s.env.rx = junk ++ chDot :: c :: rest →
    s.DecodeGives .error (s.withDec
      { inFrame := true, err := true, sum := 0, busy := false, hi := s.dec.hi, haveHi := false }
      (junk ++ [chDot, c]) rest)) ∧
  (∀ (s : State) (junk rest : List Byte) (c1 c2 : Byte) (v : Nibble),
    s.dec.err = false → s.dec.inFrame = false → chDot ∉ junk → hexval c1 = some v → hexval c2 = none →
    s.env.rx = junk ++ chDot :: c1 :: c2 :: rest →
    s.DecodeGives .error (s.withDec
      { inFrame := true, err := true, sum := 0, busy := false, hi := v, haveHi := false }
      (junk ++ [chDot, c1, c2]) rest)) ∧
  hexval chDot = none

/-- R93 (b), R95, R26, R157: with nothing but junk offered the request consumes it and waits with `dec.busy = 1`; after
a marker, or a digit, and then nothing it waits inside the frame, the digit latched; with `dec.err = 1` it takes nothing
and waits. So for a request that begins (DecByte; it starts without a latched digit, log entry 15) and for one already
outstanding in the hunt or inside the frame. -/
def Obligations.DecByteWaits : Prop :=
  (∀ s : State, s.dec.err = false → s.dec.inFrame = false → chDot ∉ s.env.rx →
    s.DecodeGives .waiting (s.withDec
      (if s.dec.busy = true then s.dec else { s.dec with busy := true, haveHi := false }) s.env.rx [])) ∧
  (∀ s : State, s.dec.err = true → ∃ t, s.DecodeGives .waiting t ∧ t.env = s.env ∧ t.trace = s.trace ∧
    t.dec.busy = true ∧ t.dec.err = true) ∧
  (∀ (s : State) (junk : List Byte), s.dec.err = false → s.dec.inFrame = false → chDot ∉ junk →
    s.env.rx = junk ++ [chDot] →
    s.DecodeGives .waiting (s.withDec
      { s.dec with inFrame := true, sum := 0, busy := true, haveHi := false } (junk ++ [chDot]) [])) ∧
  (∀ (s : State) (junk : List Byte) (c : Byte) (v : Nibble), s.dec.err = false → s.dec.inFrame = false →
    chDot ∉ junk → hexval c = some v → s.env.rx = junk ++ [chDot, c] →
    s.DecodeGives .waiting (s.withDec
      { s.dec with inFrame := true, sum := 0, busy := true, hi := v, haveHi := true } (junk ++ [chDot, c]) [])) ∧
  (∀ (s : State) (c : Byte) (v : Nibble), s.dec.err = false → s.dec.inFrame = true →
    (s.dec.busy = true → s.dec.haveHi = false) → hexval c = some v → s.env.rx = [c] →
    s.DecodeGives .waiting (s.withDec { s.dec with busy := true, hi := v, haveHi := true } [c] []))

/-- R98: DEC hunts again; `sum` stays, nothing is taken from RX, nothing else changes. That `dec.hi`, unspecified behind
a `DecReset()` (93 V2), keeps its old value is the model's choice (log entry 8). -/
def Obligations.DecResetReturnsToHunt : Prop :=
  ∀ s : State, exec .decReset s =
    .next { s with dec := { inFrame := false, err := false, sum := s.dec.sum, busy := false, hi := s.dec.hi,
                            haveHi := false } }

/-- R100: after a bad character the very next `.` starts a frame, once the codec has been reset. -/
def Obligations.FreshMarkerAcceptedAfterError : Prop :=
  ∀ (s : State) (c1 c2 : Byte) (v1 v2 : Nibble) (rest : List Byte), s.dec.err = true →
    hexval c1 = some v1 → hexval c2 = some v2 → s.env.rx = chDot :: c1 :: c2 :: rest →
    ∃ t u, exec .decReset s = .next t ∧ exec .decByte t = .next u ∧ (decByteOp t).1 = .byte (valueOf v1 v2) ∧
      u.dec.err = false ∧ u.dec.inFrame = true ∧ u.dec.sum = valueOf v1 v2 ∧ u.env.rx = rest

/-- R107, R97: decoding a request frame gives `n`, `out_bytes`, the payload and the checksum, which add up to 0, and
leaves the sum 0; the terminator stays on RX (R99). The two characters ENC emits for a byte decode to that byte. -/
def Obligations.RequestFrameDecodesToItsFields : Prop :=
  (∀ (b : Byte), hexval (hexchar (b.extractLsb' 4 4)) = some (b.extractLsb' 4 4) ∧
    hexval (hexchar (b.extractLsb' 0 4)) = some (b.extractLsb' 0 4) ∧
    valueOf (b.extractLsb' 4 4) (b.extractLsb' 0 4) = b) ∧
  (∀ (m : Byte) (p : List Byte), BitVec.ofNat 8 p.length + m + p.sum + checksumOf m p = 0) ∧
  ∀ (s : State) (m : Byte) (p junk rest : List Byte), p.length ≤ 255 →
    s.dec.busy = false → s.dec.err = false → s.dec.inFrame = false → chDot ∉ junk →
    s.env.rx = junk ++ (reqFrame m p ++ rest) →
    (decodeBytes (3 + p.length) s).1 = BitVec.ofNat 8 p.length :: m :: (p ++ [checksumOf m p]) ∧
    (decodeBytes (3 + p.length) s).2.dec.sum = 0 ∧
    (decodeBytes (3 + p.length) s).2.env.rx = chCR :: chLF :: rest

/-- 93 V10 (log entry 16): an operation asked of a busy block is not offered. -/
def Obligations.BusyBlockRefuses : Prop :=
  ∀ (s : State) (b m : Byte) (f l e : Bool) (ds : List Byte),
    (s.spi.ready = false → exec (.spiXfer b f l) s = .refused .spiBusy) ∧
    (s.dec.busy = true → exec .decByte s = .refused .decBusy) ∧
    (s.enc.busy = true → exec (.encByte b m f l e) s = .refused .encBusy ∧ exec .ack s = .refused .encBusy ∧
      exec .diag s = .refused .encBusy ∧ exec (.data ds) s = .refused .encBusy ∧ exec .error s = .refused .encBusy)

/-! ## ENC and the response frames -/

/-- R104, R105: marker on `first`, two upper-case digits unless `emptyFrame`, `\n` on `last`, each accepted in
order; then ENC is free and nothing else has changed. -/
def Obligations.EncByteSendsItsCharacters : Prop :=
  ∀ (s : State) (b m : Byte) (f l e : Bool), s.enc.busy = false → s.env.txReady = [] →
    exec (.encByte b m f l e) s = .next (s.withSent
      ((if f = true then [m] else []) ++
       (if e = true then [] else [hexchar (b.extractLsb' 4 4), hexchar (b.extractLsb' 0 4)]) ++
       (if l = true then [chLF] else [])))

/-- R105, R25: however the transport behaves, the characters accepted and the characters still to be sent are
together those of the call, and `enc.busy` is 1 exactly as long as one is left. -/
def Obligations.EncByteLosesNothing : Prop :=
  ∀ (s : State) (b m : Byte) (f l e : Bool), s.enc.busy = false →
    ∃ t, exec (.encByte b m f l e) s = .next t ∧
      (∃ sent, t.trace = s.trace ++ sent.map Event.tx ∧ sent ++ t.enc.pending = encChars b m f l e) ∧
      (t.enc.busy = true ↔ t.enc.pending ≠ []) ∧ t.orch = s.orch ∧ t.dec = s.dec ∧ t.spi = s.spi ∧ t.buf = s.buf ∧
      t.env.rx = s.env.rx ∧ t.env.miso = s.env.miso ∧ t.env.samples = s.env.samples

/-- R105: the transport accepts `k` characters and then not the next; ENC goes on offering that one. -/
def Obligations.EncByteWaitsForTheTransport : Prop :=
  ∀ (s : State) (b m : Byte) (f l e : Bool) (k : Nat) (r : List Bool), s.enc.busy = false →
    k < (encChars b m f l e).length → s.env.txReady = List.replicate k true ++ false :: r →
    exec (.encByte b m f l e) s = .next
      { s with enc := { busy := true, pending := (encChars b m f l e).drop k }, env := { s.env with txReady := r },
               trace := s.trace ++ ((encChars b m f l e).take k).map Event.tx }

/-- R67, R153: the exact characters of ACK, DIAG, ERROR and DATA. -/
def Obligations.ResponseFramesHaveTheirCharacters : Prop :=
  ∀ (s : State) (d : Byte) (ds : List Byte), s.enc.busy = false → s.env.txReady = [] →
    exec .ack s = .next (s.withSent [chDot, chLF]) ∧
    exec .diag s = .next (s.withSent (chC :: (hex2 s.dec.sum ++ [chLF]))) ∧
    exec .error s = .next (s.withSent [chE, chF, chF, chLF]) ∧
    exec (.data (d :: ds)) s = .next (s.withSent (chDot :: (hexBytes (d :: ds) ++ [chLF])))

/-! ## SPI -/

/-- R121, R122, R123, R126: one transfer on a free bus: `byteIn` is the eight samples, the pins show the events of
R123, `cs` rises on `first` and falls on `last`, nothing else changes. That `transferEvents` records `cs` before `mosi`
at acceptance, here and in every statement that uses it, is the model's choice (log entry 24). -/
def Obligations.SpiXferExchangesOneByte : Prop :=
  ∀ (s : State) (b : Byte) (f l : Bool), s.BusFree → exec (.spiXfer b f l) s = .next (s.withTransfer b f l)

/-- R127, R123, R122: every transfer writes `sck` sixteen times, rise and fall in turn, and writes `cs` only on
`first` and on `last`. -/
def Obligations.TransferTogglesSixteenTimes : Prop :=
  ∀ (s : State) (b : Byte) (f l : Bool), s.BusFree → ∃ t evs, exec (.spiXfer b f l) s = .next t ∧
    t.trace = s.trace ++ evs ∧ sckWrites evs = (List.replicate 8 [true, false]).flatten ∧
    csWrites evs = (if f = true then [true] else []) ++ (if l = true then [false] else [])

/-- From R125: a chain with `first` only on its first transfer and `last` only on its last raises `cs` before the first
edge and lowers it after the last, and writes it nowhere between; the clock is toggled `16 * N` times. That the rise of
`cs` is the very first event, with no `mosi` event before it, is the model's choice (log entry 24). -/
def Obligations.BurstKeepsChipSelect : Prop :=
  ∀ (s : State) (b : Byte) (bs : List Byte), s.BusFree → s.spi.cs = false →
    ∃ t mid, runTransfers (payloadTriples 0 true (b :: bs)) s = .next t ∧
      t.trace = s.trace ++ (.cs true :: (mid ++ [.cs false])) ∧ csWrites mid = [] ∧
      (sckWrites mid).length = 16 * (bs.length + 1) ∧ t.spi.cs = false

/-! ## ORCH: the eleven states -/

/-- R142: DEC hunts, the cursor is 0, the release transfer and then the status command, whatever `cs` was. That
`dec.hi`, unspecified behind a `DecReset()` (93 V2), keeps its old value is the model's choice (log entry 8). -/
def Obligations.StartReleasesAndOpensStatusBurst : Prop :=
  ∀ s : State, s.BusFree → exec .start s = .next
    ((({ s with dec := { s.dec with inFrame := false, err := false, haveHi := false, busy := false },
                orch := { s.orch with idx := 0, state := .pollReady } }).withTransfer 0x00 false true).withTransfer
        0x05 true false)

/-- R143: one status byte; bit 0 set stays, bit 0 clear releases with one more transfer and goes on; RX and TX are
not touched. -/
def Obligations.PollReadyTestsBitZero : Prop :=
  ∀ s : State, s.BusFree →
    (s.env.nextByte.1.getLsbD 0 = true → exec .pollReady s = .next
      { s.withTransfer 0x00 false false with orch := { s.orch with state := .pollReady } }) ∧
    (s.env.nextByte.1.getLsbD 0 = false → exec .pollReady s = .next
      { (s.withTransfer 0x00 false false).withTransfer 0x00 false true with
        orch := { s.orch with state := .countBytes } })

/-- R204: a flash whose next `k` status bytes have bit 0 (their eighth sample) set keeps ORCH in POLL_READY for `k`
steps, chip-select as it was, no request byte consumed and nothing sent. -/
def Obligations.BusyFlashStallsPolling : Prop :=
  ∀ (k : Nat) (s : State), s.BusFree → s.orch.state = .pollReady → s.stimuli = [] →
    s.env.rst = [] → (∀ j, j < k → s.env.miso[8 * j + 7]? = some true) →
    ∃ t, runSteps k s = .next t ∧ t.orch = s.orch ∧ t.spi.cs = s.spi.cs ∧ t.env.rx = s.env.rx ∧
      txOf t.trace = txOf s.trace ∧ rxOf t.trace = rxOf s.trace ∧ t.env.miso = s.env.miso.drop (8 * k)

/-- R144: junk is dropped, the marker starts the frame, the first byte is `byte_count`; a decode error goes to ERR;
with nothing but junk on RX the rule waits with `dec.busy = 1` and touches neither the bus nor ORCH, and in every
state of the invariant the wait is with chip-select deasserted. A rule that waited inside the frame goes on with the
digits that were missing (R26). -/
def Obligations.CountBytesLoadsByteCount : Prop :=
  (∀ s t : State, decByteOp s = (.error, t) →
    exec .countBytes s = .next { t with orch := { s.orch with state := .err } }) ∧
  (∀ s t : State, decByteOp s = (.waiting, t) → exec .countBytes s = .next t ∧ t.dec.busy = true ∧
    t.orch = s.orch ∧ t.spi = s.spi ∧ pinsOf t.trace = pinsOf s.trace) ∧
  (∀ s : State, s.Inv → s.orch.state = .countBytes → s.spi.cs = false) ∧
  (∀ (s : State) (c1 c2 : Byte) (v1 v2 : Nibble) (rest : List Byte),
    s.dec.err = false → s.dec.inFrame = true → (s.dec.busy = true → s.dec.haveHi = false) →
    hexval c1 = some v1 → hexval c2 = some v2 → s.env.rx = c1 :: c2 :: rest →
    exec .countBytes s = .next
      { s.withDec { inFrame := true, err := false, sum := s.dec.sum + valueOf v1 v2, busy := false, hi := v1,
                    haveHi := false } [c1, c2] rest with
        orch := { s.orch with byteCount := valueOf v1 v2, state := .returnBytes } }) ∧
  (∀ (s : State) (c : Byte) (v : Nibble) (rest : List Byte),
    s.dec.err = false → s.dec.inFrame = true → s.dec.busy = true → s.dec.haveHi = true → hexval c = some v →
    s.env.rx = c :: rest →
    exec .countBytes s = .next
      { s.withDec { s.dec with sum := s.dec.sum + valueOf s.dec.hi v, busy := false, haveHi := false } [c] rest with
        orch := { s.orch with byteCount := valueOf s.dec.hi v, state := .returnBytes } }) ∧
  ∀ (s : State) (junk rest : List Byte) (c1 c2 : Byte) (v1 v2 : Nibble),
    s.dec.err = false → s.dec.inFrame = false → chDot ∉ junk →
    hexval c1 = some v1 → hexval c2 = some v2 → s.env.rx = junk ++ chDot :: c1 :: c2 :: rest →
    exec .countBytes s = .next
      { s.withDec { inFrame := true, err := false, sum := valueOf v1 v2, busy := false, hi := v1, haveHi := false }
          (junk ++ [chDot, c1, c2]) rest with
        orch := { s.orch with byteCount := valueOf v1 v2, state := .returnBytes } }

/-- R145: the next byte is `return_bytes`; a decode error goes to ERR; the cursor is 0 here in every state of the
invariant, and the rule leaves it. With a digit latched only the second is missing (R26). -/
def Obligations.ReturnBytesLoadsReturnBytes : Prop :=
  (∀ s t : State, decByteOp s = (.error, t) →
    exec .returnBytes s = .next { t with orch := { s.orch with state := .err } }) ∧
  (∀ s : State, s.Inv → s.orch.state = .returnBytes → s.orch.idx = 0) ∧
  (∀ (s : State) (c : Byte) (v : Nibble) (rest : List Byte),
    s.dec.err = false → s.dec.inFrame = true → s.dec.busy = true → s.dec.haveHi = true → hexval c = some v →
    s.env.rx = c :: rest →
    exec .returnBytes s = .next
      { s.withDec { s.dec with sum := s.dec.sum + valueOf s.dec.hi v, busy := false, haveHi := false } [c] rest with
        orch := { s.orch with returnBytes := valueOf s.dec.hi v, state := .readData } }) ∧
  ∀ (s : State) (c1 c2 : Byte) (v1 v2 : Nibble) (rest : List Byte),
    s.dec.err = false → s.dec.inFrame = true → (s.dec.busy = true → s.dec.haveHi = false) →
    hexval c1 = some v1 → hexval c2 = some v2 → s.env.rx = c1 :: c2 :: rest →
    exec .returnBytes s = .next
      { s.withDec { inFrame := true, err := false, sum := s.dec.sum + valueOf v1 v2, busy := false, hi := v1,
                    haveHi := false } [c1, c2] rest with
        orch := { s.orch with returnBytes := valueOf v1 v2, state := .readData } }

/-- R146: with `idx = byte_count` nothing is decoded; else the next byte goes to `buf[idx]`, every other cell stays,
and the cursor moves on; a decode error goes to ERR and leaves the buffer. With a digit latched only the second is
missing (R26). -/
def Obligations.ReadDataStoresPayload : Prop :=
  (∀ s t : State, s.orch.idx ≠ s.orch.byteCount → decByteOp s = (.error, t) → t.buf = s.buf ∧
    exec .readData s = .next { t with orch := { s.orch with state := .err } }) ∧
  (∀ (s : State) (c : Byte) (v : Nibble) (rest : List Byte),
    s.orch.idx ≠ s.orch.byteCount → s.orch.idx ≠ 255 →
    s.dec.err = false → s.dec.inFrame = true → s.dec.busy = true → s.dec.haveHi = true → hexval c = some v →
    s.env.rx = c :: rest →
    ∃ m : Memory, exec .readData s = .next
      { s.withDec { s.dec with sum := s.dec.sum + valueOf s.dec.hi v, busy := false, haveHi := false } [c] rest with
        buf := m, orch := { s.orch with idx := s.orch.idx + 1, state := .readData } } ∧
      m.get s.orch.idx.toNat = some (valueOf s.dec.hi v) ∧ ∀ a, a ≠ s.orch.idx.toNat → m.get a = s.buf.get a) ∧
  (∀ s : State, s.orch.idx = s.orch.byteCount →
    exec .readData s = .next { s with orch := { s.orch with state := .checksum } }) ∧
  (∀ (s : State) (c1 c2 : Byte) (v1 v2 : Nibble) (rest : List Byte),
    s.orch.idx ≠ s.orch.byteCount → s.orch.idx ≠ 255 →
    s.dec.err = false → s.dec.inFrame = true → (s.dec.busy = true → s.dec.haveHi = false) →
    hexval c1 = some v1 → hexval c2 = some v2 → s.env.rx = c1 :: c2 :: rest →
    ∃ m : Memory, exec .readData s = .next
      { s.withDec { inFrame := true, err := false, sum := s.dec.sum + valueOf v1 v2, busy := false, hi := v1,
                    haveHi := false } [c1, c2] rest with
        buf := m, orch := { s.orch with idx := s.orch.idx + 1, state := .readData } } ∧
      m.get s.orch.idx.toNat = some (valueOf v1 v2) ∧ ∀ a, a ≠ s.orch.idx.toNat → m.get a = s.buf.get a)

/-- R147: the checksum byte is decoded and not stored, its effect is on `dec.sum`, and what follows it stays on RX; a
decode error goes to ERR. With a digit latched only the second is missing (R26). -/
def Obligations.ChecksumCompletesTheSum : Prop :=
  (∀ s t : State, decByteOp s = (.error, t) →
    exec .checksum s = .next { t with orch := { s.orch with state := .err } }) ∧
  (∀ (s : State) (c : Byte) (v : Nibble) (rest : List Byte),
    s.dec.err = false → s.dec.inFrame = true → s.dec.busy = true → s.dec.haveHi = true → hexval c = some v →
    s.env.rx = c :: rest →
    exec .checksum s = .next
      { s.withDec { s.dec with sum := s.dec.sum + valueOf s.dec.hi v, busy := false, haveHi := false } [c] rest with
        orch := { s.orch with state := .run } }) ∧
  ∀ (s : State) (c1 c2 : Byte) (v1 v2 : Nibble) (rest : List Byte),
    s.dec.err = false → s.dec.inFrame = true → (s.dec.busy = true → s.dec.haveHi = false) →
    hexval c1 = some v1 → hexval c2 = some v2 → s.env.rx = c1 :: c2 :: rest →
    exec .checksum s = .next
      { s.withDec { inFrame := true, err := false, sum := s.dec.sum + valueOf v1 v2, busy := false, hi := v1,
                    haveHi := false } [c1, c2] rest with
        orch := { s.orch with state := .run } }

/-- R201, R208, R95: a bad character in any decoding state goes to ERR with `dec.err = 1`, in either digit position,
inside the frame or behind the marker a hunt finds (vectors T40, T75), whether the request begins or has waited; nothing
else is recorded, the buffer, the lengths and the SPI bus stay. -/
def Obligations.DecodeErrorGoesToErr : Prop :=
  ∀ s : State, s.dec.err = false → ∀ i ∈ [Instr.countBytes, Instr.returnBytes, Instr.readData, Instr.checksum],
    (i = .readData → s.orch.idx ≠ s.orch.byteCount) →
    (∀ (c : Byte) (rest : List Byte), s.dec.inFrame = true → hexval c = none → s.env.rx = c :: rest →
      exec i s = .next
        { s.withDec { s.dec with err := true, haveHi := false, busy := false } [c] rest with
          orch := { s.orch with state := .err } }) ∧
    (∀ (c1 c2 : Byte) (v : Nibble) (rest : List Byte), s.dec.inFrame = true →
      (s.dec.busy = true → s.dec.haveHi = false) → hexval c1 = some v → hexval c2 = none →
      s.env.rx = c1 :: c2 :: rest →
      exec i s = .next
        { s.withDec { s.dec with err := true, hi := v, haveHi := false, busy := false } [c1, c2] rest with
          orch := { s.orch with state := .err } }) ∧
    (∀ (junk rest : List Byte) (c : Byte), s.dec.inFrame = false → chDot ∉ junk → hexval c = none →
      s.env.rx = junk ++ chDot :: c :: rest →
      exec i s = .next
        { s.withDec { inFrame := true, err := true, sum := 0, busy := false, hi := s.dec.hi, haveHi := false }
            (junk ++ [chDot, c]) rest with
          orch := { s.orch with state := .err } }) ∧
    (∀ (junk rest : List Byte) (c1 c2 : Byte) (v : Nibble), s.dec.inFrame = false → chDot ∉ junk →
      hexval c1 = some v → hexval c2 = none → s.env.rx = junk ++ chDot :: c1 :: c2 :: rest →
      exec i s = .next
        { s.withDec { inFrame := true, err := true, sum := 0, busy := false, hi := v, haveHi := false }
            (junk ++ [chDot, c1, c2]) rest with
          orch := { s.orch with state := .err } })

/-- R157, R141, R26: with no byte on RX a decoding state waits where it is, `dec.busy = 1` and everything else as it
was; a digit latched by the outstanding request stays latched, and a new request starts without one (log entry 15).
With one digit on RX inside the frame it takes it, latches it and waits. -/
def Obligations.DecodingStateWaitsForRx : Prop :=
  (∀ (s : State) (c : Byte) (v : Nibble), s.dec.err = false → s.dec.inFrame = true →
    (s.dec.busy = true → s.dec.haveHi = false) → hexval c = some v → s.env.rx = [c] →
    ∀ i ∈ [Instr.countBytes, Instr.returnBytes, Instr.readData, Instr.checksum],
    (i = .readData → s.orch.idx ≠ s.orch.byteCount) →
    exec i s = .next (s.withDec { s.dec with busy := true, hi := v, haveHi := true } [c] [])) ∧
  ∀ s : State, s.env.rx = [] → ∀ i ∈ [Instr.countBytes, Instr.returnBytes, Instr.readData, Instr.checksum],
    (i = .readData → s.orch.idx ≠ s.orch.byteCount) →
    (s.dec.busy = true → exec i s = .next s) ∧
    (s.dec.busy = false → exec i s = .next { s with dec := { s.dec with busy := true, haveHi := false } })

/-- R148: sum zero: `c00\n`, cursor 0, SPI_WRITE; sum nonzero: `eFF\n`, START, nothing sent to the flash. -/
def Obligations.RunConfirmsOrRejectsTheChecksum : Prop :=
  ∀ s : State, s.enc.busy = false → s.env.txReady = [] →
    (s.dec.sum = 0 → exec .run s = .next
      { s.withSent [0x63, 0x30, 0x30, 0x0A] with orch := { s.orch with idx := 0, state := .spiWrite } }) ∧
    (s.dec.sum ≠ 0 → exec .run s = .next
      { s.withSent [0x65, 0x46, 0x46, 0x0A] with orch := { s.orch with state := .start } })

/-- D21, R148: with `DIAG_C = false` the success path sends nothing, and a bad checksum is answered the same. -/
def Obligations.RunForEitherDiagParameter : Prop :=
  ∀ (s : State) (d : Bool), s.enc.busy = false → s.env.txReady = [] →
    (s.dec.sum = 0 → ∃ t, runWith d s = .next t ∧ t.orch = { s.orch with idx := 0, state := .spiWrite } ∧
      txOf t.trace = txOf s.trace ++ (if d = true then [0x63, 0x30, 0x30, 0x0A] else [])) ∧
    (s.dec.sum ≠ 0 → ∃ t, runWith d s = .next t ∧ t.orch = { s.orch with state := .start } ∧
      txOf t.trace = txOf s.trace ++ [0x65, 0x46, 0x46, 0x0A])

/-- R149: each payload byte is one transfer, `first` on the first if `cs` is 0, `last` on the last if nothing is to
be read; then the ACK and START, or SPI_STALL. In every state of the invariant `cs` is 0 on entry. -/
def Obligations.SpiWriteStreamsTheBuffer : Prop :=
  (∀ s : State, s.Inv → s.orch.state = .spiWrite → s.orch.idx = 0 → s.spi.cs = false) ∧
  (∀ (s : State) (v : Byte), s.BusFree → s.orch.idx ≠ s.orch.byteCount → s.orch.idx ≠ 255 →
    s.buf.get s.orch.idx.toNat = some v →
    exec .spiWrite s = .next
      { s.withTransfer v (decide (s.orch.idx = 0 ∧ s.spi.cs = false))
          (decide (s.orch.idx = s.orch.byteCount - 1 ∧ s.orch.returnBytes = 0)) with
        orch := { s.orch with idx := s.orch.idx + 1, state := .spiWrite } }) ∧
  (∀ s : State, s.orch.idx = s.orch.byteCount → s.orch.returnBytes = 0 → s.enc.busy = false → s.env.txReady = [] →
    exec .spiWrite s = .next { s.withSent [0x2E, 0x0A] with orch := { s.orch with state := .start } }) ∧
  (∀ s : State, s.orch.idx = s.orch.byteCount → s.orch.returnBytes ≠ 0 →
    exec .spiWrite s = .next { s with orch := { s.orch with state := .spiStall } })

/-- R150: one transfer of 0x00 without flags, its byte dropped, the cursor 0. -/
def Obligations.SpiStallPacesTheBus : Prop :=
  ∀ s : State, s.BusFree → exec .spiStall s = .next
    { s.withTransfer 0x00 false false with orch := { s.orch with idx := 0, state := .spiRead } }

/-- R151, R155: the byte clocked in is stored and sent as two digits, marker on the first, `\n` and `last` on the
final one; then START. -/
def Obligations.SpiReadReturnsBytes : Prop :=
  (∀ s : State, s.BusFree → s.orch.idx ≠ s.orch.returnBytes → s.orch.idx ≠ 255 → s.enc.busy = false →
    s.env.txReady = [] →
    ∃ m : Memory, exec .spiRead s = .next
      { (s.withTransfer 0x00 false (decide (s.orch.idx = s.orch.returnBytes - 1))).withSent
          ((if s.orch.idx = 0 then [chDot] else []) ++ hex2 s.env.nextByte.1 ++
           (if s.orch.idx = s.orch.returnBytes - 1 then [chLF] else [])) with
        buf := m, orch := { s.orch with idx := s.orch.idx + 1, state := .spiRead } } ∧
      m.get s.orch.idx.toNat = some s.env.nextByte.1 ∧ ∀ a, a ≠ s.orch.idx.toNat → m.get a = s.buf.get a) ∧
  (∀ s : State, s.orch.idx = s.orch.returnBytes →
    exec .spiRead s = .next { s with orch := { s.orch with state := .start } })

/-- R152: `eFF\n`, then START; no transfer is made and `dec.err` stays. -/
def Obligations.ErrReportsAndRestarts : Prop :=
  ∀ s : State, s.enc.busy = false → s.env.txReady = [] →
    exec .err s = .next { s.withSent [0x65, 0x46, 0x46, 0x0A] with orch := { s.orch with state := .start } }

/-- R105, R157: a rule that waits on the transport, performed again: if the transport accepts `k` of the characters
left and then not the next, these are sent and nothing else changes; if it accepts them all, the rule goes on behind
its call, and SPI_READ makes no second transfer (the model's way of waiting, log entries 5 and 29). -/
def Obligations.EncoderWaitHoldsTheRule : Prop :=
  (∀ (s : State) (k : Nat) (r : List Bool), s.enc.busy = true → k < s.enc.pending.length →
    s.env.txReady = List.replicate k true ++ false :: r →
    ∀ i ∈ [Instr.run, Instr.spiWrite, Instr.spiRead, Instr.err],
      (i = .spiWrite → s.orch.idx = s.orch.byteCount ∧ s.orch.returnBytes = 0) →
      (i = .spiRead → s.orch.idx ≠ s.orch.returnBytes) →
      exec i s = .next (s.withStalled s.enc.pending k r)) ∧
  (∀ s : State, s.enc.busy = true → s.env.txReady = [] →
    (s.dec.sum = 0 → exec .run s = .next
      { s.withSent s.enc.pending with orch := { s.orch with idx := 0, state := .spiWrite } }) ∧
    (s.dec.sum ≠ 0 → exec .run s = .next
      { s.withSent s.enc.pending with orch := { s.orch with state := .start } }) ∧
    (s.orch.idx = s.orch.byteCount → s.orch.returnBytes = 0 → exec .spiWrite s = .next
      { s.withSent s.enc.pending with orch := { s.orch with state := .start } }) ∧
    (s.orch.idx ≠ s.orch.returnBytes → exec .spiRead s = .next
      { s.withSent s.enc.pending with orch := { s.orch with idx := s.orch.idx + 1, state := .spiRead } }) ∧
    exec .err s = .next { s.withSent s.enc.pending with orch := { s.orch with state := .start } })

/-- R105, R157, R141: the transport accepts `k` characters of a rule's encoder call and then not the next: the rule
waits behind what stands before its call. RUN, the end of SPI_WRITE and ERR have done nothing else; SPI_READ has made
its transfer and stored the byte, and the cursor stays (the model's way of waiting, log entries 5 and 29). -/
def Obligations.EncoderCallBeginsToWait : Prop :=
  ∀ (s : State) (k : Nat) (r : List Bool), s.enc.busy = false → s.env.txReady = List.replicate k true ++ false :: r →
    (s.dec.sum = 0 → k < 4 → exec .run s = .next (s.withStalled [0x63, 0x30, 0x30, 0x0A] k r)) ∧
    (s.dec.sum ≠ 0 → k < 4 → exec .run s = .next (s.withStalled [0x65, 0x46, 0x46, 0x0A] k r)) ∧
    (s.orch.idx = s.orch.byteCount → s.orch.returnBytes = 0 → k < 2 →
      exec .spiWrite s = .next (s.withStalled [0x2E, 0x0A] k r)) ∧
    (k < 4 → exec .err s = .next (s.withStalled [0x65, 0x46, 0x46, 0x0A] k r)) ∧
    (∀ cs : List Byte, s.BusFree → s.orch.idx ≠ s.orch.returnBytes → s.orch.idx ≠ 255 →
      cs = (if s.orch.idx = 0 then [chDot] else []) ++ hex2 s.env.nextByte.1 ++
           (if s.orch.idx = s.orch.returnBytes - 1 then [chLF] else []) → k < cs.length →
      ∃ m : Memory, exec .spiRead s = .next
        { (s.withTransfer 0x00 false (decide (s.orch.idx = s.orch.returnBytes - 1))).withStalled cs k r with
          buf := m } ∧
        m.get s.orch.idx.toNat = some s.env.nextByte.1 ∧ ∀ a, a ≠ s.orch.idx.toNat → m.get a = s.buf.get a)

/-- R154: `orch.state` changes only along the transition table; START and SPI_STALL never stay. -/
def Obligations.TransitionsFollowTheTable : Prop :=
  ∀ s t : State, orchRule s = .next t →
    (s.orch.state, t.orch.state) ∈ transitions ∨ (t.orch.state = s.orch.state ∧ s.orch.state ∈ mayStay)

/-! ## Frames -/

/-- R11, R16: of the instructions other than requests, only COUNT_BYTES writes `byte_count`, only RETURN_BYTES
`return_bytes`, and the block operations, response frames, POLL_READY, CHECKSUM and ERR leave the cursor. -/
def Obligations.LengthRegistersHaveOneWriter : Prop :=
  ∀ (s t : State) (b m : Byte) (f l e : Bool) (ds : List Byte),
    (∀ i ∈ [Instr.ack, .diag, .data ds, .error, .spiXfer b f l, .decByte, .decReset, .encByte b m f l e, .start,
        .pollReady, .returnBytes, .readData, .checksum, .run, .spiWrite, .spiStall, .spiRead, .err],
      exec i s = .next t → t.orch.byteCount = s.orch.byteCount) ∧
    (∀ i ∈ [Instr.ack, .diag, .data ds, .error, .spiXfer b f l, .decByte, .decReset, .encByte b m f l e, .start,
        .pollReady, .countBytes, .readData, .checksum, .run, .spiWrite, .spiStall, .spiRead, .err],
      exec i s = .next t → t.orch.returnBytes = s.orch.returnBytes) ∧
    (∀ i ∈ [Instr.ack, .diag, .data ds, .error, .spiXfer b f l, .decByte, .decReset, .encByte b m f l e,
        .pollReady, .countBytes, .returnBytes, .checksum, .err],
      exec i s = .next t → t.orch.idx = s.orch.idx)

/-- R122, R53: what makes no transfer leaves every register of the SPI driver and shows nothing at its pins. -/
def Obligations.OnlyTransfersTouchTheBus : Prop :=
  ∀ (s t : State) (b m : Byte) (f l e : Bool) (ds : List Byte),
    ∀ i ∈ [Instr.ack, .diag, .data ds, .error, .decByte, .decReset, .encByte b m f l e, .countBytes, .returnBytes,
        .readData, .checksum, .run, .err],
      exec i s = .next t → t.spi = s.spi ∧ pinsOf t.trace = pinsOf s.trace ∧ t.env.miso = s.env.miso ∧
        t.env.samples = s.env.samples

/-- R46, R22: only READ_DATA, SPI_READ and the requests that run them write the buffer; every cell stays. -/
def Obligations.OnlyTwoStatesWriteTheBuffer : Prop :=
  ∀ (s t : State) (b m : Byte) (f l e : Bool) (ds : List Byte),
    ∀ i ∈ [Instr.ack, .diag, .data ds, .error, .spiXfer b f l, .decByte, .decReset, .encByte b m f l e, .start,
        .pollReady, .countBytes, .returnBytes, .checksum, .run, .spiWrite, .spiStall, .err],
      exec i s = .next t → t.buf = s.buf

/-- R17, R18, R92: DEC's registers are written by the decoding instructions and by START's `DecReset()` only. -/
def Obligations.OnlyDecodersWriteDec : Prop :=
  ∀ (s t : State) (b m : Byte) (f l e : Bool) (ds : List Byte),
    ∀ i ∈ [Instr.ack, .diag, .data ds, .error, .spiXfer b f l, .encByte b m f l e, .pollReady, .run, .spiWrite,
        .spiStall, .spiRead, .err],
      exec i s = .next t → t.dec = s.dec ∧ t.env.rx = s.env.rx ∧ rxOf t.trace = rxOf s.trace

/-! ## Requests and commands

That one `exec` of a request or a command carries the whole pass of ORCH from COUNT_BYTES out, as far as START or a
wait, is the model's choice (log entry 17); what the pass sends to the flash and to the host is the spec's. The
characters `c00\n` are there because `DIAG_C` is true (R5; log entry 12). -/

/-- R180, R153, R62, R155: a correct request taken at the rest point: its payload goes to the flash as one burst,
then the stall and the reads if bytes are wanted; the host gets `c00\n` and then the ACK or the data; ORCH is back
in START with chip-select released; the terminator stays on RX (R99). The buffer holds the bytes read, behind them
the rest of the payload, and every other cell as before. One exec for the pass is log entry 17. -/
def Obligations.RequestPassesThrough : Prop :=
  ∀ (s : State) (m : Byte) (p : List Byte), s.Resting → s.env.txReady = [] → chDot ∉ s.env.rx → p.length ≤ 255 →
    ∃ t, exec (.req m p (checksumOf m p)) s = .next t ∧
      pinsOf t.trace = pinsOf s.trace ++ (transfers (requestTriples m p) s.env).1 ∧
      txOf t.trace = txOf s.trace ++ successText m (responseData m p s.env) ∧
      rxOf t.trace = rxOf s.trace ++ (s.env.rx ++ (reqFrame m p).dropLast.dropLast) ∧
      t.orch = { state := .start, byteCount := BitVec.ofNat 8 p.length, returnBytes := m,
                 idx := if m = 0 then BitVec.ofNat 8 p.length else m } ∧
      t.dec.sum = 0 ∧ t.dec.err = false ∧ t.dec.busy = false ∧ t.dec.inFrame = true ∧ t.dec.haveHi = false ∧
      t.enc = { busy := false, pending := [] } ∧
      t.spi.cs = false ∧ t.spi.ready = true ∧ t.spi.sck = false ∧
      t.env = { (transfers (requestTriples m p) s.env).2.2 with rx := [chCR, chLF] } ∧ t.stimuli = s.stimuli ∧
      ∀ a, t.buf.get a = if a < m.toNat then (responseData m p s.env)[a]?
                         else if a < p.length then p[a]? else s.buf.get a

/-- R180, R181 to R186: a command is the request with its payload; the bridge knows no other difference (closed
by unfolding; it carries the statements about requests over to the commands). -/
def Obligations.CommandsAreRequests : Prop :=
  ∀ (s : State) (a : FlashAddr) (ds : List Byte) (m : Byte),
    exec .wren s = exec (.req 0 [0x06] 0xF9) s ∧
    exec (.sectorErase a) s = exec (.req 0 (0x20 :: addrBytes a) (checksumOf 0 (0x20 :: addrBytes a))) s ∧
    exec (.pageProgram a ds) s =
      exec (.req 0 (0x02 :: (addrBytes a ++ ds)) (checksumOf 0 (0x02 :: (addrBytes a ++ ds)))) s ∧
    exec (.read a m) s = exec (.req m (0x03 :: addrBytes a) (checksumOf m (0x03 :: addrBytes a))) s ∧
    exec (.readStatus m) s = exec (.req m [0x05] (checksumOf m [0x05])) s ∧
    exec (.readId m) s = exec (.req m [0x9F] (checksumOf m [0x9F])) s

/-- R158 (a), (b): the empty request gives `c00\n` and one ACK and makes no transfer; a request with a wrong checksum
gives exactly one `eFF\n` and makes no transfer (R108, R202). Both are back in START (one exec for the pass is log
entry 17). -/
def Obligations.ScenarioLawsHold : Prop :=
  (∀ s : State, s.Resting → s.env.txReady = [] → chDot ∉ s.env.rx →
    ∃ t, exec (.req 0 [] 0) s = .next t ∧ pinsOf t.trace = pinsOf s.trace ∧ t.spi = s.spi ∧ t.buf = s.buf ∧
      txOf t.trace = txOf s.trace ++ [0x63, 0x30, 0x30, 0x0A, 0x2E, 0x0A] ∧ t.orch.state = .start) ∧
  (∀ (s : State) (m ck : Byte) (p : List Byte), s.Resting → s.env.txReady = [] → chDot ∉ s.env.rx → p.length ≤ 255 →
    ck ≠ checksumOf m p →
    ∃ t, exec (.req m p ck) s = .next t ∧ pinsOf t.trace = pinsOf s.trace ∧ t.spi = s.spi ∧
      txOf t.trace = txOf s.trace ++ errorText ∧ t.orch.state = .start ∧ t.dec.sum = ck - checksumOf m p)

/-- R24, R51, R206: a request offered between two passes stays on RX until DEC takes it; nothing else happens
(that exec then answers at once is the model's, log entry 17). -/
def Obligations.RequestWaitsWhileBusPolls : Prop :=
  ∀ (s : State) (m ck : Byte) (p : List Byte), s.betweenRequests = true →
    exec (.req m p ck) s = .next { s with env := { s.env with rx := s.env.rx ++ reqChars m p ck } }

/-- R181: the request is `.010006F9\r\n`; one burst of one byte, then `c00\n` and `.\n`. Log entry 17. -/
def Obligations.WrenSendsOneByteBurst : Prop :=
  reqFrame 0 [0x06] = [0x2E, 0x30, 0x31, 0x30, 0x30, 0x30, 0x36, 0x46, 0x39, 0x0D, 0x0A] ∧
  ∀ s : State, s.Resting → s.env.txReady = [] → chDot ∉ s.env.rx →
    ∃ t, exec .wren s = .next t ∧
      pinsOf t.trace = pinsOf s.trace ++ (transfers [(0x06, true, true)] s.env).1 ∧
      txOf t.trace = txOf s.trace ++ [0x63, 0x30, 0x30, 0x0A, 0x2E, 0x0A] ∧ t.orch.state = .start ∧
      t.spi.cs = false ∧ t.buf.get 0 = some 0x06

/-- R182: for 0x001000 the request is `.040020001000CC\r\n`; the command byte and the address, high byte first, go out
as one burst, then `c00\n` and `.\n`. Log entry 17. -/
def Obligations.SectorEraseSendsCommandAndAddress : Prop :=
  reqFrame 0 (0x20 :: addrBytes 0x001000) = [0x2E, 0x30, 0x34, 0x30, 0x30, 0x32, 0x30, 0x30, 0x30, 0x31, 0x30, 0x30,
    0x30, 0x43, 0x43, 0x0D, 0x0A] ∧
  ∀ (s : State) (a : FlashAddr), s.Resting → s.env.txReady = [] → chDot ∉ s.env.rx →
    ∃ t, exec (.sectorErase a) s = .next t ∧
      pinsOf t.trace = pinsOf s.trace ++ (transfers [(0x20, true, false), (a.extractLsb' 16 8, false, false),
        (a.extractLsb' 8 8, false, false), (a.extractLsb' 0 8, false, true)] s.env).1 ∧
      txOf t.trace = txOf s.trace ++ [0x63, 0x30, 0x30, 0x0A, 0x2E, 0x0A] ∧ t.orch.state = .start ∧ t.spi.cs = false

/-- R183: `4 + k` transfers, `first` on the command byte and `last` on the final data byte; the bridge does
not enforce the host's cap of 128 (R236), so up to the 251 bytes a frame can hold. Log entry 17. -/
def Obligations.PageProgramSendsItsData : Prop :=
  ∀ (s : State) (a : FlashAddr) (ds : List Byte) (d : Byte), s.Resting → s.env.txReady = [] → chDot ∉ s.env.rx →
    ds.length < 251 →
    ∃ t, exec (.pageProgram a (ds ++ [d])) s = .next t ∧
      pinsOf t.trace = pinsOf s.trace ++ (transfers ([(0x02, true, false), (a.extractLsb' 16 8, false, false),
        (a.extractLsb' 8 8, false, false), (a.extractLsb' 0 8, false, false)] ++
        (ds.map (fun x => ((x, false, false) : Triple)) ++ [(d, false, true)])) s.env).1 ∧
      txOf t.trace = txOf s.trace ++ [0x63, 0x30, 0x30, 0x0A, 0x2E, 0x0A] ∧ t.orch.state = .start ∧ t.spi.cs = false

/-- R184: four payload transfers, the stall, `m` reads; the digits of the last `m` bytes; with `m = 0` four transfers
ending in `last` and an ACK. Log entry 17. -/
def Obligations.ReadReturnsTheLastBytes : Prop :=
  (∀ (s : State) (a : FlashAddr) (m : Byte), s.Resting → s.env.txReady = [] → chDot ∉ s.env.rx → m ≠ 0 →
    ∃ t, exec (.read a m) s = .next t ∧
      pinsOf t.trace = pinsOf s.trace ++ (transfers ([(0x03, true, false), (a.extractLsb' 16 8, false, false),
        (a.extractLsb' 8 8, false, false), (a.extractLsb' 0 8, false, false), (0x00, false, false)] ++
        (List.replicate (m.toNat - 1) ((0x00, false, false) : Triple) ++ [(0x00, false, true)])) s.env).1 ∧
      txOf t.trace = txOf s.trace ++ [0x63, 0x30, 0x30, 0x0A] ++ chDot :: (hexBytes
        ((transfers (requestTriples m (0x03 :: addrBytes a)) s.env).2.1.drop 5) ++ [chLF]) ∧
      t.orch.state = .start ∧ t.spi.cs = false) ∧
  (∀ (s : State) (a : FlashAddr), s.Resting → s.env.txReady = [] → chDot ∉ s.env.rx →
    ∃ t, exec (.read a 0) s = .next t ∧
      pinsOf t.trace = pinsOf s.trace ++ (transfers [(0x03, true, false), (a.extractLsb' 16 8, false, false),
        (a.extractLsb' 8 8, false, false), (a.extractLsb' 0 8, false, true)] s.env).1 ∧
      txOf t.trace = txOf s.trace ++ [0x63, 0x30, 0x30, 0x0A, 0x2E, 0x0A] ∧ t.orch.state = .start)

/-- R185, R186, R180: the command byte, the stall, `m` reads; the response holds the bytes of the last `m` transfers;
with `m = 0` a burst of one byte and an ACK. Log entry 17. -/
def Obligations.StatusAndIdReadsReturnBytes : Prop :=
  ∀ (s : State) (m : Byte), s.Resting → s.env.txReady = [] → chDot ∉ s.env.rx →
    ∀ ic ∈ [(Instr.readStatus m, (0x05 : Byte)), (Instr.readId m, 0x9F)],
      ∃ t, exec ic.1 s = .next t ∧ t.orch.state = .start ∧ t.spi.cs = false ∧
        (m ≠ 0 →
          pinsOf t.trace = pinsOf s.trace ++ (transfers ([(ic.2, true, false), (0x00, false, false)] ++
            (List.replicate (m.toNat - 1) ((0x00, false, false) : Triple) ++ [(0x00, false, true)])) s.env).1 ∧
          txOf t.trace = txOf s.trace ++ [0x63, 0x30, 0x30, 0x0A] ++ chDot :: (hexBytes
            ((transfers (requestTriples m [ic.2]) s.env).2.1.drop 2) ++ [chLF])) ∧
        (m = 0 →
          pinsOf t.trace = pinsOf s.trace ++ (transfers [(ic.2, true, true)] s.env).1 ∧
          txOf t.trace = txOf s.trace ++ [0x63, 0x30, 0x30, 0x0A, 0x2E, 0x0A])

/-- R192: the five requests of the document's end-to-end example, in order. -/
def Obligations.HostFlashesOnePage : Prop :=
  hostFlash 0x001000 (List.replicate 128 0xAA) =
    [.wren, .sectorErase 0x001000, .wren, .pageProgram 0x001000 (List.replicate 128 0xAA), .read 0x001000 128]

/-! ## The end of a run -/

/-- R157, R243, D23: a run that has ended stays as it is; a pass that finds no further request on RX ends the run,
whatever the flash's first `k` status bytes, after START, `k + 1` times POLL_READY and one COUNT_BYTES; and in every
state of the invariant with nothing more to come, the machine stands still only where the run has ended or a frame
is cut short. That stimuli and `rst` still to come count to the run is log entry 31. -/
def Obligations.RunEndsAtTheRestPoint : Prop :=
  (∀ s : State, s.runEnded = true → step s = .next s) ∧
  (∀ (k : Nat) (s : State), s.BusFree → s.enc.busy = false → s.orch.state = .start → s.stimuli = [] → s.env.rst = [] →
    chDot ∉ s.env.rx → (∀ j, j < k → s.env.miso[16 + 8 * j + 7]? = some true) →
    s.env.miso[16 + 8 * k + 7]? = some false →
    ∃ t, runToEnd (k + 3) s = some (.next t) ∧ t.runEnded = true ∧ t.orch.idx = 0 ∧ t.dec.err = false ∧
      rxOf t.trace = rxOf s.trace ++ s.env.rx ∧ txOf t.trace = txOf s.trace ∧ t.buf = s.buf) ∧
  (∀ s : State, s.Inv → s.env.rx = [] → s.stimuli = [] → s.env.rst = [] → step s = .next s →
    s.runEnded = true ∨ (s.dec.busy = true ∧ s.dec.inFrame = true ∧
      s.orch.state ∈ [OrchState.countBytes, .returnBytes, .readData, .checksum]))

/-! ## Invariants of every step -/

/-- The buffer keeps its canonical form through every step, whatever the stimulus: addresses strictly rising and
below 255 (R22; the form itself is the model's, log entry 9). -/
def Obligations.BufferStaysCanonical : Prop :=
  ∀ s t : State, s.buf.wf = true → step s = .next t → t.buf.wf = true

/-- R24: every byte offered on RX is consumed exactly once, in order, or still offered, by every step of ORCH. -/
def Obligations.RxIsConsumedOnceInOrder : Prop :=
  ∀ s t : State, orchRule s = .next t → rxOf t.trace ++ t.env.rx = rxOf s.trace ++ s.env.rx

/-- The reset state meets the invariant (R220; the fields that are the model's own are log entries 5 and 7). -/
def Obligations.ResetMeetsTheInvariant : Prop := State.reset.Inv

/-- From every state that meets the invariant a step answers a next state that meets it: chip-select is asserted in
the two bursts only (R27, R156), the cursor stays within its bound (R16), no cell is read that nothing has written
since reset (R221, 93 V1), waits happen only where R157 says, and the machine never stops. The fields that are the
model's own, and how a wait and a stimulus are held, are log entries 5 and 7. -/
def Obligations.EveryStepKeepsTheInvariant : Prop :=
  ∀ s : State, s.Inv → ∃ t, step s = .next t ∧ t.Inv
end

