-- ==== Sys2Proof/Laws/State.lean ====
section
/-! SUPPORT. What each register write of ORCH, `DecReset()`, an offer on RX and reset leave in each field. -/

namespace Sys2Proof.Machine

@[simp] theorem State.goto_orch (s : State) (q : OrchState) : (s.goto q).orch = { s.orch with state := q } := rfl
@[simp] theorem State.goto_dec (s : State) (q : OrchState) : (s.goto q).dec = s.dec := rfl
@[simp] theorem State.goto_enc (s : State) (q : OrchState) : (s.goto q).enc = s.enc := rfl
@[simp] theorem State.goto_spi (s : State) (q : OrchState) : (s.goto q).spi = s.spi := rfl
@[simp] theorem State.goto_buf (s : State) (q : OrchState) : (s.goto q).buf = s.buf := rfl
@[simp] theorem State.goto_env (s : State) (q : OrchState) : (s.goto q).env = s.env := rfl
@[simp] theorem State.goto_trace (s : State) (q : OrchState) : (s.goto q).trace = s.trace := rfl
@[simp] theorem State.goto_stimuli (s : State) (q : OrchState) : (s.goto q).stimuli = s.stimuli := rfl

@[simp] theorem State.setIdx_orch (s : State) (v : Byte) : (s.setIdx v).orch = { s.orch with idx := v } := rfl
@[simp] theorem State.setIdx_dec (s : State) (v : Byte) : (s.setIdx v).dec = s.dec := rfl
@[simp] theorem State.setIdx_enc (s : State) (v : Byte) : (s.setIdx v).enc = s.enc := rfl
@[simp] theorem State.setIdx_spi (s : State) (v : Byte) : (s.setIdx v).spi = s.spi := rfl
@[simp] theorem State.setIdx_buf (s : State) (v : Byte) : (s.setIdx v).buf = s.buf := rfl
@[simp] theorem State.setIdx_env (s : State) (v : Byte) : (s.setIdx v).env = s.env := rfl
@[simp] theorem State.setIdx_trace (s : State) (v : Byte) : (s.setIdx v).trace = s.trace := rfl
@[simp] theorem State.setIdx_stimuli (s : State) (v : Byte) : (s.setIdx v).stimuli = s.stimuli := rfl

@[simp] theorem State.setByteCount_orch (s : State) (v : Byte) : (s.setByteCount v).orch = { s.orch with byteCount := v } := rfl
@[simp] theorem State.setByteCount_dec (s : State) (v : Byte) : (s.setByteCount v).dec = s.dec := rfl
@[simp] theorem State.setByteCount_enc (s : State) (v : Byte) : (s.setByteCount v).enc = s.enc := rfl
@[simp] theorem State.setByteCount_spi (s : State) (v : Byte) : (s.setByteCount v).spi = s.spi := rfl
@[simp] theorem State.setByteCount_buf (s : State) (v : Byte) : (s.setByteCount v).buf = s.buf := rfl
@[simp] theorem State.setByteCount_env (s : State) (v : Byte) : (s.setByteCount v).env = s.env := rfl
@[simp] theorem State.setByteCount_trace (s : State) (v : Byte) : (s.setByteCount v).trace = s.trace := rfl
@[simp] theorem State.setByteCount_stimuli (s : State) (v : Byte) : (s.setByteCount v).stimuli = s.stimuli := rfl

@[simp] theorem State.setReturnBytes_orch (s : State) (v : Byte) : (s.setReturnBytes v).orch = { s.orch with returnBytes := v } := rfl
@[simp] theorem State.setReturnBytes_dec (s : State) (v : Byte) : (s.setReturnBytes v).dec = s.dec := rfl
@[simp] theorem State.setReturnBytes_enc (s : State) (v : Byte) : (s.setReturnBytes v).enc = s.enc := rfl
@[simp] theorem State.setReturnBytes_spi (s : State) (v : Byte) : (s.setReturnBytes v).spi = s.spi := rfl
@[simp] theorem State.setReturnBytes_buf (s : State) (v : Byte) : (s.setReturnBytes v).buf = s.buf := rfl
@[simp] theorem State.setReturnBytes_env (s : State) (v : Byte) : (s.setReturnBytes v).env = s.env := rfl
@[simp] theorem State.setReturnBytes_trace (s : State) (v : Byte) : (s.setReturnBytes v).trace = s.trace := rfl
@[simp] theorem State.setReturnBytes_stimuli (s : State) (v : Byte) : (s.setReturnBytes v).stimuli = s.stimuli := rfl

@[simp] theorem decReset_orch (s : State) : (decReset s).orch = s.orch := rfl
@[simp] theorem decReset_dec (s : State) : (decReset s).dec = { s.dec with inFrame := false, err := false, haveHi := false, busy := false } := rfl
@[simp] theorem decReset_enc (s : State) : (decReset s).enc = s.enc := rfl
@[simp] theorem decReset_spi (s : State) : (decReset s).spi = s.spi := rfl
@[simp] theorem decReset_buf (s : State) : (decReset s).buf = s.buf := rfl
@[simp] theorem decReset_env (s : State) : (decReset s).env = s.env := rfl
@[simp] theorem decReset_trace (s : State) : (decReset s).trace = s.trace := rfl
@[simp] theorem decReset_stimuli (s : State) : (decReset s).stimuli = s.stimuli := rfl

@[simp] theorem offerRx_orch (cs : List Byte) (s : State) : (offerRx cs s).orch = s.orch := rfl
@[simp] theorem offerRx_dec (cs : List Byte) (s : State) : (offerRx cs s).dec = s.dec := rfl
@[simp] theorem offerRx_enc (cs : List Byte) (s : State) : (offerRx cs s).enc = s.enc := rfl
@[simp] theorem offerRx_spi (cs : List Byte) (s : State) : (offerRx cs s).spi = s.spi := rfl
@[simp] theorem offerRx_buf (cs : List Byte) (s : State) : (offerRx cs s).buf = s.buf := rfl
@[simp] theorem offerRx_env (cs : List Byte) (s : State) : (offerRx cs s).env = { s.env with rx := s.env.rx ++ cs } := rfl
@[simp] theorem offerRx_trace (cs : List Byte) (s : State) : (offerRx cs s).trace = s.trace := rfl
@[simp] theorem offerRx_stimuli (cs : List Byte) (s : State) : (offerRx cs s).stimuli = s.stimuli := rfl

@[simp] theorem takeReset_orch (s : State) : (takeReset s).orch = Orch.reset := rfl
@[simp] theorem takeReset_dec (s : State) : (takeReset s).dec = Dec.reset := rfl
@[simp] theorem takeReset_enc (s : State) : (takeReset s).enc = Enc.reset := rfl
@[simp] theorem takeReset_spi (s : State) : (takeReset s).spi = Spi.reset := rfl
@[simp] theorem takeReset_buf (s : State) : (takeReset s).buf = [] := rfl
@[simp] theorem takeReset_env (s : State) : (takeReset s).env = s.env := rfl
@[simp] theorem takeReset_trace (s : State) : (takeReset s).trace = s.trace ++ [.cs false, .sck false, .mosi false] := rfl
@[simp] theorem takeReset_stimuli (s : State) : (takeReset s).stimuli = s.stimuli := rfl

@[simp] theorem advanceIdx_orch (s : State) : (s.advanceIdx).orch = { s.orch with idx := s.orch.idx + 1 } := rfl
@[simp] theorem advanceIdx_dec (s : State) : (s.advanceIdx).dec = s.dec := rfl
@[simp] theorem advanceIdx_enc (s : State) : (s.advanceIdx).enc = s.enc := rfl
@[simp] theorem advanceIdx_spi (s : State) : (s.advanceIdx).spi = s.spi := rfl
@[simp] theorem advanceIdx_buf (s : State) : (s.advanceIdx).buf = s.buf := rfl
@[simp] theorem advanceIdx_env (s : State) : (s.advanceIdx).env = s.env := rfl
@[simp] theorem advanceIdx_trace (s : State) : (s.advanceIdx).trace = s.trace := rfl
@[simp] theorem advanceIdx_stimuli (s : State) : (s.advanceIdx).stimuli = s.stimuli := rfl

@[simp] theorem recover_orch (s : State) : (recover s).orch = { s.orch with state := .start } := rfl
@[simp] theorem recover_dec (s : State) : (recover s).dec = s.dec := rfl
@[simp] theorem recover_enc (s : State) : (recover s).enc = s.enc := rfl
@[simp] theorem recover_spi (s : State) : (recover s).spi = s.spi := rfl
@[simp] theorem recover_buf (s : State) : (recover s).buf = s.buf := rfl
@[simp] theorem recover_env (s : State) : (recover s).env = s.env := rfl
@[simp] theorem recover_trace (s : State) : (recover s).trace = s.trace := rfl
@[simp] theorem recover_stimuli (s : State) : (recover s).stimuli = s.stimuli := rfl

@[simp] theorem takeDecodeError_orch (s : State) : (takeDecodeError s).orch = { s.orch with state := .err } := rfl
@[simp] theorem takeDecodeError_dec (s : State) : (takeDecodeError s).dec = s.dec := rfl
@[simp] theorem takeDecodeError_enc (s : State) : (takeDecodeError s).enc = s.enc := rfl
@[simp] theorem takeDecodeError_spi (s : State) : (takeDecodeError s).spi = s.spi := rfl
@[simp] theorem takeDecodeError_buf (s : State) : (takeDecodeError s).buf = s.buf := rfl
@[simp] theorem takeDecodeError_env (s : State) : (takeDecodeError s).env = s.env := rfl
@[simp] theorem takeDecodeError_trace (s : State) : (takeDecodeError s).trace = s.trace := rfl
@[simp] theorem takeDecodeError_stimuli (s : State) : (takeDecodeError s).stimuli = s.stimuli := rfl

end Sys2Proof.Machine
end

