-- ==== Sys2Proof/Laws/Buffer.lean ====
section
/-! SUPPORT. The working buffer: a read after a write, and the canonical form. -/

namespace Sys2Proof.Machine

@[simp] theorem Memory.get_set_same (m : Memory) (a : Nat) (v : Byte) : (m.set a v).get a = some v := by
  induction m with
  | nil => simp [Memory.set, Memory.get]
  | cons c rest ih =>
    obtain ⟨b, w⟩ := c
    simp only [Memory.set]
    split
    · simp [Memory.get]
    · split
      · simp [Memory.get]
      · rename_i h2
        simp [Memory.get, h2, ih]

theorem Memory.get_set_other (m : Memory) (a b : Nat) (v : Byte) (h : b ≠ a) : (m.set a v).get b = m.get b := by
  induction m with
  | nil => simp [Memory.set, Memory.get, h]
  | cons c rest ih =>
    obtain ⟨x, w⟩ := c
    simp only [Memory.set]
    split
    · simp [Memory.get, h]
    · split
      · rename_i h2
        subst h2
        simp [Memory.get, h]
      · simp [Memory.get, ih]

theorem Memory.get_set (m : Memory) (a b : Nat) (v : Byte) :
    (m.set a v).get b = if b = a then some v else m.get b := by
  split
  · rename_i h; subst h; simp
  · rename_i h; exact Memory.get_set_other m a b v h

/-- Every address of a canonical buffer that follows `a` lies above it. -/
theorem Memory.wf_cons (a : Nat) (v : Byte) (rest : Memory) :
    Memory.wf ((a, v) :: rest) = true ↔
      a < Config.bufDepth ∧ (∀ b w r, rest = (b, w) :: r → a < b) ∧ Memory.wf rest = true := by
  cases rest with
  | nil => simp [Memory.wf]
  | cons c r =>
    obtain ⟨b, w⟩ := c
    simp only [Memory.wf, Bool.and_eq_true, decide_eq_true_eq, List.cons.injEq, Prod.mk.injEq, and_imp]
    constructor
    · rintro ⟨⟨h1, h2⟩, h3⟩
      exact ⟨h1, fun b' w' r' hb _ _ => hb ▸ h2, h3⟩
    · rintro ⟨h1, h2, h3⟩
      exact ⟨⟨h1, h2 b w r rfl rfl rfl⟩, h3⟩

/-- A write keeps the canonical form. -/
theorem Memory.wf_set (m : Memory) (a : Nat) (v : Byte) (ha : a < Config.bufDepth) (hm : m.wf = true) :
    (m.set a v).wf = true := by
  induction m with
  | nil => simp [Memory.set, Memory.wf, ha]
  | cons c rest ih =>
    obtain ⟨b, w⟩ := c
    obtain ⟨hb, hlt, hr⟩ := (Memory.wf_cons b w rest).1 hm
    simp only [Memory.set]
    split
    · rename_i hab
      exact (Memory.wf_cons _ _ _).2 ⟨ha, fun _ _ _ h => by cases h; exact hab, hm⟩
    · rename_i hab
      split
      · rename_i heq
        subst heq
        exact (Memory.wf_cons _ _ _).2 ⟨ha, hlt, hr⟩
      · rename_i hne
        refine (Memory.wf_cons _ _ _).2 ⟨hb, ?_, ih hr⟩
        intro x y r hx
        cases rest with
        | nil =>
          simp only [Memory.set, List.cons.injEq, Prod.mk.injEq] at hx
          omega
        | cons d rest' =>
          obtain ⟨b', w'⟩ := d
          have hb' : b < b' := hlt b' w' rest' rfl
          simp only [Memory.set] at hx
          split at hx
          · simp only [List.cons.injEq, Prod.mk.injEq] at hx
            omega
          · split at hx <;> simp only [List.cons.injEq, Prod.mk.injEq] at hx <;> omega

/-- What a write to the buffer can do (R7): the cell is written and the form kept, or the address faults. -/
theorem memWrite_next (s t : State) (a : Nat) (v : Byte) (h : memWrite s a v = .ok t) :
    a < Config.bufDepth ∧ t = { s with buf := s.buf.set a v } ∧ t.buf.get a = some v ∧
    (∀ b, b ≠ a → t.buf.get b = s.buf.get b) ∧ (s.buf.wf = true → t.buf.wf = true) := by
  unfold memWrite at h
  split at h
  · rename_i ha
    cases h
    exact ⟨ha, rfl, Memory.get_set_same _ _ _, fun b hb => Memory.get_set_other _ _ _ _ hb,
      Memory.wf_set _ _ _ ha⟩
  · cases h

/-- What a read of the buffer can do (R7, 93 V1): the cell's value, or one of the two faults. -/
theorem memRead_cases (s : State) (a : Nat) :
    (a < Config.bufDepth ∧ ∃ v, s.buf.get a = some v ∧ memRead s a = .ok v) ∨
    (a < Config.bufDepth ∧ s.buf.get a = none ∧ memRead s a = .error (.bufUnwritten a)) ∨
    (Config.bufDepth ≤ a ∧ memRead s a = .error (.bufRange a)) := by
  unfold memRead
  by_cases ha : a < Config.bufDepth
  · cases hg : s.buf.get a <;> simp [ha]
  · simp [ha, Nat.not_lt.mp ha]

/-- The buffer after reset is canonical, and so is the one a taken reset leaves. -/
theorem reset_buf_wf (s : State) : State.reset.buf.wf = true ∧ (takeReset s).buf.wf = true := ⟨rfl, rfl⟩

theorem Memory.writtenBelow_set (m : Memory) (n : Nat) (v : Byte) (h : m.WrittenBelow n) :
    (m.set n v).WrittenBelow (n + 1) := by
  intro a ha
  rw [Memory.get_set]
  split
  · rfl
  · exact h a (by omega)

theorem Memory.WrittenBelow.set (m : Memory) (n a : Nat) (v : Byte) (h : m.WrittenBelow n) :
    (m.set a v).WrittenBelow n := by
  intro b hb
  rw [Memory.get_set]
  split
  · rfl
  · exact h b hb

end Sys2Proof.Machine
end

