-- ==== Sys2Proof/Laws/Wire.lean ====
section
/-! SUPPORT. Digits, bytes and frames: what the decoder reads from what the encoder writes. -/

namespace Sys2Proof

@[simp] theorem hexval_hexchar (v : Nibble) : hexval (hexchar v) = some v := by
  revert v; decide +kernel

@[simp] theorem join_nibbles (b : Byte) : joinNibbles (hiNibble b) (loNibble b) = b := by
  revert b; decide +kernel

@[simp] theorem hexchar_upper (v : Nibble) : isUpperDigit (hexchar v) = true := by
  revert v; decide +kernel

@[simp] theorem upperval_hexchar (v : Nibble) : upperval (hexchar v) = some v := by
  simp [upperval]

/-- A digit of a frame's text is the one the encoder writes for its value. -/
theorem upperval_some (c : Byte) (v : Nibble) (h : upperval c = some v) : c = hexchar v := by
  revert c v; decide +kernel

@[simp] theorem hiNibble_join (x y : Nibble) : hiNibble (joinNibbles x y) = x := by
  revert x y; decide +kernel

@[simp] theorem loNibble_join (x y : Nibble) : loNibble (joinNibbles x y) = y := by
  revert x y; decide +kernel

/-- The byte of two digits as a number (R66). -/
theorem joinNibbles_value (x y : Nibble) : joinNibbles x y = 16 * x.setWidth 8 + y.setWidth 8 := by
  revert x y; decide +kernel

theorem hexchar_ne_dot (v : Nibble) : hexchar v ≠ chDot := by
  revert v; decide +kernel

@[simp] theorem takeByte_hex2 (b : Byte) (r : List Byte) : takeByte (hex2 b ++ r) = .ok (b, r) := by
  simp [takeByte, hex2]

/-- What `takeByte` reads is what the encoder writes. -/
theorem takeByte_ok (cs r : List Byte) (b : Byte) (h : takeByte cs = .ok (b, r)) : cs = hex2 b ++ r := by
  match cs, h with
  | [], h => simp [takeByte] at h
  | [_], h => simp [takeByte] at h
  | x :: y :: r', h =>
    simp only [takeByte] at h
    split at h
    · rename_i vx vy hx hy
      simp only [Except.ok.injEq, Prod.mk.injEq] at h
      obtain ⟨rfl, rfl⟩ := h
      simp [hex2, upperval_some x vx hx, upperval_some y vy hy]
    · simp at h

theorem takeBytes_ok (n : Nat) (cs r p : List Byte) (h : takeBytes n cs = .ok (p, r)) :
    cs = hexBytes p ++ r ∧ p.length = n := by
  induction n generalizing cs p with
  | zero =>
    simp only [takeBytes, Except.ok.injEq, Prod.mk.injEq] at h
    obtain ⟨rfl, rfl⟩ := h
    exact ⟨rfl, rfl⟩
  | succ n ih =>
    simp only [takeBytes] at h
    split at h
    · simp at h
    · rename_i b r1 hb
      split at h
      · simp at h
      · rename_i bs r2 hbs
        simp only [Except.ok.injEq, Prod.mk.injEq] at h
        obtain ⟨rfl, rfl⟩ := h
        obtain ⟨h1, h2⟩ := ih _ _ hbs
        exact ⟨by rw [takeByte_ok _ _ _ hb, h1]; simp [hexBytes], by simp [h2]⟩

theorem takeBytes_hexBytes (p r : List Byte) : takeBytes p.length (hexBytes p ++ r) = .ok (p, r) := by
  induction p with
  | nil => rfl
  | cons b bs ih => simp [takeBytes, hexBytes, List.append_assoc, ih]

theorem lengthByte_toNat (p : List Byte) (h : p.length ≤ Config.maxPayload) : (lengthByte p).toNat = p.length := by
  have : p.length < 256 := by simp only [Config.maxPayload] at h; omega
  simpa [lengthByte] using this

/-- The four fields of a request come back (R60, R61, R64). -/
theorem decodeReq_reqChars (m : Byte) (p : List Byte) (ck : Byte) (h : p.length ≤ Config.maxPayload) :
    decodeReq (reqChars m p ck) = .ok (.req m p ck) := by
  have ht := takeBytes_hexBytes p (hex2 ck ++ [chCR, chLF])
  simp [decodeReq, reqChars, lengthByte_toNat p h, ht, decodeReqTail]

theorem decodeDigits_hexBytes (ds : List Byte) : decodeDigits (hexBytes ds ++ [chLF]) = .ok ds := by
  induction ds with
  | nil => simp [hexBytes, decodeDigits]
  | cons d ds ih =>
    simp [hexBytes, hex2, decodeDigits, ih]

@[simp] theorem joinAddr_addrBytes (a : FlashAddr) :
    joinAddr (a.extractLsb' 16 8) (a.extractLsb' 8 8) (a.extractLsb' 0 8) = a := by
  simp only [joinAddr]
  apply BitVec.eq_of_getLsbD_eq
  intro i hi
  simp only [BitVec.getLsbD_append, BitVec.getLsbD_extractLsb']
  by_cases h1 : i < 16
  · by_cases h2 : i < 8
    · simp [h1, h2]
    · have : 8 + (i - 8) = i := by omega
      have h3 : i - 8 < 8 := by omega
      simp [h1, h2, this, h3]
  · have : 16 + (i - 16) = i := by omega
    have h3 : i - 16 < 8 := by omega
    simp [h1, this, h3]

@[simp] theorem hexBytes_length (p : List Byte) : (hexBytes p).length = 2 * p.length := by
  induction p with
  | nil => rfl
  | cons b bs ih => simp [hexBytes, hex2, ih]; ring

end Sys2Proof
end

