-- ==== Sys2Proof/Laws/Codec.lean ====
section
/-! SUPPORT. What a decode request and an encoder call do. -/

namespace Sys2Proof.Machine

/-! ## DEC -/

/-- Bytes that are no start marker are dropped in the hunt (R92). -/
theorem decScan_junk (d : Dec) (junk cs : List Byte) (hf : d.inFrame = false) (hj : chDot ∉ junk) :
    decScan d (junk ++ cs) =
      { decScan d cs with taken := junk ++ (decScan d cs).taken } := by
  induction junk with
  | nil => rfl
  | cons c js ih =>
    have hc : c ≠ chDot := fun h => hj (h ▸ List.mem_cons_self)
    have hjs : chDot ∉ js := fun h => hj (List.mem_cons_of_mem _ h)
    have hstep : decChar c d = .more d := by simp [decChar, hf, hc]
    simp [decScan, hstep, ih hjs]

/-- The start marker (R92). -/
theorem decScan_marker (d : Dec) (cs : List Byte) (hf : d.inFrame = false) :
    decScan d (chDot :: cs) =
      { decScan { d with inFrame := true, sum := 0, haveHi := false } cs with
        taken := chDot :: (decScan { d with inFrame := true, sum := 0, haveHi := false } cs).taken } := by
  simp [decScan, decChar, hf]

/-- Two digits in a frame (R93). -/
theorem decScan_digits (d : Dec) (c1 c2 : Byte) (v1 v2 : Nibble) (cs : List Byte) (hf : d.inFrame = true)
    (hh : d.haveHi = false) (h1 : hexval c1 = some v1) (h2 : hexval c2 = some v2) :
    decScan d (c1 :: c2 :: cs) =
      ⟨.byte (joinNibbles v1 v2),
       { d with haveHi := false, hi := v1, sum := d.sum + joinNibbles v1 v2, busy := false }, [c1, c2], cs⟩ := by
  simp [decScan, decChar, hf, hh, h1, h2]

/-- A bad first character (R95). -/
theorem decScan_bad_first (d : Dec) (c : Byte) (cs : List Byte) (hf : d.inFrame = true) (hh : d.haveHi = false)
    (h : hexval c = none) : decScan d (c :: cs) = ⟨.error, { d with err := true, busy := false }, [c], cs⟩ := by
  simp [decScan, decChar, hf, hh, h]

/-- A bad second character (R95). -/
theorem decScan_bad_second (d : Dec) (c : Byte) (cs : List Byte) (hf : d.inFrame = true) (hh : d.haveHi = true)
    (h : hexval c = none) :
    decScan d (c :: cs) = ⟨.error, { d with err := true, haveHi := false, busy := false }, [c], cs⟩ := by
  simp [decScan, decChar, hf, hh, h]

/-- The first digit is latched and DEC waits for the second (R26). -/
theorem decScan_first_digit (d : Dec) (c : Byte) (v : Nibble) (cs : List Byte) (hf : d.inFrame = true)
    (hh : d.haveHi = false) (h : hexval c = some v) :
    decScan d (c :: cs) =
      { decScan { d with hi := v, haveHi := true } cs with
        taken := c :: (decScan { d with hi := v, haveHi := true } cs).taken } := by
  simp [decScan, decChar, hf, hh, h]

/-- A digit and then a bad character (R95). -/
theorem decScan_digit_bad (d : Dec) (c1 c2 : Byte) (v : Nibble) (cs : List Byte) (hf : d.inFrame = true)
    (hh : d.haveHi = false) (h1 : hexval c1 = some v) (h2 : hexval c2 = none) :
    decScan d (c1 :: c2 :: cs) =
      ⟨.error, { d with err := true, hi := v, haveHi := false, busy := false }, [c1, c2], cs⟩ := by
  rw [decScan_first_digit d c1 v _ hf hh h1, decScan_bad_second { d with hi := v, haveHi := true } c2 cs hf rfl h2]

/-- Nothing is lost: what is taken and what stays make up what was offered (R24). -/
theorem decScan_conserves (d : Dec) (cs : List Byte) : (decScan d cs).taken ++ (decScan d cs).rest = cs := by
  induction cs generalizing d with
  | nil => rfl
  | cons c cs ih =>
    simp only [decScan]
    split <;> simp [ih]

/-- What one character can do to DEC's registers. -/
theorem decChar_cases (c : Byte) (d : Dec) :
    (d.inFrame = false ∧ c ≠ chDot ∧ decChar c d = .more d) ∨
    (d.inFrame = false ∧ c = chDot ∧ decChar c d = .more { d with inFrame := true, sum := 0, haveHi := false }) ∨
    (d.inFrame = true ∧ hexval c = none ∧
      decChar c d = .error { d with err := true, haveHi := false, busy := false }) ∨
    (∃ v, d.inFrame = true ∧ d.haveHi = false ∧ hexval c = some v ∧
      decChar c d = .more { d with hi := v, haveHi := true }) ∨
    (∃ v, d.inFrame = true ∧ d.haveHi = true ∧ hexval c = some v ∧
      decChar c d = .byte (joinNibbles d.hi v)
        { d with haveHi := false, sum := d.sum + joinNibbles d.hi v, busy := false }) := by
  obtain ⟨f, e, s, b, h, hh⟩ := d
  cases f <;> cases hh <;> cases hv : hexval c <;> by_cases hc : c = chDot <;> simp [decChar, hv, hc] <;>
    simp_all

/-- What a scan can answer, and what it leaves in DEC (R93, R95). -/
theorem decScan_cases (d : Dec) (cs : List Byte) (hb : d.busy = true) (he : d.err = false) :
    let r := decScan d cs
    (∃ b, r.answer = .byte b ∧ r.dec.busy = false ∧ r.dec.err = false ∧ r.dec.inFrame = true ∧
      r.dec.haveHi = false) ∨
    (r.answer = .error ∧ r.dec.busy = false ∧ r.dec.err = true ∧ r.dec.inFrame = true ∧ r.dec.haveHi = false) ∨
    (r.answer = .waiting ∧ r.dec.busy = true ∧ r.dec.err = false ∧ r.rest = [] ∧
      (d.inFrame = true → r.dec.inFrame = true) ∧
      ((d.haveHi = true → d.inFrame = true) → r.dec.haveHi = true → r.dec.inFrame = true)) := by
  induction cs generalizing d with
  | nil => simp [decScan, hb, he]
  | cons c cs ih =>
    rcases decChar_cases c d with ⟨hf, _, h⟩ | ⟨hf, _, h⟩ | ⟨hf, _, h⟩ | ⟨v, hf, hh, _, h⟩ | ⟨v, hf, hh, _, h⟩
    · simpa [decScan, h] using ih d hb he
    · have := ih { d with inFrame := true, sum := 0, haveHi := false } hb he
      simp only [decScan, h, hf]
      exact this.imp id (Or.imp id fun ⟨ha, hb, hc, hd, hi, _⟩ =>
        ⟨ha, hb, hc, hd, fun h => by simp at h, fun _ _ => hi rfl⟩)
    · simp [decScan, h, hf]
    · have := ih { d with hi := v, haveHi := true } hb he
      simp only [decScan, h, hf]
      simpa [hf] using this
    · simp [decScan, h, hf, he]

/-- A request that is new, with no error recorded. -/
theorem decByteOp_ok (s : State) (he : s.dec.err = false) :
    decByteOp s =
      ((decScan (decRequest s.dec) s.env.rx).answer,
       { s with dec := (decScan (decRequest s.dec) s.env.rx).dec,
                env := { s.env with rx := (decScan (decRequest s.dec) s.env.rx).rest },
                trace := s.trace ++ (decScan (decRequest s.dec) s.env.rx).taken.map Event.rx }) := by
  simp [decByteOp, he]

/-- DEC with an error recorded takes nothing and does not complete (R95). -/
theorem decByteOp_stuck (s : State) (he : s.dec.err = true) :
    decByteOp s = (.waiting, { s with dec := decRequest s.dec }) := by
  simp [decByteOp, he]

@[simp] theorem decRequest_busy (d : Dec) : (decRequest d).busy = true := by
  unfold decRequest; split <;> simp_all

@[simp] theorem decRequest_err (d : Dec) : (decRequest d).err = d.err := by
  unfold decRequest; split <;> rfl

@[simp] theorem decRequest_inFrame (d : Dec) : (decRequest d).inFrame = d.inFrame := by
  unfold decRequest; split <;> rfl

@[simp] theorem decRequest_sum (d : Dec) : (decRequest d).sum = d.sum := by
  unfold decRequest; split <;> rfl

@[simp] theorem decRequest_hi (d : Dec) : (decRequest d).hi = d.hi := by
  unfold decRequest; split <;> rfl

/-- A new request with a digit latched starts without it. -/
theorem decRequest_new (d : Dec) (h : d.busy = false) : decRequest d = { d with busy := true, haveHi := false } := by
  simp [decRequest, h]

/-! ## ENC -/

/-- A transport that accepts everything gets everything (93 V6). -/
@[simp] theorem encDrain_accepts (cs : List Byte) : encDrain cs [] = ⟨cs, [], []⟩ := by
  induction cs with
  | nil => rfl
  | cons c cs ih => simp [encDrain, ih]

/-- Nothing is lost: what is accepted and what is left make up the call's characters (R105). -/
theorem encDrain_conserves (cs : List Byte) (r : List Bool) : (encDrain cs r).sent ++ (encDrain cs r).left = cs := by
  induction cs generalizing r with
  | nil => rfl
  | cons c cs ih =>
    match r with
    | [] => simp [encDrain]
    | true :: r => simpa [encDrain] using ih r
    | false :: r => rfl

/-- An encoder call that the transport accepts (R104, R105). -/
theorem encDrain_stalls (cs : List Byte) (k : Nat) (r : List Bool) (h : k < cs.length) :
    encDrain cs (List.replicate k true ++ false :: r) = ⟨cs.take k, cs.drop k, r⟩ := by
  induction k generalizing cs with
  | zero =>
    cases cs with
    | nil => simp at h
    | cons c cs => rfl
  | succ k ih =>
    cases cs with
    | nil => simp at h
    | cons c cs => simp [List.replicate_succ, encDrain, ih cs (by simpa using h)]

theorem encSend_accepted (cs : List Byte) (s : State) (h : s.TxAccepts) :
    encSend cs s = { s with enc := ⟨false, []⟩, trace := s.trace ++ cs.map Event.tx } := by
  unfold State.TxAccepts at h
  obtain ⟨o, d, e, p, b, ⟨rx, mi, n, tr, rst⟩, t, st⟩ := s
  simp only at h
  subst h
  simp [encSend, encPump]

theorem encByteOp_accepted (b m : Byte) (f l e : Bool) (s : State) (h : s.TxAccepts) :
    encByteOp b m f l e s = { s with enc := ⟨false, []⟩, trace := s.trace ++ (encChars b m f l e).map Event.tx } :=
  encSend_accepted _ s h

/-- The encoder call of a rule, when ENC is free and the transport accepts. -/
theorem encCall_accepted (b m : Byte) (f l e : Bool) (s : State) (hb : s.enc.busy = false) (h : s.TxAccepts) :
    encCall b m f l e s = { s with enc := ⟨false, []⟩, trace := s.trace ++ (encChars b m f l e).map Event.tx } := by
  simp [encCall, hb, encByteOp_accepted b m f l e s h]

@[simp] theorem afterEnc_free (k : State → State) (s : State) (h : s.enc.busy = false) : afterEnc k s = k s := by
  simp [afterEnc, h]

@[simp] theorem afterEnc_busy (k : State → State) (s : State) (h : s.enc.busy = true) : afterEnc k s = s := by
  simp [afterEnc, h]

/-- What ENC's going on leaves alone. -/
theorem encPump_frame (s : State) :
    (encPump s).orch = s.orch ∧ (encPump s).dec = s.dec ∧ (encPump s).spi = s.spi ∧ (encPump s).buf = s.buf ∧
    (encPump s).stimuli = s.stimuli := ⟨rfl, rfl, rfl, rfl, rfl⟩

/-- `enc.busy` says whether a character is left (R105). -/
theorem encPump_busy (s : State) : (encPump s).enc.busy = !(encPump s).enc.pending.isEmpty := rfl

theorem encCall_frame (b m : Byte) (f l e : Bool) (s : State) :
    (encCall b m f l e s).orch = s.orch ∧ (encCall b m f l e s).dec = s.dec ∧ (encCall b m f l e s).spi = s.spi ∧
    (encCall b m f l e s).buf = s.buf ∧ (encCall b m f l e s).stimuli = s.stimuli ∧
    ((encCall b m f l e s).enc.busy = !(encCall b m f l e s).enc.pending.isEmpty) := by
  unfold encCall
  split <;> exact ⟨rfl, rfl, rfl, rfl, rfl, rfl⟩

/-! ## What the interfaces saw -/

@[simp] theorem rxOf_append (a b : List Event) : rxOf (a ++ b) = rxOf a ++ rxOf b := by
  induction a with
  | nil => rfl
  | cons e es ih => cases e <;> simp [rxOf, ih]

@[simp] theorem txOf_append (a b : List Event) : txOf (a ++ b) = txOf a ++ txOf b := by
  induction a with
  | nil => rfl
  | cons e es ih => cases e <;> simp [txOf, ih]

@[simp] theorem pinsOf_append (a b : List Event) : pinsOf (a ++ b) = pinsOf a ++ pinsOf b := by
  induction a with
  | nil => rfl
  | cons e es ih => cases e <;> simp [pinsOf, ih]

@[simp] theorem rxOf_map_rx (cs : List Byte) : rxOf (cs.map Event.rx) = cs := by
  induction cs with
  | nil => rfl
  | cons c cs ih => simp [rxOf, ih]

@[simp] theorem txOf_map_rx (cs : List Byte) : txOf (cs.map Event.rx) = [] := by
  induction cs with
  | nil => rfl
  | cons c cs ih => simp [txOf, ih]

@[simp] theorem pinsOf_map_rx (cs : List Byte) : pinsOf (cs.map Event.rx) = [] := by
  induction cs with
  | nil => rfl
  | cons c cs ih => simp [pinsOf, ih]

@[simp] theorem rxOf_map_tx (cs : List Byte) : rxOf (cs.map Event.tx) = [] := by
  induction cs with
  | nil => rfl
  | cons c cs ih => simp [rxOf, ih]

@[simp] theorem txOf_map_tx (cs : List Byte) : txOf (cs.map Event.tx) = cs := by
  induction cs with
  | nil => rfl
  | cons c cs ih => simp [txOf, ih]

@[simp] theorem pinsOf_map_tx (cs : List Byte) : pinsOf (cs.map Event.tx) = [] := by
  induction cs with
  | nil => rfl
  | cons c cs ih => simp [pinsOf, ih]

theorem edgeEvents_views (o i : Byte) (n : Nat) :
    rxOf (edgeEvents o i n) = [] ∧ txOf (edgeEvents o i n) = [] ∧ pinsOf (edgeEvents o i n) = edgeEvents o i n := by
  induction n with
  | zero => exact ⟨rfl, rfl, rfl⟩
  | succ n ih => simp [edgeEvents, rxOf, txOf, pinsOf, ih]

/-- A transfer is seen at the pins and nowhere else. -/
@[simp] theorem rxOf_transfer (o i : Byte) (f l : Bool) : rxOf (transferEvents o i f l) = [] := by
  cases f <;> cases l <;> simp [transferEvents, rxOf, edgeEvents_views]

@[simp] theorem txOf_transfer (o i : Byte) (f l : Bool) : txOf (transferEvents o i f l) = [] := by
  cases f <;> cases l <;> simp [transferEvents, txOf, edgeEvents_views]

@[simp] theorem pinsOf_transfer (o i : Byte) (f l : Bool) :
    pinsOf (transferEvents o i f l) = transferEvents o i f l := by
  cases f <;> cases l <;> simp [transferEvents, pinsOf, edgeEvents_views]

end Sys2Proof.Machine
end

