-- ==== Sys2Proof/Laws/Spi.lean ====
section
/-! SUPPORT. What one transfer does, once and for all: `spiXferOp_free` is the lemma to cite. -/

namespace Sys2Proof.Machine

/-- A driver that is ready has nothing to wait for. -/
@[simp] theorem spiRun_ready (n : Nat) (p : Spi) (e : Env) (h : p.ready = true) : spiRun n p e = ⟨p, e, []⟩ := by
  cases n <;> simp [spiRun, h]

theorem spiWait_ready (s : State) (h : s.spi.ready = true) : spiWait s = s := by
  simp [spiWait, h]

/-- The input register after these samples. -/
def shiftSamples : Byte → List Bool → Byte
  | x, [] => x
  | x, b :: bs => shiftSamples (x.extractLsb' 0 7 ++ BitVec.ofBool b : BitVec 8) bs

/-- The pin events of these samples, the last of them bit 0. -/
def sampleEvents (out : Byte) : List Bool → List Event
  | [] => []
  | b :: bs =>
    [.sck true, .miso b, .sck false, .mosi (decide (0 < bs.length) && out.getLsbD (bs.length - 1))]
      ++ sampleEvents out bs

@[simp] theorem nextBits_length (n : Nat) (e : Env) : (Env.nextBits n e).1.length = n := by
  induction n generalizing e with
  | zero => rfl
  | succ n ih => simp [Env.nextBits, ih]

/-- A left shift with zero fill is the falling edge's shift (R12). -/
theorem shift_zero_fill (x : Byte) : (x.extractLsb' 0 7 ++ 0#1 : BitVec 8) = x <<< 1 := by
  revert x; decide +kernel

/-- The level of data-out after `k` shifts (R12). -/
theorem msb_shiftLeft (x : Byte) (k : Nat) (hk : k ≤ 8) :
    (x <<< k).msb = (decide (k < 8) && x.getLsbD (7 - k)) := by
  interval_cases k <;> simp [BitVec.msb_eq_getLsbD_last]

/-- The rest of a transfer with `n` bits to go (R123). -/
theorem spiRun_bits (n : Nat) (p : Spi) (e : Env) (out : Byte) (hn : n ≤ 8) (hr : p.ready = false)
    (hk : p.sck = false) (hb : p.bit.val = 8 - n) (ho : p.shOut = out <<< (8 - n)) :
    spiRun (2 * n + 1) p e =
      ⟨{ p with cs := if p.last = true then false else p.cs, shOut := 0,
                shIn := shiftSamples p.shIn (Env.nextBits n e).1, bit := 8, ready := true },
       (Env.nextBits n e).2,
       sampleEvents out (Env.nextBits n e).1 ++ (if p.last = true then [.cs false] else [])⟩ := by
  induction n generalizing p e with
  | zero =>
    have h8 : p.bit = 8 := Fin.ext hb
    have hz : p.shOut = 0 := by rw [ho]; ext i hi; simp
    obtain ⟨cs, sck, shOut, shIn, bit, last, ready⟩ := p
    simp only at hr hk h8 hz
    subst hr hk h8 hz
    simp [spiRun, spiTick, spiComplete, Env.nextBits, shiftSamples, sampleEvents]
  | succ n ih =>
    have hne : p.bit ≠ 8 := by intro h; rw [h] at hb; simp at hb; omega
    have hbit : (p.bit + 1).val = 8 - n := by
      have : p.bit.val < 8 := by omega
      rw [Fin.val_add]; simp; omega
    rw [show 2 * (n + 1) + 1 = (2 * n + 1) + 2 from by ring]
    have hstep : spiRun ((2 * n + 1) + 2) p e =
        let v := e.sample
        let r := spiRun (2 * n + 1)
          { p with sck := false, shOut := p.shOut <<< 1,
                   shIn := p.shIn.extractLsb' 0 7 ++ BitVec.ofBool v.1, bit := p.bit + 1 } v.2
        { r with events :=
          [.sck true, .miso v.1, .sck false, .mosi (p.shOut <<< 1).msb] ++ r.events } := by
      simp [spiRun, spiTick, spiRise, spiFall, hr, hk, hne, Spi.mosi, shift_zero_fill]
    rw [hstep]
    have hshift : p.shOut <<< 1 = out <<< (8 - n) := by
      rw [ho, ← BitVec.shiftLeft_add]; congr 1; omega
    simp only [hshift]
    rw [ih
      { p with sck := false, shOut := out <<< (8 - n), shIn := p.shIn.extractLsb' 0 7 ++ BitVec.ofBool e.sample.1,
               bit := p.bit + 1 } e.sample.2 (by omega) hr rfl hbit rfl, msb_shiftLeft _ _ (by omega)]
    simp only [Env.nextBits, shiftSamples, sampleEvents, nextBits_length, hk]
    have h2 : 0 < n → 7 - (8 - n) = n - 1 := by omega
    rcases Nat.eq_zero_or_pos n with h0 | h0
    · subst h0; simp
    · simp [h2 h0]

/-- One sample at the low end (R13). -/
theorem shiftIn_toNat (x : Byte) (b : Bool) :
    (x.extractLsb' 0 7 ++ BitVec.ofBool b : BitVec 8).toNat = (2 * x.toNat + b.toNat) % 256 := by
  revert x b; decide +kernel

/-- The number read from samples, on top of a number already read. -/
theorem foldl_samples (bs : List Bool) (n : Nat) :
    bs.foldl (fun n v => 2 * n + v.toNat) n = n * 2 ^ bs.length + bs.foldl (fun n v => 2 * n + v.toNat) 0 := by
  induction bs generalizing n with
  | nil => simp
  | cons b bs ih =>
    rw [List.foldl_cons, List.foldl_cons, ih (2 * n + b.toNat), ih (2 * 0 + b.toNat)]
    simp only [List.length_cons, pow_succ]
    ring

theorem shiftSamples_toNat (bs : List Bool) (x : Byte) :
    (shiftSamples x bs).toNat = bs.foldl (fun n v => 2 * n + v.toNat) x.toNat % 256 := by
  induction bs generalizing x with
  | nil => simp [shiftSamples, Nat.mod_eq_of_lt x.isLt]
  | cons b bs ih =>
    rw [shiftSamples, ih, List.foldl_cons, shiftIn_toNat, foldl_samples bs ((2 * x.toNat + b.toNat) % 256),
      foldl_samples bs (2 * x.toNat + b.toNat), Nat.add_mod, Nat.mod_mul_mod, ← Nat.add_mod]

/-- After eight samples nothing of the old input register is left (R13). -/
theorem shiftSamples_eight (x : Byte) (bs : List Bool) (h : bs.length = 8) : shiftSamples x bs = byteOfBits bs := by
  apply BitVec.eq_of_toNat_eq
  rw [shiftSamples_toNat, foldl_samples, h, byteOfBits, BitVec.toNat_ofNat]
  omega

theorem sampleEvents_eight (out : Byte) (bs : List Bool) (h : bs.length = 8) :
    sampleEvents out bs = edgeEvents out (byteOfBits bs) 8 := by
  match bs, h with
  | [b0, b1, b2, b3, b4, b5, b6, b7], _ =>
    have hb : ∀ b0 b1 b2 b3 b4 b5 b6 b7 : Bool,
        (byteOfBits [b0, b1, b2, b3, b4, b5, b6, b7]).getLsbD 7 = b0 ∧
        (byteOfBits [b0, b1, b2, b3, b4, b5, b6, b7]).getLsbD 6 = b1 ∧
        (byteOfBits [b0, b1, b2, b3, b4, b5, b6, b7]).getLsbD 5 = b2 ∧
        (byteOfBits [b0, b1, b2, b3, b4, b5, b6, b7]).getLsbD 4 = b3 ∧
        (byteOfBits [b0, b1, b2, b3, b4, b5, b6, b7]).getLsbD 3 = b4 ∧
        (byteOfBits [b0, b1, b2, b3, b4, b5, b6, b7]).getLsbD 2 = b5 ∧
        (byteOfBits [b0, b1, b2, b3, b4, b5, b6, b7]).getLsbD 1 = b6 ∧
        (byteOfBits [b0, b1, b2, b3, b4, b5, b6, b7]).getLsbD 0 = b7 := by decide +kernel
    obtain ⟨h7, h6, h5, h4, h3, h2, h1, h0⟩ := hb b0 b1 b2 b3 b4 b5 b6 b7
    simp only [sampleEvents, edgeEvents, h7, h6, h5, h4, h3, h2, h1, h0, List.length_cons, List.length_nil]

/-- The registers of the driver after a transfer (R121, R122, R123). -/
def afterTransfer (p : Spi) (byteIn : Byte) (first last : Bool) : Spi :=
  { cs := if last = true then false else if first = true then true else p.cs, sck := false, shOut := 0,
    shIn := byteIn, bit := 8, last := last, ready := true }

/-- The whole effect of a transfer on a free bus. -/
theorem spiXferOp_free (out : Byte) (first last : Bool) (s : State) (h : s.BusFree) :
    spiXferOp out first last s =
      (s.env.nextByte.1,
       { s with spi := afterTransfer s.spi s.env.nextByte.1 first last, env := s.env.nextByte.2,
                trace := s.trace ++ transferEvents out s.env.nextByte.1 first last }) := by
  obtain ⟨hr, hk⟩ := h
  have hbits := spiRun_bits 8 (spiAccept out first last s.spi) s.env out (le_refl 8) rfl hk rfl
    (by simp [spiAccept])
  have hl : (Env.nextBits 8 s.env).1.length = 8 := nextBits_length 8 s.env
  have hm : out.msb = out.getLsbD 7 := by simp [BitVec.msb_eq_getLsbD_last]
  simp only [spiXferOp, spiWait_ready s hr]
  simp only [spiWait, spiRequest, transferTicks]
  rw [hbits]
  simp [afterTransfer, transferEvents, acceptEvents, spiAccept, Env.nextByte, shiftSamples_eight _ _ hl,
    sampleEvents_eight _ _ hl, hm, hk]

/-- The data-in line's surroundings change in nothing but the samples. -/
theorem nextBits_env (n : Nat) (e : Env) :
    (Env.nextBits n e).2.rx = e.rx ∧ (Env.nextBits n e).2.txReady = e.txReady ∧ (Env.nextBits n e).2.rst = e.rst := by
  induction n generalizing e with
  | zero => exact ⟨rfl, rfl, rfl⟩
  | succ n ih =>
    have hs : e.sample.2.rx = e.rx ∧ e.sample.2.txReady = e.txReady ∧ e.sample.2.rst = e.rst := by
      unfold Env.sample; split <;> exact ⟨rfl, rfl, rfl⟩
    simpa [Env.nextBits, hs] using ih e.sample.2

@[simp] theorem nextByte_rx (e : Env) : e.nextByte.2.rx = e.rx := (nextBits_env 8 e).1
@[simp] theorem nextByte_txReady (e : Env) : e.nextByte.2.txReady = e.txReady := (nextBits_env 8 e).2.1
@[simp] theorem nextByte_rst (e : Env) : e.nextByte.2.rst = e.rst := (nextBits_env 8 e).2.2

/-- A transfer leaves the bus free. -/
theorem afterTransfer_free (p : Spi) (b : Byte) (f l : Bool) :
    (afterTransfer p b f l).ready = true ∧ (afterTransfer p b f l).sck = false := ⟨rfl, rfl⟩

theorem spiLaw_afterTransfer (p : Spi) (b : Byte) (f l : Bool) : spiLaw (afterTransfer p b f l) :=
  ⟨rfl, rfl, rfl, Or.inr rfl⟩

end Sys2Proof.Machine
end

