-- ==== Sys2Proof/Laws/Orch.lean ====
section
/-! SUPPORT. What the shared shapes of the orchestrator's rules do: a decoding rule, an encoder call, a transfer. -/

namespace Sys2Proof.Machine

/-- A transfer on a free bus, in the words of the claims. -/
theorem spiXferOp_withTransfer (out : Byte) (f l : Bool) (s : State) (h : s.BusFree) :
    spiXferOp out f l s = (s.env.nextByte.1, s.withTransfer out f l) := by
  rw [spiXferOp_free out f l s h]
  rfl

/-- After a transfer the bus is free again. -/
theorem withTransfer_free (s : State) (out : Byte) (f l : Bool) : (s.withTransfer out f l).BusFree := ⟨rfl, rfl⟩

/-- An accepted encoder call, in the words of the claims. -/
theorem encCall_withSent (b m : Byte) (f l e : Bool) (s : State) (hb : s.enc.busy = false)
    (h : s.env.txReady = []) : encCall b m f l e s = s.withSent (encChars b m f l e) :=
  encCall_accepted b m f l e s hb h

theorem encByteOp_withSent (b m : Byte) (f l e : Bool) (s : State) (h : s.env.txReady = []) :
    encByteOp b m f l e s = s.withSent (encChars b m f l e) :=
  encByteOp_accepted b m f l e s h

/-- ENC goes on with the call in flight, and the transport accepts all of it. -/
theorem encPump_withSent (s : State) (h : s.env.txReady = []) : encPump s = s.withSent s.enc.pending := by
  obtain ⟨o, d, e, p, b, ⟨rx, mi, n, tr, rst⟩, t, st⟩ := s
  simp only at h
  subst h
  simp [encPump, State.withSent]

/-- ENC goes on with the call in flight, and the transport stops before its end. -/
theorem encPump_withStalled (s : State) (k : Nat) (r : List Bool) (hk : k < s.enc.pending.length)
    (h : s.env.txReady = List.replicate k true ++ false :: r) : encPump s = s.withStalled s.enc.pending k r := by
  unfold encPump
  simp only [h, encDrain_stalls _ k r hk, State.withStalled]
  simpa using hk

/-- A new encoder call, and the transport stops before its end. -/
theorem encSend_withStalled (cs : List Byte) (s : State) (k : Nat) (r : List Bool) (hk : k < cs.length)
    (h : s.env.txReady = List.replicate k true ++ false :: r) : encSend cs s = s.withStalled cs k r :=
  encPump_withStalled { s with enc := { busy := true, pending := cs } } k r hk h

@[simp] theorem joinNibbles_eq_valueOf (x y : Nibble) : joinNibbles x y = valueOf x y := joinNibbles_value x y

/-- A new or a digitless request, before its first digit. -/
theorem decRequest_noDigit (d : Dec) (h : d.busy = true → d.haveHi = false) :
    decRequest d = { d with busy := true, haveHi := false } := by
  obtain ⟨f, e, s, b, hi, hh⟩ := d
  cases b
  · rfl
  · have : hh = false := h rfl
    subst this
    rfl

/-- Two digits arrive inside a frame (R93). -/
theorem decByteOp_digits (s : State) (c1 c2 : Byte) (v1 v2 : Nibble) (rest : List Byte) (he : s.dec.err = false)
    (hf : s.dec.inFrame = true) (hd : s.dec.busy = true → s.dec.haveHi = false) (h1 : hexval c1 = some v1)
    (h2 : hexval c2 = some v2) (hrx : s.env.rx = c1 :: c2 :: rest) :
    decByteOp s = (.byte (valueOf v1 v2), s.withDec
      { inFrame := true, err := false, sum := s.dec.sum + valueOf v1 v2, busy := false, hi := v1, haveHi := false }
      [c1, c2] rest) := by
  rw [decByteOp_ok s he, decRequest_noDigit _ hd, hrx, decScan_digits _ c1 c2 v1 v2 rest (by simpa) rfl h1 h2]
  simp [State.withDec, hf, he]

/-- A request, and the operation DecByte where it begins one. -/
theorem decodeGives (s : State) (a : DecAnswer) (t : State) (h : decByteOp s = (a, t)) : s.DecodeGives a t :=
  ⟨h, fun hb => by simp [exec, execDecByte, hb, h]⟩

/-- Nothing but junk arrives in the hunt: it is dropped and the request waits (R92, R93). -/
theorem decByteOp_junk (s : State) (he : s.dec.err = false) (hf : s.dec.inFrame = false) (hj : chDot ∉ s.env.rx) :
    decByteOp s = (.waiting, s.withDec (decRequest s.dec) s.env.rx []) := by
  have h := decScan_junk (decRequest s.dec) s.env.rx [] (by simpa) hj
  rw [List.append_nil] at h
  rw [decByteOp_ok s he, h]
  simp [decScan, State.withDec]

/-- The marker arrives in the hunt: the request, new or outstanding, goes on behind it in a fresh frame (R92). -/
theorem decByteOp_marker (s : State) (junk cs : List Byte) (r : DecScan) (he : s.dec.err = false)
    (hf : s.dec.inFrame = false) (hj : chDot ∉ junk) (hrx : s.env.rx = junk ++ chDot :: cs)
    (hr : decScan { s.dec with inFrame := true, sum := 0, busy := true, haveHi := false } cs = r) :
    decByteOp s = (r.answer, s.withDec r.dec (junk ++ chDot :: r.taken) r.rest) := by
  have hd : { decRequest s.dec with inFrame := true, sum := 0, haveHi := false } =
      { s.dec with inFrame := true, sum := 0, busy := true, haveHi := false } := by simp
  rw [decByteOp_ok s he, hrx, decScan_junk _ junk _ (by simpa) hj, decScan_marker _ _ (by simpa), hd, hr]
  simp [State.withDec]

/-- The marker and two digits arrive in the hunt (R92, R93). -/
theorem decByteOp_hunt (s : State) (junk rest : List Byte) (c1 c2 : Byte) (v1 v2 : Nibble) (he : s.dec.err = false)
    (hf : s.dec.inFrame = false) (hj : chDot ∉ junk) (h1 : hexval c1 = some v1) (h2 : hexval c2 = some v2)
    (hrx : s.env.rx = junk ++ chDot :: c1 :: c2 :: rest) :
    decByteOp s = (.byte (valueOf v1 v2), s.withDec
      { inFrame := true, err := false, sum := valueOf v1 v2, busy := false, hi := v1, haveHi := false }
      (junk ++ [chDot, c1, c2]) rest) := by
  rw [decByteOp_marker s junk _ _ he hf hj hrx (decScan_digits _ c1 c2 v1 v2 rest rfl rfl h1 h2)]
  simp [he]

/-- The marker and a bad character arrive in the hunt (R95; vector T40). -/
theorem decByteOp_hunt_bad_first (s : State) (junk rest : List Byte) (c : Byte) (he : s.dec.err = false)
    (hf : s.dec.inFrame = false) (hj : chDot ∉ junk) (h : hexval c = none)
    (hrx : s.env.rx = junk ++ chDot :: c :: rest) :
    decByteOp s = (.error, s.withDec
      { inFrame := true, err := true, sum := 0, busy := false, hi := s.dec.hi, haveHi := false }
      (junk ++ [chDot, c]) rest) :=
  decByteOp_marker s junk _ _ he hf hj hrx (decScan_bad_first _ c rest rfl rfl h)

/-- The marker, a digit and a bad character arrive in the hunt (R95; vector T75). -/
theorem decByteOp_hunt_bad_second (s : State) (junk rest : List Byte) (c1 c2 : Byte) (v : Nibble)
    (he : s.dec.err = false) (hf : s.dec.inFrame = false) (hj : chDot ∉ junk) (h1 : hexval c1 = some v)
    (h2 : hexval c2 = none) (hrx : s.env.rx = junk ++ chDot :: c1 :: c2 :: rest) :
    decByteOp s = (.error, s.withDec
      { inFrame := true, err := true, sum := 0, busy := false, hi := v, haveHi := false }
      (junk ++ [chDot, c1, c2]) rest) :=
  decByteOp_marker s junk _ _ he hf hj hrx (decScan_digit_bad _ c1 c2 v rest rfl rfl h1 h2)

/-- The two digits `hex2` writes. -/
theorem valueOf_nibbles (b : Byte) : valueOf (hiNibble b) (loNibble b) = b := by
  rw [← joinNibbles_eq_valueOf, join_nibbles]

/-- A byte as the frame builder writes it arrives inside a frame. -/
theorem decByteOp_hex2 (s : State) (b : Byte) (rest : List Byte) (he : s.dec.err = false)
    (hf : s.dec.inFrame = true) (hd : s.dec.busy = true → s.dec.haveHi = false) (hrx : s.env.rx = hex2 b ++ rest) :
    decByteOp s = (.byte b, s.withDec
      { inFrame := true, err := false, sum := s.dec.sum + b, busy := false, hi := hiNibble b, haveHi := false }
      (hex2 b) rest) := by
  have h := decByteOp_digits s (hexchar (hiNibble b)) (hexchar (loNibble b)) _ _ rest he hf hd
    (hexval_hexchar _) (hexval_hexchar _) (by simpa [hex2] using hrx)
  simpa [valueOf_nibbles, hex2] using h

/-- The first byte of a frame arrives in the hunt. -/
theorem decByteOp_hunt_hex2 (s : State) (b : Byte) (junk rest : List Byte) (he : s.dec.err = false)
    (hf : s.dec.inFrame = false) (hj : chDot ∉ junk) (hrx : s.env.rx = junk ++ chDot :: (hex2 b ++ rest)) :
    decByteOp s = (.byte b, s.withDec
      { inFrame := true, err := false, sum := b, busy := false, hi := hiNibble b, haveHi := false }
      (junk ++ chDot :: hex2 b) rest) := by
  have h := decByteOp_hunt s junk rest (hexchar (hiNibble b)) (hexchar (loNibble b)) _ _ he hf hj
    (hexval_hexchar _) (hexval_hexchar _) (by simpa [hex2] using hrx)
  simpa [valueOf_nibbles, hex2] using h

/-- A character that is no digit arrives inside a frame, in either position (R95). -/
theorem decByteOp_bad (s : State) (c : Byte) (rest : List Byte) (he : s.dec.err = false) (hf : s.dec.inFrame = true)
    (h : hexval c = none) (hrx : s.env.rx = c :: rest) :
    decByteOp s = (.error, s.withDec { s.dec with err := true, haveHi := false, busy := false } [c] rest) := by
  rw [decByteOp_ok s he, hrx]
  obtain ⟨o, ⟨f, er, su, b, hi, hh⟩, e, p, bu, en, t, st⟩ := s
  simp only at he hf
  subst he hf
  cases b <;> cases hh <;> simp [decRequest, decScan, decChar, h, State.withDec]

/-- A digit and then a bad character arrive inside a frame, for a request without a latched digit (R95). -/
theorem decByteOp_bad_second (s : State) (c1 c2 : Byte) (v : Nibble) (rest : List Byte) (he : s.dec.err = false)
    (hf : s.dec.inFrame = true) (hd : s.dec.busy = true → s.dec.haveHi = false) (h1 : hexval c1 = some v)
    (h2 : hexval c2 = none) (hrx : s.env.rx = c1 :: c2 :: rest) :
    decByteOp s = (.error, s.withDec { s.dec with err := true, hi := v, haveHi := false, busy := false } [c1, c2] rest) := by
  rw [decByteOp_ok s he, decRequest_noDigit _ hd, hrx, decScan_digit_bad _ c1 c2 v rest (by simpa) rfl h1 h2]
  simp [State.withDec]

/-- The second digit arrives for a request that holds the first (R26). -/
theorem decByteOp_latched (s : State) (c : Byte) (v : Nibble) (rest : List Byte) (he : s.dec.err = false)
    (hf : s.dec.inFrame = true) (hb : s.dec.busy = true) (hh : s.dec.haveHi = true) (h : hexval c = some v)
    (hrx : s.env.rx = c :: rest) :
    decByteOp s = (.byte (valueOf s.dec.hi v), s.withDec
      { s.dec with sum := s.dec.sum + valueOf s.dec.hi v, busy := false, haveHi := false } [c] rest) := by
  rw [decByteOp_ok s he, hrx]
  simp [decRequest, hb, decScan, decChar, hf, hh, h, State.withDec]

/-- One digit arrives inside a frame and then nothing: the request holds it and waits (R26). -/
theorem decByteOp_latches (s : State) (c : Byte) (v : Nibble) (he : s.dec.err = false) (hf : s.dec.inFrame = true)
    (hd : s.dec.busy = true → s.dec.haveHi = false) (h : hexval c = some v) (hrx : s.env.rx = [c]) :
    decByteOp s = (.waiting, s.withDec { s.dec with busy := true, hi := v, haveHi := true } [c] []) := by
  rw [decByteOp_ok s he, decRequest_noDigit _ hd, hrx]
  simp [decScan, decChar, hf, h, State.withDec]

/-- Nothing arrives: the request waits as it is (R93). -/
theorem decByteOp_nothing (s : State) (hrx : s.env.rx = []) :
    decByteOp s = (.waiting, { s with dec := decRequest s.dec }) := by
  obtain ⟨o, d, e, p, bu, ⟨rx, mi, n, tr, rst⟩, t, st⟩ := s
  simp only at hrx
  subst hrx
  simp [decByteOp, decScan]

/-- What a decode request leaves alone. -/
theorem decByteOp_frame (s : State) :
    (decByteOp s).2.orch = s.orch ∧ (decByteOp s).2.enc = s.enc ∧ (decByteOp s).2.spi = s.spi ∧
    (decByteOp s).2.buf = s.buf ∧ (decByteOp s).2.stimuli = s.stimuli ∧
    (decByteOp s).2.env.miso = s.env.miso ∧ (decByteOp s).2.env.samples = s.env.samples ∧
    (decByteOp s).2.env.txReady = s.env.txReady ∧ (decByteOp s).2.env.rst = s.env.rst ∧
    pinsOf (decByteOp s).2.trace = pinsOf s.trace ∧ txOf (decByteOp s).2.trace = txOf s.trace ∧
    rxOf (decByteOp s).2.trace ++ (decByteOp s).2.env.rx = rxOf s.trace ++ s.env.rx := by
  unfold decByteOp
  split
  · simp
  · simp [decScan_conserves]

/-- What an encoder call leaves alone besides. -/
theorem encCall_frame_env (b m : Byte) (f l e : Bool) (s : State) :
    (encCall b m f l e s).env.rx = s.env.rx ∧ (encCall b m f l e s).env.miso = s.env.miso ∧
    (encCall b m f l e s).env.samples = s.env.samples ∧ (encCall b m f l e s).env.rst = s.env.rst ∧
    pinsOf (encCall b m f l e s).trace = pinsOf s.trace ∧ rxOf (encCall b m f l e s).trace = rxOf s.trace := by
  unfold encCall
  split <;> simp [encByteOp, encSend, encPump]

/-- The bus free or not, what a wait for the driver and a transfer leave alone. -/
theorem spiRun_views (n : Nat) (p : Spi) (e : Env) :
    (spiRun n p e).env.rx = e.rx ∧ (spiRun n p e).env.txReady = e.txReady ∧ (spiRun n p e).env.rst = e.rst ∧
    rxOf (spiRun n p e).events = [] ∧ txOf (spiRun n p e).events = [] := by
  induction n generalizing p e with
  | zero => simp [spiRun, rxOf, txOf]
  | succ n ih =>
    have ht : (spiTick p e).env.rx = e.rx ∧ (spiTick p e).env.txReady = e.txReady ∧
        (spiTick p e).env.rst = e.rst ∧ rxOf (spiTick p e).events = [] ∧ txOf (spiTick p e).events = [] := by
      unfold spiTick
      split
      · simp [spiFall, rxOf, txOf]
      · split
        · unfold spiComplete
          dsimp only
          split <;> simp [rxOf, txOf]
        · unfold spiRise Env.sample
          dsimp only
          split <;> simp [rxOf, txOf]
    unfold spiRun
    split
    · simp [rxOf, txOf]
    · have := ih (spiTick p e).spi (spiTick p e).env
      simp [this, ht]

theorem spiXferOp_frame (out : Byte) (f l : Bool) (s : State) :
    (spiXferOp out f l s).2.orch = s.orch ∧ (spiXferOp out f l s).2.dec = s.dec ∧
    (spiXferOp out f l s).2.enc = s.enc ∧ (spiXferOp out f l s).2.buf = s.buf ∧
    (spiXferOp out f l s).2.stimuli = s.stimuli ∧ (spiXferOp out f l s).2.env.rx = s.env.rx ∧
    (spiXferOp out f l s).2.env.txReady = s.env.txReady ∧ (spiXferOp out f l s).2.env.rst = s.env.rst ∧
    rxOf (spiXferOp out f l s).2.trace = rxOf s.trace ∧ txOf (spiXferOp out f l s).2.trace = txOf s.trace := by
  cases f <;> simp [spiXferOp, spiWait, spiRequest, acceptEvents, spiRun_views, rxOf, txOf]

theorem spiWait_frame (s : State) :
    (spiWait s).orch = s.orch ∧ (spiWait s).dec = s.dec ∧ (spiWait s).enc = s.enc ∧ (spiWait s).buf = s.buf ∧
    (spiWait s).stimuli = s.stimuli ∧ (spiWait s).env.rx = s.env.rx ∧ (spiWait s).env.txReady = s.env.txReady ∧
    (spiWait s).env.rst = s.env.rst ∧ rxOf (spiWait s).trace = rxOf s.trace ∧
    txOf (spiWait s).trace = txOf s.trace := by
  simp [spiWait, spiRun_views]

/-- What a decoding rule answers: what the byte is for, or ERR, or the wait. -/
theorem withByte_cases (k : Byte → State → Host.Outcome State Fault Refusal) (s : State) :
    (∃ b, (decByteOp s).1 = .byte b ∧ withByte k s = k b (decByteOp s).2) ∨
    ((decByteOp s).1 = .error ∧ withByte k s = .next (takeDecodeError (decByteOp s).2)) ∨
    ((decByteOp s).1 = .waiting ∧ withByte k s = .next (decByteOp s).2) := by
  unfold withByte
  rcases h : decByteOp s with ⟨a, t⟩
  cases a <;> simp

end Sys2Proof.Machine
end

