-- ==== Sys2Proof/Laws/Growth.lean ====
section
/-! SUPPORT. Every operation and every rule only adds events behind those that have happened (00_scope R8,
20_memory R47) and leaves the coming levels of `rst`. -/

namespace Sys2Proof.Machine

/-- `t` is `s` after some more events. -/
def Grows (s t : State) : Prop := (∃ evs, t.trace = s.trace ++ evs) ∧ t.env.rst = s.env.rst

theorem Grows.same {s t : State} (h : t.trace = s.trace) (hr : t.env.rst = s.env.rst) : Grows s t :=
  ⟨⟨[], by simp [h]⟩, hr⟩

theorem Grows.trans {s t u : State} (h : Grows s t) (k : Grows t u) : Grows s u := by
  obtain ⟨⟨a, ha⟩, hr⟩ := h
  obtain ⟨⟨b, hb⟩, kr⟩ := k
  exact ⟨⟨a ++ b, by rw [hb, ha, List.append_assoc]⟩, kr.trans hr⟩

theorem grows_decByteOp (s : State) : Grows s (decByteOp s).2 := by
  unfold decByteOp
  split
  · exact .same rfl rfl
  · exact ⟨⟨_, rfl⟩, rfl⟩

theorem grows_encPump (s : State) : Grows s (encPump s) := ⟨⟨_, rfl⟩, rfl⟩

theorem grows_encSend (cs : List Byte) (s : State) : Grows s (encSend cs s) := ⟨⟨_, rfl⟩, rfl⟩

theorem grows_encCall (b m : Byte) (f l e : Bool) (s : State) : Grows s (encCall b m f l e s) := by
  unfold encCall
  split
  · exact grows_encPump s
  · exact grows_encSend _ s

theorem grows_spiWait (s : State) : Grows s (spiWait s) := ⟨⟨_, rfl⟩, (spiRun_views _ _ _).2.2.1⟩

theorem grows_spiXferOp (o : Byte) (f l : Bool) (s : State) : Grows s (spiXferOp o f l s).2 :=
  ((grows_spiWait s).trans (t := spiWait s) (u := spiRequest o f l (spiWait s)) ⟨⟨_, rfl⟩, rfl⟩).trans
    (grows_spiWait _)

/-- What follows an encoder call adds no event of its own. -/
theorem grows_afterEnc (k : State → State) (s : State) (h : Grows s (k s)) : Grows s (afterEnc k s) := by
  unfold afterEnc
  split
  · exact .same rfl rfl
  · exact h

theorem grows_reportError (s : State) : Grows s (reportError s) :=
  (grows_encCall _ _ _ _ _ s).trans (grows_afterEnc _ _ (.same rfl rfl))

theorem grows_start (s t : State) (h : execStart s = .next t) : Grows s t := by
  cases h
  exact ((((Grows.same (s := s) (t := (decReset s).setIdx 0) rfl rfl).trans (grows_spiWait _)).trans
    (grows_spiXferOp _ _ _ _)).trans (grows_spiXferOp _ _ _ _)).trans (.same rfl rfl)

theorem grows_pollReady (s t : State) (h : execPollReady s = .next t) : Grows s t := by
  simp only [execPollReady] at h
  split at h <;> cases h
  · exact (grows_spiXferOp _ _ _ _).trans (.same rfl rfl)
  · exact ((grows_spiXferOp _ _ _ _).trans (grows_spiXferOp _ _ _ _)).trans (.same rfl rfl)

theorem grows_withByte (k : Byte → State → Host.Outcome State Fault Refusal) (s t : State)
    (hk : ∀ b u v, k b u = .next v → Grows u v) (h : withByte k s = .next t) : Grows s t := by
  rcases withByte_cases k s with ⟨b, _, h2⟩ | ⟨_, h2⟩ | ⟨_, h2⟩ <;> rw [h2] at h
  · exact (grows_decByteOp s).trans (hk b _ t h)
  · cases h
    exact (grows_decByteOp s).trans (.same rfl rfl)
  · cases h
    exact grows_decByteOp s

theorem grows_storeByte (b : Byte) (s t : State) (h : storeByte b s = .next t) : Grows s t := by
  simp only [storeByte, writeAtIdx, memWrite] at h
  split at h <;> rename_i hw <;> split at hw <;> cases hw <;> cases h
  exact .same rfl rfl

theorem grows_readData (s t : State) (h : execReadData s = .next t) : Grows s t := by
  simp only [execReadData] at h
  split at h
  · cases h
    exact .same rfl rfl
  · exact grows_withByte _ s t grows_storeByte h

theorem grows_run (s t : State) (h : execRun s = .next t) : Grows s t := by
  simp only [execRun, runWith] at h
  split at h
  · split at h <;> cases h
    · exact (grows_encCall _ _ _ _ _ s).trans (grows_afterEnc _ _ (.same rfl rfl))
    · exact .same rfl rfl
  · cases h
    exact grows_reportError s

theorem grows_spiWrite (s t : State) (h : execSpiWrite s = .next t) : Grows s t := by
  simp only [execSpiWrite] at h
  split at h
  · split at h <;> cases h
    exact (grows_spiXferOp _ _ _ s).trans (.same rfl rfl)
  · split at h <;> cases h
    · exact (grows_encCall _ _ _ _ _ s).trans (grows_afterEnc _ _ (.same rfl rfl))
    · exact .same rfl rfl

theorem grows_returnByte (d : Byte) (s t : State) (h : returnByte d s = .next t) : Grows s t := by
  simp only [returnByte, writeAtIdx, memWrite] at h
  split at h <;> rename_i hw <;> split at hw <;> cases hw <;> cases h
  exact (Grows.same (s := s) rfl rfl).trans
    ((grows_encSend _ _).trans (grows_afterEnc _ _ (.same rfl rfl)))

theorem grows_spiRead (s t : State) (h : execSpiRead s = .next t) : Grows s t := by
  simp only [execSpiRead] at h
  split at h
  · cases h
    exact .same rfl rfl
  · split at h
    · cases h
      exact (grows_encPump s).trans (grows_afterEnc _ _ (.same rfl rfl))
    · exact (grows_spiXferOp _ _ _ s).trans (grows_returnByte _ _ t h)

/-- Every rule of ORCH only adds events. -/
theorem grows_orchRule (s t : State) (h : orchRule s = .next t) : Grows s t := by
  unfold orchRule at h
  split at h
  · exact grows_start s t h
  · exact grows_pollReady s t h
  · exact grows_withByte _ s t (fun _ _ _ h => by cases h; exact .same rfl rfl) h
  · exact grows_withByte _ s t (fun _ _ _ h => by cases h; exact .same rfl rfl) h
  · exact grows_readData s t h
  · exact grows_withByte _ s t (fun _ _ _ h => by cases h; exact .same rfl rfl) h
  · exact grows_run s t h
  · exact grows_spiWrite s t h
  · cases h
    exact (grows_spiXferOp _ _ _ s).trans (.same rfl rfl)
  · exact grows_spiRead s t h
  · cases h
    exact grows_reportError s

/-- And so does a pass. -/
theorem grows_runPass (n : Nat) (s t : State) (h : runPass n s = .next t) : Grows s t := by
  induction n generalizing s with
  | zero => cases h; exact .same rfl rfl
  | succ n ih =>
    simp only [runPass] at h
    split at h
    · cases h; exact .same rfl rfl
    · rcases hr : orchRule s with u | f | r <;> rw [hr] at h <;> simp only [reduceCtorEq] at h
      have := grows_orchRule s u hr
      split at h
      · cases h; exact this
      · exact this.trans (ih u h)

theorem grows_handleText (cs : List Byte) (s t : State) (h : handleText cs s = .next t) : Grows s t :=
  (Grows.same (s := s) (t := offerRx cs s) rfl rfl).trans (grows_runPass _ _ t h)

end Sys2Proof.Machine
end

