-- ==== Sys2Proof/Laws/Pass.lean ====
section
/-! SUPPORT. How a pass of ORCH over its rules goes: one rule at a time, and the three loops READ_DATA, SPI_WRITE
and SPI_READ as a whole. `pass_readData`, `pass_spiWrite` and `pass_spiRead` are the lemmas to cite. -/

namespace Sys2Proof.Machine

/-! ## One rule -/

theorem runPass_step (n : Nat) (s t : State) (hb : s.betweenRequests = false) (hr : orchRule s = .next t)
    (hw : t.waiting = false) : runPass (n + 1) s = runPass n t := by
  simp [runPass, hb, hr, hw]

theorem runPass_stop (n : Nat) (s : State) (hb : s.betweenRequests = true) : runPass n s = .next s := by
  cases n <;> simp [runPass, hb]

/-! ## Several cells -/

/-- The buffer with these bytes from `i` on. -/
def Memory.setAll (m : Memory) : Nat → List Byte → Memory
  | _, [] => m
  | i, b :: bs => Memory.setAll (m.set i b) (i + 1) bs

theorem Memory.get_setAll (bs : List Byte) (m : Memory) (i a : Nat) :
    (m.setAll i bs).get a = if i ≤ a ∧ a < i + bs.length then bs[a - i]? else m.get a := by
  induction bs generalizing m i with
  | nil =>
    rw [if_neg (by simp only [List.length_nil]; omega)]
    rfl
  | cons b bs ih =>
    rw [Memory.setAll, ih, Memory.get_set]
    simp only [List.length_cons]
    rcases Nat.lt_trichotomy a i with h | h | h
    · rw [if_neg (by omega), if_neg (by omega), if_neg (by omega)]
    · subst h; simp
    · have h1 : a - i = (a - (i + 1)) + 1 := by omega
      by_cases h2 : a < i + (bs.length + 1)
      · rw [if_pos (by omega), if_pos (by omega), h1, List.getElem?_cons_succ]
      · rw [if_neg (by omega), if_neg (by omega), if_neg (by omega)]

/-! ## The cursor -/

theorem cursor_ne (a b : Byte) (k : Nat) (h : b.toNat = a.toNat + (k + 1)) :
    a ≠ b ∧ a ≠ 255 ∧ a.toNat < Config.bufDepth ∧ (a + 1).toNat = a.toNat + 1 ∧ a + 1 ≠ 0 := by
  have hb := b.isLt
  refine ⟨fun h' => by rw [h'] at h; omega, fun h' => by rw [h'] at h; simp at h; omega, ?_, ?_, ?_⟩
  · simp only [Config.bufDepth]; omega
  · bv_omega
  · intro h'
    have h2 : (a + 1).toNat = a.toNat + 1 := by bv_omega
    rw [h'] at h2
    simp at h2

theorem cursor_last (a b : Byte) (k : Nat) (h : b.toNat = a.toNat + (k + 1)) :
    decide (a = b - 1) = decide (k = 0) := by
  have hb := b.isLt
  by_cases hk : k = 0
  · have : a = b - 1 := by bv_omega
    simp [this, hk]
  · have : a ≠ b - 1 := by bv_omega
    simp only [this, hk]

/-! ## READ_DATA -/

theorem orchRule_readData_byte (s : State) (b : Byte) (rest : List Byte) (hq : s.orch.state = .readData)
    (hne : s.orch.idx ≠ s.orch.byteCount) (hlt : s.orch.idx.toNat < Config.bufDepth) (he : s.dec.err = false)
    (hf : s.dec.inFrame = true) (hd : s.dec.busy = false) (hrx : s.env.rx = hex2 b ++ rest) :
    orchRule s = .next { s.withDec
      { inFrame := true, err := false, sum := s.dec.sum + b, busy := false, hi := hiNibble b, haveHi := false }
      (hex2 b) rest with
      buf := s.buf.set s.orch.idx.toNat b, orch := { s.orch with idx := s.orch.idx + 1, state := .readData } } := by
  have h := decByteOp_hex2 s b rest he hf (by simp [hd]) hrx
  have hlt' : (s.withDec
      { inFrame := true, err := false, sum := s.dec.sum + b, busy := false, hi := hiNibble b, haveHi := false }
      (hex2 b) rest).orch.idx.toNat < Config.bufDepth := hlt
  simp only [orchRule, hq, execReadData, State.payloadDone, hne, decide_false, Bool.false_eq_true, if_false, withByte,
    h, storeByte, writeAtIdx, memWrite, if_pos hlt']
  rfl

/-- READ_DATA takes the payload from RX into the buffer and goes on to CHECKSUM (R146). -/
theorem pass_readData (q rest : List Byte) (n : Nat) (s : State) (hq : s.orch.state = .readData)
    (hc : s.orch.byteCount.toNat = s.orch.idx.toNat + q.length) (he : s.dec.err = false)
    (hf : s.dec.inFrame = true) (hd : s.dec.busy = false) (hh : s.dec.haveHi = false) (hb : s.enc.busy = false)
    (hrx : s.env.rx = hexBytes q ++ rest) :
    ∃ hi, runPass (n + 1 + q.length) s = runPass n
      { s.withDec { inFrame := true, err := false, sum := s.dec.sum + byteSum q, busy := false, hi := hi,
                    haveHi := false } (hexBytes q) rest with
        buf := s.buf.setAll s.orch.idx.toNat q,
        orch := { s.orch with idx := s.orch.byteCount, state := .checksum } } := by
  induction q generalizing s with
  | nil =>
    have hi : s.orch.idx = s.orch.byteCount := BitVec.eq_of_toNat_eq (by simpa using hc.symm)
    refine ⟨s.dec.hi, ?_⟩
    rw [show n + 1 + ([] : List Byte).length = n + 1 from rfl,
      runPass_step n s (s.goto .checksum) (by simp [State.betweenRequests, hq])
        (by simp [orchRule, hq, execReadData, State.payloadDone, hi]) (by simp [State.waiting, hb, hd])]
    obtain ⟨⟨q0, bc, rb, ix⟩, ⟨f, e, su, b, hi', hh'⟩, en, p, bu, ev, t, st⟩ := s
    simp only at *
    subst he hf hd hh hi
    simp [State.goto, State.withDec, hexBytes, byteSum, Memory.setAll, ← show ev.rx = rest from by simpa [hexBytes] using hrx]
  | cons b bs ih =>
    obtain ⟨h1, h2, h3, h4, h5⟩ := cursor_ne _ _ _ (by simpa using hc)
    have hr := orchRule_readData_byte s b (hexBytes bs ++ rest) hq h1 h3 he hf hd
      (by rw [hrx, hexBytes, List.append_assoc])
    obtain ⟨hi, h⟩ := ih (s := { s.withDec
        { inFrame := true, err := false, sum := s.dec.sum + b, busy := false, hi := hiNibble b, haveHi := false }
        (hex2 b) (hexBytes bs ++ rest) with
        buf := s.buf.set s.orch.idx.toNat b, orch := { s.orch with idx := s.orch.idx + 1, state := .readData } })
      rfl (by
        show s.orch.byteCount.toNat = (s.orch.idx + 1).toNat + bs.length
        rw [h4, hc, List.length_cons]; omega) rfl rfl rfl rfl hb rfl
    refine ⟨hi, ?_⟩
    rw [show n + 1 + (b :: bs).length = (n + 1 + bs.length) + 1 from by simp; omega,
      runPass_step _ s _ (by simp [State.betweenRequests, hq]) hr (by simp [State.waiting, State.withDec, hb]), h]
    have hmod : (s.orch.idx.toNat + 1) % 256 = s.orch.idx.toNat + 1 := by
      simp only [Config.bufDepth] at h3
      omega
    simp [State.withDec, hexBytes, byteSum, Memory.setAll, hmod, BitVec.add_assoc]

/-! ## SPI_WRITE -/

theorem orchRule_spiWrite_byte (s : State) (v : Byte) (hq : s.orch.state = .spiWrite)
    (hne : s.orch.idx ≠ s.orch.byteCount) (hlt : s.orch.idx.toNat < Config.bufDepth) (hb : s.BusFree)
    (hv : s.buf.get s.orch.idx.toNat = some v) :
    orchRule s = .next { s.withTransfer v s.writeFirst s.writeLast with
      orch := { s.orch with idx := s.orch.idx + 1, state := .spiWrite } } := by
  simp only [orchRule, hq, execSpiWrite, State.payloadDone, hne, decide_false, if_true, readAtIdx, memRead,
    if_pos hlt, hv, spiXferOp_withTransfer _ _ _ _ hb]
  rfl

/-- SPI_WRITE sends the payload from the cursor on as transfers (R149). -/
theorem pass_spiWrite (q : List Byte) (n : Nat) (s : State) (hq : s.orch.state = .spiWrite)
    (hc : s.orch.byteCount.toNat = s.orch.idx.toNat + q.length)
    (hcells : ∀ k, k < q.length → s.buf.get (s.orch.idx.toNat + k) = q[k]?) (hb : s.BusFree)
    (hw : s.waiting = false) :
    ∃ p : Spi, (p.ready = true ∧ p.sck = false ∧
        p.cs = if q = [] then s.spi.cs else if s.orch.returnBytes = 0 then false else s.spi.cs || s.writeFirst) ∧
      runPass (n + q.length) s = runPass n
        { s with
          orch := { s.orch with idx := s.orch.byteCount }, spi := p,
          env := (transfers (payloadTriples s.orch.returnBytes s.writeFirst q) s.env).2.2,
          trace := s.trace ++ (transfers (payloadTriples s.orch.returnBytes s.writeFirst q) s.env).1 } := by
  induction q generalizing s with
  | nil =>
    have hi : s.orch.idx = s.orch.byteCount := BitVec.eq_of_toNat_eq (by simpa using hc.symm)
    refine ⟨s.spi, ⟨hb.1, hb.2, by simp⟩, ?_⟩
    have ho : { s.orch with idx := s.orch.byteCount } = s.orch := by rw [← hi]
    simp [payloadTriples, transfers, ho]
  | cons b bs ih =>
    obtain ⟨h1, h2, h3, h4, h5⟩ := cursor_ne _ _ _ (by simpa using hc)
    have hv : s.buf.get s.orch.idx.toNat = some b := by simpa using hcells 0 (by simp)
    have hr := orchRule_spiWrite_byte s b hq h1 h3 hb hv
    have hl : s.writeLast = (decide (bs.length = 0) && decide (s.orch.returnBytes = 0)) := by
      rw [State.writeLast, cursor_last _ _ bs.length (by simpa using hc)]
    obtain ⟨p, ⟨p1, p2, p3⟩, h⟩ := ih (s := { s.withTransfer b s.writeFirst s.writeLast with
        orch := { s.orch with idx := s.orch.idx + 1, state := .spiWrite } })
      rfl (by simp only [h4, hc, List.length_cons]; omega)
      (fun k hk => by
        have := hcells (k + 1) (by simpa using hk)
        rw [List.getElem?_cons_succ] at this
        rw [← this]
        show s.buf.get ((s.orch.idx + 1).toNat + k) = _
        congr 1
        omega) ⟨rfl, rfl⟩ hw
    have hwf : State.writeFirst { s.withTransfer b s.writeFirst s.writeLast with
        orch := { s.orch with idx := s.orch.idx + 1, state := .spiWrite } } = false := by
      simp only [State.writeFirst, h5, decide_false, Bool.false_and]
    rw [hwf] at h p3
    refine ⟨p, ⟨p1, p2, ?_⟩, ?_⟩
    · rw [p3]
      simp only [State.withTransfer, hl]
      cases bs with
      | nil => by_cases h0 : s.orch.returnBytes = 0 <;> (simp [h0]; try cases s.writeFirst <;> simp)
      | cons c cs => by_cases h0 : s.orch.returnBytes = 0 <;> (simp [h0]; try cases s.writeFirst <;> simp)
    · rw [show n + (b :: bs).length = (n + bs.length) + 1 from by simp; omega,
        runPass_step _ s _ (by simp [State.betweenRequests, hq]) hr hw, h]
      cases bs with
      | nil => simp [State.withTransfer, payloadTriples, transfers, hl, hq]
      | cons c cs => simp [State.withTransfer, payloadTriples, transfers, hl, hq]

/-! ## SPI_READ -/

theorem orchRule_spiRead_byte (s : State) (hq : s.orch.state = .spiRead) (hne : s.orch.idx ≠ s.orch.returnBytes)
    (hlt : s.orch.idx.toNat < Config.bufDepth) (hb : s.BusFree) (he : s.enc.busy = false) (ht : s.env.txReady = []) :
    orchRule s = .next
      { (s.withTransfer 0x00 false s.readLast).withSent
          (encChars s.env.nextByte.1 chDot s.readFirst s.readLast false) with
        buf := s.buf.set s.orch.idx.toNat s.env.nextByte.1,
        orch := { s.orch with idx := s.orch.idx + 1, state := .spiRead } } := by
  have hlt' : (s.withTransfer Config.fillByte false s.readLast).orch.idx.toNat < Config.bufDepth := hlt
  simp only [orchRule, hq, execSpiRead, State.readDone, hne, decide_false, Bool.false_eq_true, if_false, he,
    spiXferOp_withTransfer _ _ _ _ hb, returnByte, writeAtIdx, memWrite, if_pos hlt']
  rw [encByteOp_withSent _ _ _ _ _ _ (by simpa [State.withTransfer] using ht)]
  rfl

/-- The bytes received by transfers are as many as the transfers. -/
theorem transfers_length (ts : List Triple) (e : Env) : (transfers ts e).2.1.length = ts.length := by
  induction ts generalizing e with
  | nil => rfl
  | cons t ts ih => simp [transfers, ih]

/-- Transfers take nothing from RX and leave the transport's answers alone. -/
theorem transfers_env (ts : List Triple) (e : Env) :
    (transfers ts e).2.2.rx = e.rx ∧ (transfers ts e).2.2.txReady = e.txReady ∧ (transfers ts e).2.2.rst = e.rst := by
  induction ts generalizing e with
  | nil => exact ⟨rfl, rfl, rfl⟩
  | cons t ts ih => simpa [transfers] using ih e.nextByte.2

/-- What RX holds does not show in a transfer. -/
theorem nextBits_rx (n : Nat) (e : Env) (x : List Byte) :
    Env.nextBits n { e with rx := x } = ((Env.nextBits n e).1, { (Env.nextBits n e).2 with rx := x }) := by
  induction n generalizing e with
  | zero => rfl
  | succ n ih =>
    have h : ({ e with rx := x } : Env).sample = (e.sample.1, { e.sample.2 with rx := x }) := by
      unfold Env.sample
      cases e.miso <;> rfl
    simp [Env.nextBits, h, ih]

theorem transfers_rx (ts : List Triple) (e : Env) (x : List Byte) :
    transfers ts { e with rx := x } =
      ((transfers ts e).1, (transfers ts e).2.1, { (transfers ts e).2.2 with rx := x }) := by
  induction ts generalizing e with
  | nil => rfl
  | cons t ts ih =>
    have h : ({ e with rx := x } : Env).nextByte = (e.nextByte.1, { e.nextByte.2 with rx := x }) := by
      simp only [Env.nextByte, nextBits_rx]
    simp only [transfers, h, ih e.nextByte.2]

theorem transfers_append (ts us : List Triple) (e : Env) :
    transfers (ts ++ us) e =
      ((transfers ts e).1 ++ (transfers us (transfers ts e).2.2).1,
       (transfers ts e).2.1 ++ (transfers us (transfers ts e).2.2).2.1, (transfers us (transfers ts e).2.2).2.2) := by
  induction ts generalizing e with
  | nil => rfl
  | cons t ts ih => simp [transfers, ih]

theorem transfers_views (ts : List Triple) (e : Env) :
    rxOf (transfers ts e).1 = [] ∧ txOf (transfers ts e).1 = [] ∧ pinsOf (transfers ts e).1 = (transfers ts e).1 := by
  induction ts generalizing e with
  | nil => exact ⟨rfl, rfl, rfl⟩
  | cons t ts ih => simp [transfers, ih]

/-- SPI_READ makes the remaining transfers, stores the bytes and sends their digits (R151, R155). -/
theorem pass_spiRead (k n : Nat) (s : State) (hq : s.orch.state = .spiRead)
    (hc : s.orch.returnBytes.toNat = s.orch.idx.toNat + k) (hb : s.BusFree) (hd : s.dec.busy = false)
    (he : s.enc = { busy := false, pending := [] }) (ht : s.env.txReady = []) :
    ∃ (p : Spi) (evs : List Event), (p.ready = true ∧ p.sck = false ∧ p.cs = if k = 0 then s.spi.cs else false) ∧
      rxOf evs = [] ∧ pinsOf evs = (transfers (readTriples k) s.env).1 ∧
      txOf evs = (if k = 0 then [] else
        (if s.orch.idx = 0 then [chDot] else []) ++ (hexBytes (transfers (readTriples k) s.env).2.1 ++ [chLF])) ∧
      runPass (n + k) s = runPass n
        { s with
          orch := { s.orch with idx := s.orch.returnBytes }, spi := p,
          buf := s.buf.setAll s.orch.idx.toNat (transfers (readTriples k) s.env).2.1,
          env := (transfers (readTriples k) s.env).2.2, trace := s.trace ++ evs } := by
  induction k generalizing s with
  | zero =>
    have hi : s.orch.idx = s.orch.returnBytes := BitVec.eq_of_toNat_eq (by simpa using hc.symm)
    refine ⟨s.spi, [], ⟨hb.1, hb.2, by simp⟩, rfl, rfl, rfl, ?_⟩
    have ho : { s.orch with idx := s.orch.returnBytes } = s.orch := by rw [← hi]
    simp [readTriples, transfers, Memory.setAll, ho]
  | succ k ih =>
    obtain ⟨h1, h2, h3, h4, h5⟩ := cursor_ne _ _ _ hc
    have hr := orchRule_spiRead_byte s hq h1 h3 hb (by rw [he]) ht
    have hl : s.readLast = decide (k = 0) := cursor_last _ _ k hc
    obtain ⟨p, evs, ⟨p1, p2, p3⟩, v1, v2, v3, h⟩ := ih (s := { (s.withTransfer 0x00 false s.readLast).withSent
          (encChars s.env.nextByte.1 chDot s.readFirst s.readLast false) with
        buf := s.buf.set s.orch.idx.toNat s.env.nextByte.1,
        orch := { s.orch with idx := s.orch.idx + 1, state := .spiRead } })
      rfl (by simp only [h4, hc]; omega) ⟨rfl, rfl⟩ hd rfl (by simpa [State.withSent, State.withTransfer] using ht)
    have v2' : pinsOf evs = (transfers (readTriples k) s.env.nextByte.2).1 := v2
    have v3' : txOf evs = if k = 0 then [] else (if s.orch.idx + 1 = 0 then [chDot] else []) ++
        (hexBytes (transfers (readTriples k) s.env.nextByte.2).2.1 ++ [chLF]) := v3
    rw [if_neg h5] at v3'
    have hmod : (s.orch.idx.toNat + 1) % 256 = s.orch.idx.toNat + 1 := by
      simp only [Config.bufDepth] at h3
      omega
    refine ⟨p, transferEvents 0x00 s.env.nextByte.1 false s.readLast
      ++ (encChars s.env.nextByte.1 chDot s.readFirst s.readLast false).map Event.tx ++ evs,
      ⟨p1, p2, ?_⟩, by simp [v1], ?_, ?_, ?_⟩
    · rw [p3]
      simp only [State.withSent, State.withTransfer, hl]
      split <;> simp_all
    · cases k with
      | zero => simp [v2', readTriples, transfers, hl]
      | succ k => simp [v2', readTriples, transfers, hl]
    · cases k with
      | zero => simp [v3', readTriples, transfers, hl, encChars, State.readFirst, hexBytes, txOf]
      | succ k => simp [v3', readTriples, transfers, hl, encChars, State.readFirst, hexBytes]
    · rw [show n + (k + 1) = (n + k) + 1 from rfl,
        runPass_step _ s _ (by simp [State.betweenRequests, hq]) hr
          (by simp [State.waiting, State.withSent, State.withTransfer, hd]), h]
      cases k with
      | zero => simp [State.withTransfer, State.withSent, readTriples, transfers, hq, he, hmod, Memory.setAll, hl]
      | succ k => simp [State.withTransfer, State.withSent, readTriples, transfers, hq, he, hmod, Memory.setAll, hl]

/-! ## A request up to RUN -/

/-- COUNT_BYTES to CHECKSUM take a request frame from RX (R144-R147, R107). -/
theorem pass_toRun (m ck : Byte) (p : List Byte) (n : Nat) (s : State) (h : s.Resting) (hj : chDot ∉ s.env.rx)
    (hl : p.length ≤ Config.maxPayload) :
    ∃ hi, runPass (n + p.length + 4) (offerRx (reqChars m p ck) s) = runPass n
      { s.withDec { inFrame := true, err := false, sum := lengthByte p + m + byteSum p + ck, busy := false, hi := hi,
                    haveHi := false } (s.env.rx ++ (reqChars m p ck).dropLast.dropLast) [chCR, chLF] with
        buf := s.buf.setAll 0 p,
        orch := { state := .run, byteCount := lengthByte p, returnBytes := m, idx := lengthByte p } } := by
  obtain ⟨hq, h0, he, hf, hr, hk, hc, hb⟩ := h
  have hcut : (reqChars m p ck).dropLast.dropLast =
      chDot :: (hex2 (lengthByte p) ++ (hex2 m ++ (hexBytes p ++ hex2 ck))) := by
    have : reqChars m p ck =
        (chDot :: (hex2 (lengthByte p) ++ (hex2 m ++ (hexBytes p ++ hex2 ck)))) ++ [chCR] ++ [chLF] := by
      simp [reqChars]
    rw [this, List.dropLast_concat, List.dropLast_concat]
  have hlen : (lengthByte p).toNat = p.length := by
    have : p.length < 256 := by simp only [Config.maxPayload] at hl; omega
    simpa [lengthByte] using this
  have h1 := decByteOp_hunt_hex2 (offerRx (reqChars m p ck) s) (lengthByte p) s.env.rx
    (hex2 m ++ (hexBytes p ++ (hex2 ck ++ [chCR, chLF]))) he hf hj (by simp [reqChars])
  obtain ⟨s1, hs1⟩ : ∃ t, t = (((offerRx (reqChars m p ck) s).withDec
      { inFrame := true, err := false, sum := lengthByte p, busy := false, hi := hiNibble (lengthByte p),
        haveHi := false } (s.env.rx ++ chDot :: hex2 (lengthByte p))
      (hex2 m ++ (hexBytes p ++ (hex2 ck ++ [chCR, chLF])))).setByteCount (lengthByte p)).goto .returnBytes := ⟨_, rfl⟩
  have r1 : orchRule (offerRx (reqChars m p ck) s) = .next s1 := by
    have : (offerRx (reqChars m p ck) s).orch.state = .countBytes := hq
    simp only [orchRule, this, execCountBytes, withByte, h1, hs1]
  have h2 := decByteOp_hex2 s1 m (hexBytes p ++ (hex2 ck ++ [chCR, chLF])) (by rw [hs1]; rfl) (by rw [hs1]; rfl)
    (by rw [hs1]; simp [State.withDec]) (by rw [hs1]; rfl)
  obtain ⟨s2, hs2⟩ : ∃ t, t = ((s1.withDec
      { inFrame := true, err := false, sum := s1.dec.sum + m, busy := false, hi := hiNibble m, haveHi := false }
      (hex2 m) (hexBytes p ++ (hex2 ck ++ [chCR, chLF]))).setReturnBytes m).goto .readData := ⟨_, rfl⟩
  have r2 : orchRule s1 = .next s2 := by
    have : s1.orch.state = .returnBytes := by rw [hs1]; rfl
    simp only [orchRule, this, execReturnBytes, withByte, h2, hs2]
  have o2 : s2.orch = { state := .readData, byteCount := lengthByte p, returnBytes := m, idx := 0 } := by
    rw [hs2, hs1, ← h0]; rfl
  obtain ⟨hi3, h3⟩ := pass_readData p (hex2 ck ++ [chCR, chLF]) (n + 1) s2 (by rw [o2])
    (by rw [o2, hlen]; simp) (by rw [hs2]; rfl) (by rw [hs2]; rfl) (by rw [hs2]; rfl) (by rw [hs2]; rfl)
    (by rw [hs2, hs1]; exact hb) (by rw [hs2]; rfl)
  obtain ⟨s3, hs3⟩ : ∃ t, t = ({ s2.withDec
      { inFrame := true, err := false, sum := s2.dec.sum + byteSum p, busy := false, hi := hi3, haveHi := false }
      (hexBytes p) (hex2 ck ++ [chCR, chLF]) with
      buf := s2.buf.setAll s2.orch.idx.toNat p,
      orch := { s2.orch with idx := s2.orch.byteCount, state := .checksum } } : State) := ⟨_, rfl⟩
  have h4 := decByteOp_hex2 s3 ck [chCR, chLF] (by rw [hs3]; rfl) (by rw [hs3]; rfl)
    (by rw [hs3]; simp [State.withDec]) (by rw [hs3]; rfl)
  obtain ⟨s4, hs4⟩ : ∃ t, t = (s3.withDec
      { inFrame := true, err := false, sum := s3.dec.sum + ck, busy := false, hi := hiNibble ck, haveHi := false }
      (hex2 ck) [chCR, chLF]).goto .run := ⟨_, rfl⟩
  have r4 : orchRule s3 = .next s4 := by
    have : s3.orch.state = .checksum := by rw [hs3]
    simp only [orchRule, this, execChecksum, withByte, h4, hs4]
  refine ⟨hiNibble ck, ?_⟩
  rw [show n + p.length + 4 = ((n + 1 + 1 + p.length) + 1) + 1 from by omega,
    runPass_step _ _ s1 (by simp [State.betweenRequests, hq]) r1 (by rw [hs1]; simp [State.waiting, State.withDec, hb]),
    runPass_step _ s1 s2 (by rw [hs1]; simp [State.betweenRequests]) r2
      (by rw [hs2, hs1]; simp [State.waiting, State.withDec, hb]), h3, ← hs3,
    runPass_step _ s3 s4 (by rw [hs3]; simp [State.betweenRequests]) r4
      (by rw [hs4, hs3, hs2, hs1]; simp [State.waiting, State.withDec, hb]), hcut]
  congr 1
  rw [hs4, hs3]
  simp only [o2]
  rw [hs2, hs1]
  simp [State.withDec, State.goto, State.setByteCount, State.setReturnBytes, offerRx]

end Sys2Proof.Machine
end

