-- ==== Sys2Proof/Laws/PerInstr.lean ====
section
/-! SUPPORT. For every instruction: its encoding has the form that the table's format column names for its row. -/

namespace Sys2Proof.Laws.EncodedForm

/-- The form of an instruction's encoding: a request frame is text on RX from `.` to `\r\n`; a response frame is text
on TX from its marker to `\n`; a command is a payload that begins with its command byte; a block operation asserts
exactly one request line; a state is a value of `orch.state`. -/
def Statement : Instr → Prop
  | .req m p ck => ∃ mid, encode (.req m p ck) = .rx (chDot :: (mid ++ [chCR, chLF])) ∧ mid.length = 2 * p.length + 6
  | .ack => encode .ack = .tx [chDot, chLF]
  | .diag => ∃ a b, encode .diag = .tx [chC, a, b, chLF]
  | .data ds => ∃ mid, encode (.data ds) = .tx (chDot :: (mid ++ [chLF])) ∧ mid.length = 2 * ds.length
  | .error => encode .error = .tx [chE, chF, chF, chLF]
  | .wren => encode .wren = .payload 0 [0x06]
  | .sectorErase a => ∃ x y z, encode (.sectorErase a) = .payload 0 [0x20, x, y, z]
  | .pageProgram a ds => ∃ x y z, encode (.pageProgram a ds) = .payload 0 (0x02 :: x :: y :: z :: ds)
  | .read a m => ∃ x y z, encode (.read a m) = .payload m [0x03, x, y, z]
  | .readStatus m => encode (.readStatus m) = .payload m [0x05]
  | .readId m => encode (.readId m) = .payload m [0x9F]
  | .spiXfer b f l => ∃ r, encode (.spiXfer b f l) = .lines r ∧
      [r.decNext, r.decReset, r.encStart, r.spiStart] = [false, false, false, true]
  | .decByte => ∃ r, encode .decByte = .lines r ∧
      [r.decNext, r.decReset, r.encStart, r.spiStart] = [true, false, false, false]
  | .decReset => ∃ r, encode .decReset = .lines r ∧
      [r.decNext, r.decReset, r.encStart, r.spiStart] = [false, true, false, false]
  | .encByte b m f l e => ∃ r, encode (.encByte b m f l e) = .lines r ∧
      [r.decNext, r.decReset, r.encStart, r.spiStart] = [false, false, true, false]
  | .start => encode .start = .orch .start
  | .pollReady => encode .pollReady = .orch .pollReady
  | .countBytes => encode .countBytes = .orch .countBytes
  | .returnBytes => encode .returnBytes = .orch .returnBytes
  | .readData => encode .readData = .orch .readData
  | .checksum => encode .checksum = .orch .checksum
  | .run => encode .run = .orch .run
  | .spiWrite => encode .spiWrite = .orch .spiWrite
  | .spiStall => encode .spiStall = .orch .spiStall
  | .spiRead => encode .spiRead = .orch .spiRead
  | .err => encode .err = .orch .err

theorem req (m : Byte) (p : List Byte) (ck : Byte) : Statement (.req m p ck) :=
  ⟨hex2 (lengthByte p) ++ (hex2 m ++ (hexBytes p ++ hex2 ck)), by simp [encode, reqChars],
    by simp only [hex2, List.length_append, List.length_cons, List.length_nil, hexBytes_length]; omega⟩
theorem ack : Statement .ack := rfl
theorem diag : Statement .diag := ⟨_, _, rfl⟩
theorem data (ds : List Byte) : Statement (.data ds) := ⟨hexBytes ds, rfl, hexBytes_length ds⟩
theorem error : Statement .error := rfl
theorem wren : Statement .wren := rfl
theorem sectorErase (a : FlashAddr) : Statement (.sectorErase a) := ⟨_, _, _, rfl⟩
theorem pageProgram (a : FlashAddr) (ds : List Byte) : Statement (.pageProgram a ds) := ⟨_, _, _, rfl⟩
theorem read (a : FlashAddr) (m : Byte) : Statement (.read a m) := ⟨_, _, _, rfl⟩
theorem readStatus (m : Byte) : Statement (.readStatus m) := rfl
theorem readId (m : Byte) : Statement (.readId m) := rfl
theorem spiXfer (b : Byte) (f l : Bool) : Statement (.spiXfer b f l) := ⟨_, rfl, rfl⟩
theorem decByte : Statement .decByte := ⟨_, rfl, rfl⟩
theorem decReset : Statement .decReset := ⟨_, rfl, rfl⟩
theorem encByte (b m : Byte) (f l e : Bool) : Statement (.encByte b m f l e) := ⟨_, rfl, rfl⟩
theorem start : Statement .start := rfl
theorem pollReady : Statement .pollReady := rfl
theorem countBytes : Statement .countBytes := rfl
theorem returnBytes : Statement .returnBytes := rfl
theorem readData : Statement .readData := rfl
theorem checksum : Statement .checksum := rfl
theorem run : Statement .run := rfl
theorem spiWrite : Statement .spiWrite := rfl
theorem spiStall : Statement .spiStall := rfl
theorem spiRead : Statement .spiRead := rfl
theorem err : Statement .err := rfl

end Sys2Proof.Laws.EncodedForm
end

