-- ==== Sys2Proof/Laws/Programmer.lean ====
section
/-! SUPPORT. What the host's reading of a response does. -/

namespace Sys2Proof.Machine

/-- A line with its newline is the first line. -/
theorem linesOf_line (l cs : List Byte) (h : chLF ∉ l) : linesOf (l ++ chLF :: cs) = l :: linesOf cs := by
  induction l with
  | nil => simp [linesOf]
  | cons c l ih =>
    rw [List.mem_cons, not_or] at h
    simp [linesOf, Ne.symm h.1, ih h.2]

/-- A line that is no response, an empty one too, is read over (R229). -/
theorem hostResponse_skips (l cs : List Byte) (h : chLF ∉ l) (hr : isResponse l = false) :
    hostResponse (l ++ chLF :: cs) = hostResponse cs := by
  simp [hostResponse, linesOf_line l cs h, hr]

/-- The first line that is a response is the one the host takes (R229). -/
theorem hostResponse_takes (l cs : List Byte) (h : chLF ∉ l) (hr : isResponse l = true) :
    hostResponse (l ++ chLF :: cs) = some l := by
  simp [hostResponse, linesOf_line l cs h, hr]

end Sys2Proof.Machine
end

