-- ==== Sys2Proof/Laws/Rules.lean ====
section
/-! SUPPORT. What each rule of the orchestrator leaves alone, whatever the state: one lemma per rule. -/

namespace Sys2Proof.Machine

/-- After an encoder call a rule waits or goes on (R141). -/
theorem afterEnc_cases (k : State → State) (s : State) : afterEnc k s = s ∨ afterEnc k s = k s := by
  unfold afterEnc
  split <;> simp

/-- What a request to ENC leaves alone. -/
theorem encSend_frame (cs : List Byte) (s : State) :
    (encSend cs s).orch = s.orch ∧ (encSend cs s).dec = s.dec ∧ (encSend cs s).spi = s.spi ∧
    (encSend cs s).buf = s.buf ∧ (encSend cs s).stimuli = s.stimuli ∧ (encSend cs s).env.rx = s.env.rx ∧
    (encSend cs s).env.miso = s.env.miso ∧ (encSend cs s).env.samples = s.env.samples ∧
    pinsOf (encSend cs s).trace = pinsOf s.trace ∧ rxOf (encSend cs s).trace = rxOf s.trace := by
  simp [encSend, encPump]

theorem execStart_frame (s : State) : ∃ t, execStart s = .next t ∧
    t.orch = { s.orch with idx := 0, state := .pollReady } ∧ t.dec = (decReset s).dec ∧ t.enc = s.enc ∧
    t.buf = s.buf ∧ t.stimuli = s.stimuli ∧ t.env.rx = s.env.rx ∧ rxOf t.trace = rxOf s.trace ∧
    txOf t.trace = txOf s.trace := by
  refine ⟨_, rfl, ?_⟩
  simp [spiXferOp_frame, spiWait_frame]

theorem execPollReady_frame (s : State) : ∃ t, execPollReady s = .next t ∧
    (t.orch = { s.orch with state := .pollReady } ∨ t.orch = { s.orch with state := .countBytes }) ∧
    t.dec = s.dec ∧ t.enc = s.enc ∧ t.buf = s.buf ∧ t.stimuli = s.stimuli ∧ t.env.rx = s.env.rx ∧
    rxOf t.trace = rxOf s.trace ∧ txOf t.trace = txOf s.trace := by
  unfold execPollReady
  dsimp only
  split <;> refine ⟨_, rfl, ?_⟩ <;> simp [spiXferOp_frame]

/-- A decoding rule's next state: what the byte is for, ERR, or the wait. -/
theorem withByte_next (k : Byte → State → Host.Outcome State Fault Refusal) (s t : State)
    (h : withByte k s = .next t) :
    (∃ b, (decByteOp s).1 = .byte b ∧ k b (decByteOp s).2 = .next t) ∨
    ((decByteOp s).1 = .error ∧ t = takeDecodeError (decByteOp s).2) ∨
    ((decByteOp s).1 = .waiting ∧ t = (decByteOp s).2) := by
  rcases withByte_cases k s with ⟨b, h1, h2⟩ | ⟨h1, h2⟩ | ⟨h1, h2⟩ <;> rw [h2] at h
  · exact .inl ⟨b, h1, h⟩
  · cases h
    exact .inr (.inl ⟨h1, rfl⟩)
  · cases h
    exact .inr (.inr ⟨h1, rfl⟩)

/-- The byte is stored at the cursor, which moves on (R146). -/
theorem storeByte_next (b : Byte) (s t : State) (h : storeByte b s = .next t) :
    s.orch.idx.toNat < Config.bufDepth ∧
    t = ({ s with buf := s.buf.set s.orch.idx.toNat b } : State).advanceIdx.goto .readData := by
  simp only [storeByte, writeAtIdx, memWrite] at h
  by_cases hlt : s.orch.idx.toNat < Config.bufDepth
  · rw [if_pos hlt] at h
    cases h
    exact ⟨hlt, rfl⟩
  · simp [hlt] at h

/-- The error report waits where it is, or goes to START (R152, R208). -/
theorem reportError_frame (s : State) :
    ((reportError s).orch = s.orch ∨ (reportError s).orch = { s.orch with state := .start }) ∧
    (reportError s).dec = s.dec ∧ (reportError s).spi = s.spi ∧ (reportError s).buf = s.buf ∧
    (reportError s).stimuli = s.stimuli ∧ (reportError s).env.rx = s.env.rx ∧
    (reportError s).env.miso = s.env.miso ∧ (reportError s).env.samples = s.env.samples ∧
    pinsOf (reportError s).trace = pinsOf s.trace ∧ rxOf (reportError s).trace = rxOf s.trace := by
  unfold reportError
  rcases afterEnc_cases recover (encCall Config.errByte chE true true false s) with h | h <;> rw [h] <;>
    simp [encCall_frame, encCall_frame_env]

theorem execRun_frame (s t : State) (h : execRun s = .next t) :
    (t.orch = s.orch ∨ t.orch = { s.orch with state := .start } ∨ t.orch = { s.orch with idx := 0, state := .spiWrite }) ∧
    t.dec = s.dec ∧ t.spi = s.spi ∧ t.buf = s.buf ∧ t.stimuli = s.stimuli ∧ t.env.rx = s.env.rx ∧
    t.env.miso = s.env.miso ∧ t.env.samples = s.env.samples ∧ pinsOf t.trace = pinsOf s.trace ∧
    rxOf t.trace = rxOf s.trace := by
  simp only [execRun, runWith, Config.diagC, if_true] at h
  split at h <;> cases h
  · rcases afterEnc_cases enterWrite (encCall s.dec.sum chC true true false s) with h | h <;> rw [h] <;>
      simp [enterWrite, encCall_frame, encCall_frame_env]
  · have := reportError_frame s
    tauto

theorem execSpiWrite_frame (s t : State) (h : execSpiWrite s = .next t) :
    t.orch.byteCount = s.orch.byteCount ∧ t.orch.returnBytes = s.orch.returnBytes ∧ t.dec = s.dec ∧
    t.buf = s.buf ∧ t.stimuli = s.stimuli ∧ t.env.rx = s.env.rx ∧ rxOf t.trace = rxOf s.trace ∧
    (t.orch.state = s.orch.state ∨ t.orch.state = .start ∨ t.orch.state = .spiWrite ∨ t.orch.state = .spiStall) := by
  simp only [execSpiWrite] at h
  split at h
  · split at h <;> cases h
    simp [spiXferOp_frame]
  · split at h <;> cases h
    · rcases afterEnc_cases (fun t => t.goto .start) (encCall 0 chDot true true true s) with h | h <;> rw [h] <;>
        simp [encCall_frame, encCall_frame_env]
    · simp

/-- What SPI_READ does to a position once its byte has been received (R151): store, send, wait or move on. -/
theorem returnByte_next (d : Byte) (s t : State) (h : returnByte d s = .next t) :
    s.orch.idx.toNat < Config.bufDepth ∧
    t = afterEnc nextPosition (encByteOp d chDot s.readFirst s.readLast false
      { s with buf := s.buf.set s.orch.idx.toNat d }) := by
  simp only [returnByte, writeAtIdx, memWrite] at h
  by_cases hlt : s.orch.idx.toNat < Config.bufDepth
  · rw [if_pos hlt] at h
    cases h
    exact ⟨hlt, rfl⟩
  · simp [hlt] at h

theorem execSpiRead_frame (s t : State) (h : execSpiRead s = .next t) :
    t.orch.byteCount = s.orch.byteCount ∧ t.orch.returnBytes = s.orch.returnBytes ∧ t.dec = s.dec ∧
    t.stimuli = s.stimuli ∧ t.env.rx = s.env.rx ∧ rxOf t.trace = rxOf s.trace ∧
    (t.orch.state = s.orch.state ∨ t.orch.state = .start ∨ t.orch.state = .spiRead) := by
  simp only [execSpiRead] at h
  split at h
  · cases h
    simp
  · split at h
    · cases h
      rcases afterEnc_cases nextPosition (encPump s) with h | h <;> rw [h] <;> simp [nextPosition, encPump]
    · obtain ⟨-, rfl⟩ := returnByte_next _ _ _ h
      rcases afterEnc_cases nextPosition (encByteOp (spiXferOp Config.fillByte false s.readLast s).1 chDot
        (spiXferOp Config.fillByte false s.readLast s).2.readFirst
        (spiXferOp Config.fillByte false s.readLast s).2.readLast false
        { (spiXferOp Config.fillByte false s.readLast s).2 with
          buf := (spiXferOp Config.fillByte false s.readLast s).2.buf.set
            (spiXferOp Config.fillByte false s.readLast s).2.orch.idx.toNat
            (spiXferOp Config.fillByte false s.readLast s).1 }) with h | h <;>
        rw [h] <;> simp [nextPosition, encByteOp, encSend_frame, spiXferOp_frame]

end Sys2Proof.Machine
end

