-- ==== Sys2Proof/Tests/Slice0.lean ====
section
/-! SUPPORT. Tests. The expected results are the examples X1 to X10, the vectors T1 to T90 and the programs P1 to
P10 of spec/95_test_vectors.md; the number stands in each test's name or comment. The last part holds, for every
statement with hypotheses, a state and operands that meet them. -/

namespace Sys2Proof.Tests

open Sys2Proof Sys2Proof.Machine

/-! ## Helpers -/

/-- A view of the next state, if there is one. -/
def seen {α : Type} (f : State → α) : Host.Outcome State Fault Refusal → Option α
  | .next t => some (f t)
  | .fault _ => none
  | .refused _ => none

/-- The samples of a byte, bit 7 first (R40). -/
def bitsOf (b : Byte) : List Bool :=
  [b.getLsbD 7, b.getLsbD 6, b.getLsbD 5, b.getLsbD 4, b.getLsbD 3, b.getLsbD 2, b.getLsbD 1, b.getLsbD 0]

/-- The samples of several bytes. -/
def misoOf (bs : List Byte) : List Bool := (bs.map bitsOf).flatten

/-- ORCH at `q` with these bytes on RX and on the data-in line. -/
def at_ (q : OrchState) (rx miso : List Byte) : State :=
  { State.reset with
    orch := { State.reset.orch with state := q },
    env := { State.reset.env with rx := rx, miso := misoOf miso } }

/-- `s` with DEC inside a frame, with this sum. -/
def inFrame (sum : Byte) (s : State) : State := { s with dec := { s.dec with inFrame := true, sum := sum } }

/-- `s` with a decode request outstanding that holds no digit (R157). -/
def asked (s : State) : State := { s with dec := { s.dec with busy := true } }

/-- `s` with these length registers and this cursor. -/
def counts (bc rb idx : Byte) (s : State) : State :=
  { s with orch := { s.orch with byteCount := bc, returnBytes := rb, idx := idx } }

/-- `s` with these bytes in the buffer. -/
def cells (bs : Memory) (s : State) : State := { s with buf := bs }

/-- `s` with chip-select at this level. -/
def csAt (v : Bool) (s : State) : State := { s with spi := { s.spi with cs := v } }

/-- `s` with the transport answering like this. -/
def txAnswers (r : List Bool) (s : State) : State := { s with env := { s.env with txReady := r } }

/-- `s` with this stimulus to come. -/
def given (w : Encoded) (s : State) : State := { s with stimuli := [w] }

/-! ## Well-formedness -/

theorem test_wf_req : (Instr.req 0 (List.replicate 255 1) 2).wf = true ∧
    (Instr.req 0 (List.replicate 256 1) 2).wf = false := by decide +kernel
theorem test_wf_data : (Instr.data [0x22]).wf = true ∧ (Instr.data []).wf = false ∧
    (Instr.data (List.replicate 256 0)).wf = false := by decide +kernel
theorem test_wf_pageProgram : (Instr.pageProgram 0 (List.replicate 128 0)).wf = true ∧
    (Instr.pageProgram 0 []).wf = false ∧ (Instr.pageProgram 0 (List.replicate 129 0)).wf = false := by decide +kernel
theorem test_wf_counts : (Instr.read 0 1).wf = true ∧ (Instr.read 0 0).wf = false ∧
    (Instr.readStatus 0).wf = false := by decide

/-! ## The alphabet (T1-T10) -/

theorem test_T1_T6 : hexval 0x30 = some 0 ∧ hexval 0x39 = some 9 ∧ hexval 0x41 = some 10 ∧ hexval 0x46 = some 15 ∧
    hexval 0x61 = some 10 ∧ hexval 0x66 = some 15 := by decide
theorem test_T7_T8 : ∀ c ∈ [(0x47 : Byte), 0x67, 0x2F, 0x3A, 0x40, 0x60, 0x2E, 0x0D, 0x0A, 0x20, 0x00, 0xFF, 0xB0],
    hexval c = none := by decide
theorem test_T9 : [hexchar 0, hexchar 9, hexchar 10, hexchar 15] = [0x30, 0x39, 0x41, 0x46] := by decide

/-! ## Request frames (T20-T27): the checksums the spec works out by hand -/

theorem test_T20_T23 : checksumOf 0 [] = 0x00 ∧ checksumOf 0 [0x06] = 0xF9 ∧ checksumOf 1 [0x05] = 0xF9 ∧
    checksumOf 3 [0x9F] = 0x5D := by decide
theorem test_T24_T27 : checksumOf 0 [0xFF, 0xFF] = 0x00 ∧
    checksumOf 0 [0x02, 0x20, 0x00, 0x00, 0xDE, 0xAD, 0xBE] = 0x8E ∧ checksumOf 3 [0x03, 0x20, 0x00, 0x00] = 0xD6 ∧
    checksumOf 2 [] = 0xFE := by decide
theorem test_T28 : checksumOf 0 (List.replicate 255 1) = 0x02 ∧ (reqFrame 0 (List.replicate 255 1)).length = 519 := by
  decide +kernel

/-! ## Decoding: words written out from the encodings -/

/-- X6 step 2: `.040020001000CC\r\n` (R60). -/
theorem test_decode_req :
    decode (.rx [0x2E, 0x30, 0x34, 0x30, 0x30, 0x32, 0x30, 0x30, 0x30, 0x31, 0x30, 0x30, 0x30, 0x43, 0x43, 0x0D, 0x0A])
      = .ok (.req 0 [0x20, 0x00, 0x10, 0x00] 0xCC) := by decide

/-- X10 (R67). -/
theorem test_decode_rsp : decode (.tx [0x2E, 0x0A]) = .ok .ack ∧ decode (.tx [0x63, 0x30, 0x30, 0x0A]) = .ok .diag ∧
    decode (.tx [0x2E, 0x32, 0x32, 0x33, 0x33, 0x0A]) = .ok (.data [0x22, 0x33]) ∧
    decode (.tx [0x65, 0x46, 0x46, 0x0A]) = .ok .error := by decide

/-- X6, P3, P8, T23 (R70, R181-R186). -/
theorem test_decode_command : decode (.payload 0 [0x06]) = .ok .wren ∧
    decode (.payload 0 [0x20, 0x00, 0x10, 0x00]) = .ok (.sectorErase 0x001000) ∧
    decode (.payload 0 [0x02, 0x20, 0x00, 0x00, 0xDE, 0xAD, 0xBE]) = .ok (.pageProgram 0x200000 [0xDE, 0xAD, 0xBE]) ∧
    decode (.payload 2 [0x03, 0x00, 0x10, 0x00]) = .ok (.read 0x001000 2) ∧
    decode (.payload 1 [0x05]) = .ok (.readStatus 1) ∧ decode (.payload 3 [0x9F]) = .ok (.readId 3) := by decide

/-- R71: the request lines of the four block operations. -/
theorem test_decode_lines :
    decode (.lines { idleLines with spiStart := true, spiOut := 0xA5, spiFirst := true, spiLast := true })
      = .ok (.spiXfer 0xA5 true true) ∧
    decode (.lines { idleLines with decNext := true }) = .ok .decByte ∧
    decode (.lines { idleLines with decReset := true }) = .ok .decReset ∧
    decode (.lines { idleLines with encStart := true, encByte := 0x3C, encMarker := 0x2E, encFirst := true })
      = .ok (.encByte 0x3C 0x2E true false false) := by decide

/-- R15: the eleven states. -/
theorem test_decode_state : decode (.orch .start) = .ok .start ∧ decode (.orch .pollReady) = .ok .pollReady ∧
    decode (.orch .countBytes) = .ok .countBytes ∧ decode (.orch .returnBytes) = .ok .returnBytes ∧
    decode (.orch .readData) = .ok .readData ∧ decode (.orch .checksum) = .ok .checksum ∧
    decode (.orch .run) = .ok .run ∧ decode (.orch .spiWrite) = .ok .spiWrite ∧
    decode (.orch .spiStall) = .ok .spiStall ∧ decode (.orch .spiRead) = .ok .spiRead ∧
    decode (.orch .err) = .ok .err := by decide

/-- Rejections: no marker, a bad digit, a frame cut short, a missing `\r` (R69), two request lines at once (R28). -/
theorem test_decode_rejects : decode (.rx [0x30]) = .error .badMarker ∧
    decode (.rx [0x2E, 0x30, 0x47, 0x30, 0x30, 0x30, 0x30, 0x0D, 0x0A]) = .error .badDigit ∧
    decode (.rx [0x2E, 0x30, 0x31]) = .error .truncated ∧
    decode (.rx [0x2E, 0x30, 0x30, 0x30, 0x30, 0x30, 0x30, 0x0A]) = .error .badTerminator ∧
    decode (.tx [0x65, 0x30, 0x30, 0x0A]) = .error .badErrorCode ∧ decode (.lines idleLines) = .error .noRequest ∧
    decode (.lines { idleLines with decNext := true, spiStart := true }) = .error .severalRequests ∧
    decode (.payload 0 (List.replicate 256 0)) = .error .tooLong := by decide +kernel

/-- The table's fixed patterns: ACK 2E 0A, DIAG `63 ?? ?? 0A`, ERROR 65 46 46 0A, the command bytes. -/
theorem test_table_words : decodeTableWord 16 0x2E0A = some .ack ∧ decodeTableWord 32 0x6300000A = some .diag ∧
    decodeTableWord 32 0x6546460A = some .error ∧ decodeTableWord 8 0x06 = some .wren ∧
    decodeTableWord 8 0x20 = some (.sectorErase 0) ∧ decodeTableWord 8 0x02 = some (.pageProgram 0 [0]) ∧
    decodeTableWord 8 0x03 = some (.read 0 0) ∧ decodeTableWord 8 0x05 = some (.readStatus 0) ∧
    decodeTableWord 8 0x9F = some (.readId 0) := by decide

/-! ## Reset and the step -/

/-- R220: reset taken inside a frame, with chip-select up. -/
theorem test_rst : seen (fun t => (t.orch.state, t.spi.cs, t.dec.inFrame, t.env.rx))
    (step { csAt true (inFrame 7 (at_ .run [0x2E] [])) with
      env := { Env.reset with rx := [0x2E], rst := [some 0] } }) = some (.start, false, false, [0x2E]) := by decide

/-- R223: reset in the middle of a request's digits and in the middle of the response: what is not taken stays on RX,
the response is cut off, the bus is deselected. -/
theorem test_rst_inside :
    seen (fun t => (rxOf t.trace, t.env.rx, t.orch.state, t.dec.inFrame, pinsOf t.trace))
      (step { at_ .countBytes [0x2E, 0x30, 0x31] [] with
        env := { (at_ .countBytes [0x2E, 0x30, 0x31] []).env with rst := [some 2] } })
      = some ([0x2E, 0x30], [0x31], .start, false, [.cs false, .sck false, .mosi false]) ∧
    seen (fun t => (txOf t.trace, t.enc.busy, t.orch.state))
      (step { at_ .err [] [] with env := { Env.reset with rst := [some 2] } }) = some ([0x65, 0x46], false, .start) ∧
    seen (fun t => (t.trace, t.spi.cs, t.env.miso.length))
      (step { at_ .pollReady [] [0x80] with env := { (at_ .pollReady [] [0x80]).env with rst := [some 3] } })
      = some ([.mosi false, .sck true, .miso true, .cs false, .sck false, .mosi false], false, 7) := by decide +kernel

/-- A text that is no request is offered as it stands: P5's `.01G` ends in ERR's report. -/
theorem test_step_any_text :
    seen (fun t => (txOf t.trace, t.env.rx)) (step (given (.rx [0x2E, 0x30, 0x31, 0x47, 0x30]) (at_ .countBytes [] [])))
      = some ([0x65, 0x46, 0x46, 0x0A], [0x30]) := by decide +kernel

/-- Stop with a name: no such request lines. -/
theorem test_step_refuses : step (given (.lines idleLines) State.reset) = .refused (.undecodable .noRequest) := by
  rfl

/-! ## DEC (T30-T40) -/

theorem test_T30 : seen (fun t => (t.dec.inFrame, t.dec.sum, t.env.rx)) (exec .decByte (at_ .start [0x2E, 0x30, 0x31, 0x30] []))
    = some (true, 0x01, [0x30]) ∧ (decByteOp (at_ .start [0x2E, 0x30, 0x31, 0x30] [])).1 = .byte 0x01 := by decide
theorem test_T32 :
    (decByteOp (at_ .start [0x0D, 0x0A, 0x78, 0x39, 0x2E, 0x41, 0x62] [])).1 = .byte 0xAB := by decide
theorem test_T34_T35 :
    (decByteOp (inFrame 1 (at_ .start [0x30, 0x0D] []))).1 = .error ∧
    seen (fun t => (t.dec.inFrame, t.dec.err, t.dec.haveHi, t.dec.sum, t.env.rx))
      (exec .decByte (inFrame 1 (at_ .start [0x2E, 0x30, 0x31] []))) = some (true, true, false, 0x01, [0x30, 0x31]) := by
  decide
theorem test_T36 : seen (fun t => (t.dec.inFrame, t.dec.err, t.dec.sum, t.env.rx))
    (exec .decReset { inFrame 1 (at_ .start [0x30] []) with
      dec := { inFrame := true, err := true, sum := 1, busy := false, hi := 0, haveHi := false } })
    = some (false, false, 0x01, [0x30]) := by decide
theorem test_T37 : seen (fun t => (t.dec.busy, t.dec.inFrame, t.env.rx))
    (exec .decByte (at_ .start [0x30, 0x36, 0x46, 0x39, 0x0D, 0x0A] [])) = some (true, false, []) := by decide
theorem test_T38_T40 : seen (fun t => t.dec.sum) (exec .decByte (inFrame 0xFF (at_ .start [0x30, 0x32] []))) = some 0x01 ∧
    (decByteOp (at_ .start [0x2E, 0x2E, 0x30, 0x31] [])).1 = .error := by decide

/-! ## ENC and the response frames (T45-T51b) -/

theorem test_T45_T48 : encChars 0x3C 0x2E true true false = [0x2E, 0x33, 0x43, 0x0A] ∧
    encChars 0x3C 0x2E true false false = [0x2E, 0x33, 0x43] ∧ encChars 0x3C 0x2E false false false = [0x33, 0x43] ∧
    encChars 0x3C 0x2E false true false = [0x33, 0x43, 0x0A] := by decide
theorem test_T49_T51b : encChars 0x3C 0x2E true true true = [0x2E, 0x0A] ∧
    encChars 0x3C 0x2E true false true = [0x2E] ∧ encChars 0x3C 0x2E false true true = [0x0A] ∧
    encChars 0x3C 0x2E false false true = [] := by decide
/-- R105: the transport takes one character and then not the next. -/
theorem test_encByte_waits : seen (fun t => (txOf t.trace, t.enc.busy, t.txData))
    (exec (.encByte 0x9F 0x2E true true false) (txAnswers [true, false] State.reset))
    = some ([0x2E], true, some 0x39) := by decide
/-- X10 and R67. -/
theorem test_responses : seen (fun t => txOf t.trace) (exec .ack State.reset) = some [0x2E, 0x0A] ∧
    seen (fun t => txOf t.trace) (exec .diag State.reset) = some [0x63, 0x30, 0x30, 0x0A] ∧
    seen (fun t => txOf t.trace) (exec (.data [0x22, 0x33]) State.reset) = some [0x2E, 0x32, 0x32, 0x33, 0x33, 0x0A] ∧
    seen (fun t => txOf t.trace) (exec .error State.reset) = some [0x65, 0x46, 0x46, 0x0A] := by decide

/-! ## SPI (T52-T60) -/

/-- T59: the pins of `SpiXfer(0xA5, 1, 1)` with 0x3C on the data-in line, and the byte received. -/
theorem test_T59 : seen (fun t => (t.spi.shIn, t.spi.cs, t.spi.bit.val, t.trace.filter (fun e => decide (e = .mosi true))))
    (exec (.spiXfer 0xA5 true true) (at_ .start [] [0x3C]))
    = some (0x3C, false, 8, [.mosi true, .mosi true, .mosi true, .mosi true]) ∧
    seen (fun t => t.trace.take 9) (exec (.spiXfer 0xA5 true true) (at_ .start [] [0x3C]))
    = some [.cs true, .mosi true, .sck true, .miso false, .sck false, .mosi false, .sck true, .miso false, .sck false] := by
  decide
/-- T53, T54, T57, T60: `cs` after a transfer, and nothing left of the old `sh_in`. -/
theorem test_T53_T60 : seen (fun t => t.spi.cs) (exec (.spiXfer 0 false false) (csAt true (at_ .start [] [0]))) = some true ∧
    seen (fun t => t.spi.cs) (exec (.spiXfer 0 false true) (csAt true (at_ .start [] [0]))) = some false ∧
    seen (fun t => t.spi.cs) (exec (.spiXfer 0 false false) (at_ .start [] [0])) = some false ∧
    seen (fun t => t.spi.shIn) (exec (.spiXfer 0 false false)
      { at_ .start [] [0x3C] with spi := { Spi.reset with shIn := 0xFF } }) = some 0x3C := by decide

/-! ## ORCH (T70-T90) -/

theorem test_T70_T71 : seen (fun t => (t.orch.state, t.spi.cs, csWrites t.trace)) (exec .start (at_ .start [] [0xAA, 0xBB]))
    = some (.pollReady, true, [false, true]) ∧
    seen (fun t => (t.orch.state, t.spi.cs)) (exec .start (csAt true (at_ .start [] [0xAA, 0xBB])))
    = some (.pollReady, true) := by decide
theorem test_T72_T73 : seen (fun t => (t.orch.state, t.spi.cs)) (exec .pollReady (csAt true (at_ .pollReady [] [0xFE, 0xCC])))
    = some (.countBytes, false) ∧
    seen (fun t => (t.orch.state, t.spi.cs)) (exec .pollReady (csAt true (at_ .pollReady [] [0x03])))
    = some (.pollReady, true) := by decide
theorem test_T74_T75 : seen (fun t => (t.orch.state, t.orch.byteCount))
      (exec .countBytes (at_ .countBytes [0x0D, 0x0A, 0x2E, 0x38, 0x34] [])) = some (.returnBytes, 0x84) ∧
    seen (fun t => t.orch.state) (exec .countBytes (at_ .countBytes [0x2E, 0x38, 0x5A] [])) = some .err := by decide
theorem test_T76 : seen (fun t => (t.orch.state, t.orch.returnBytes))
    (exec .returnBytes (inFrame 0 (at_ .returnBytes [0x38, 0x30] []))) = some (.readData, 0x80) := by decide
theorem test_T77 : seen (fun t => (t.orch.state, t.env.rx)) (exec .readData (inFrame 0 (at_ .readData [0x30] [])))
    = some (.checksum, [0x30]) := by decide
theorem test_T78 : seen (fun t => (t.orch.state, t.orch.idx, t.buf))
    (exec .readData (cells [(0, 0xDE)] (counts 2 0 1 (inFrame 0 (at_ .readData [0x41, 0x44] [])))))
    = some (.readData, 2, [(0, 0xDE), (1, 0xAD)]) := by decide
theorem test_T80 : seen (fun t => (t.orch.state, t.dec.sum, t.buf)) (exec .checksum (inFrame 0x72 (at_ .checksum [0x38, 0x45] [])))
    = some (.run, 0x00, []) := by decide
theorem test_T81_T82 : seen (fun t => (t.orch.state, t.orch.idx, txOf t.trace)) (exec .run (counts 1 0 1 (inFrame 0 (at_ .run [] []))))
    = some (.spiWrite, 0, [0x63, 0x30, 0x30, 0x0A]) ∧
    seen (fun t => (t.orch.state, txOf t.trace)) (exec .run (inFrame 1 (at_ .run [] [])))
    = some (.start, [0x65, 0x46, 0x46, 0x0A]) := by decide
/-- T83, first rule: the burst of one. -/
theorem test_T83 : seen (fun t => (t.orch.state, t.orch.idx, csWrites t.trace, t.spi.cs))
    (exec .spiWrite (cells [(0, 0x06)] (counts 1 0 0 (at_ .spiWrite [] [0]))))
    = some (.spiWrite, 1, [true, false], false) := by decide
theorem test_T84_T86 : seen (fun t => (t.orch.state, csWrites t.trace, t.spi.cs))
      (exec .spiWrite (cells [(0, 3), (1, 0), (2, 0x10), (3, 0)] (counts 4 2 3 (csAt true (at_ .spiWrite [] [0])))))
      = some (.spiWrite, [], true) ∧
    seen (fun t => (t.orch.state, txOf t.trace)) (exec .spiWrite (at_ .spiWrite [] [])) = some (.start, [0x2E, 0x0A]) ∧
    seen (fun t => (t.orch.state, t.spi.cs)) (exec .spiWrite (counts 0 2 0 (at_ .spiWrite [] []))) = some (.spiStall, false) := by
  decide
/-- 93 V1: a cell nothing has written stops SPI_WRITE (no run gets there). -/
theorem test_spiWrite_unwritten : exec .spiWrite (counts 1 0 0 (at_ .spiWrite [] [])) = .fault (.bufUnwritten 0) := by rfl
theorem test_T87 : seen (fun t => (t.orch.state, t.orch.idx, t.buf)) (exec .spiStall (counts 4 2 4 (at_ .spiStall [] [0x11])))
    = some (.spiRead, 0, []) := by decide
theorem test_T88_T89 : seen (fun t => (t.buf, txOf t.trace, t.orch.idx)) (exec .spiRead (counts 1 1 0 (at_ .spiRead [] [0x02])))
      = some ([(0, 0x02)], [0x2E, 0x30, 0x32, 0x0A], 1) ∧
    seen (fun t => (txOf t.trace, t.spi.cs)) (exec .spiRead (counts 1 3 2 (csAt true (at_ .spiRead [] [0xFF]))))
      = some ([0x46, 0x46, 0x0A], false) := by decide
theorem test_spiRead_done : seen (fun t => t.orch.state) (exec .spiRead (counts 1 3 3 (at_ .spiRead [] []))) = some .start := by
  decide
theorem test_T90 : seen (fun t => (t.orch.state, txOf t.trace)) (exec .err (at_ .err [] [])) = some (.start, [0x65, 0x46, 0x46, 0x0A]) := by
  decide

/-! ## Requests and commands, one pass from the rest point -/

/-- P1, the pass from COUNT_BYTES on. -/
theorem test_P1 : seen (fun t => (txOf t.trace, t.orch.state, t.env.rx)) (exec (.req 0 [] 0) (at_ .countBytes [] []))
    = some ([0x63, 0x30, 0x30, 0x0A, 0x2E, 0x0A], .start, [0x0D, 0x0A]) := by decide +kernel
/-- P4: checksum FA in place of F9. -/
theorem test_P4 : seen (fun t => (txOf t.trace, t.orch.state, t.dec.sum, t.buf))
    (exec (.req 0 [0x06] 0xFA) (at_ .countBytes [] []))
    = some ([0x65, 0x46, 0x46, 0x0A], .start, 0x01, [(0, 0x06)]) := by decide +kernel
/-- P2, first pass. -/
theorem test_P2_wren : seen (fun t => (txOf t.trace, csWrites t.trace, t.buf)) (exec .wren (at_ .countBytes [] [0x00]))
    = some ([0x63, 0x30, 0x30, 0x0A, 0x2E, 0x0A], [true, false], [(0, 0x06)]) := by decide +kernel
/-- P2, second pass. -/
theorem test_P2_erase : seen (fun t => (txOf t.trace, csWrites t.trace, t.buf))
    (exec (.sectorErase 0x001000) (at_ .countBytes [] [0, 0, 0, 0]))
    = some ([0x63, 0x30, 0x30, 0x0A, 0x2E, 0x0A], [true, false], [(0, 0x20), (1, 0x00), (2, 0x10), (3, 0x00)]) := by
  decide +kernel
/-- T25: the payload of a page program arrives in the buffer and on the bus. -/
theorem test_T25_program : seen (fun t => (t.buf, (sckWrites t.trace).length, t.spi.cs))
    (exec (.pageProgram 0x200000 [0xDE, 0xAD, 0xBE]) (at_ .countBytes [] [0, 0, 0, 0, 0, 0, 0]))
    = some ([(0, 0x02), (1, 0x20), (2, 0x00), (3, 0x00), (4, 0xDE), (5, 0xAD), (6, 0xBE)], 112, false) := by
  decide +kernel
/-- P3. -/
theorem test_P3 : seen (fun t => (txOf t.trace, t.buf, t.orch.idx))
    (exec (.read 0x001000 2) (at_ .countBytes [] [0x00, 0x00, 0x00, 0x00, 0x11, 0x22, 0x33]))
    = some ([0x63, 0x30, 0x30, 0x0A, 0x2E, 0x32, 0x32, 0x33, 0x33, 0x0A],
        [(0, 0x22), (1, 0x33), (2, 0x10), (3, 0x00)], 2) := by decide +kernel
/-- P8. -/
theorem test_P8 : seen (fun t => txOf t.trace) (exec (.readStatus 1) (at_ .countBytes [] [0xFF, 0xEE, 0x02]))
    = some [0x63, 0x30, 0x30, 0x0A, 0x2E, 0x30, 0x32, 0x0A] := by decide +kernel
/-- R186: three bytes of identification behind the stall byte. -/
theorem test_readId : seen (fun t => txOf t.trace) (exec (.readId 3) (at_ .countBytes [] [0xFF, 0xEE, 0xEF, 0x40, 0x18]))
    = some [0x63, 0x30, 0x30, 0x0A, 0x2E, 0x45, 0x46, 0x34, 0x30, 0x31, 0x38, 0x0A] := by decide +kernel
/-- P7: no payload, two bytes back: chip-select stays down. -/
theorem test_P7 : seen (fun t => (txOf t.trace, csWrites t.trace)) (exec (.req 2 [] 0xFE) (at_ .countBytes [] [0x77, 0x88, 0x99]))
    = some ([0x63, 0x30, 0x30, 0x0A, 0x2E, 0x38, 0x38, 0x39, 0x39, 0x0A], [false]) := by decide +kernel
/-- The table's word for WREN, placed and fetched, is the first instruction after reset. -/
theorem test_fetchWord : seen (fun t => txOf t.trace)
    (step ({ State.reset with env := { Env.reset with miso := misoOf [0] } }.withFetchWord 8 0x06))
    = some [0x63, 0x30, 0x30, 0x0A, 0x2E, 0x0A] := by decide +kernel

/-! ## Ports and the host -/

/-- R30, R95: a byte is taken while a decode is outstanding and no error is recorded. -/
theorem test_rxReady : State.reset.rxReady = false ∧
    State.rxReady { State.reset with dec := { Dec.reset with busy := true } } = true ∧
    State.rxReady { State.reset with dec := { Dec.reset with busy := true, err := true } } = false := by decide
/-- R229: the `c` line is skipped; so is what is left of it where the link resumes behind `c00` (R226). -/
theorem test_hostResponse :
    hostResponse [0x63, 0x30, 0x30, 0x0A, 0x2E, 0x30, 0x32, 0x0A] = some [0x2E, 0x30, 0x32] ∧
    hostResponse [0x0A, 0x2E, 0x0A] = some [0x2E] := by decide
/-- R229: an error line is a response; without a line that starts with `.` or `e` there is none. -/
theorem test_hostResponse_end : hostResponse [0x0A, 0x65, 0x46, 0x46, 0x0A] = some [0x65, 0x46, 0x46] ∧
    hostResponse [0x0A, 0x63, 0x30, 0x30, 0x0A, 0x0A] = none ∧ hostResponse [] = none := by decide

/-! ## Witnesses: a state and operands that meet the hypotheses of each statement -/

/-- Reset at the beginning of a step, and after ten events of START. -/
theorem witness_RstForcesResetValues :
    State.env { State.reset with env := { Env.reset with rst := [some 0] } } = { Env.reset with rst := [some 0] } ∧
    (∃ u, step { at_ .start [] [0, 0] with env := { (at_ .start [] [0, 0]).env with rst := none :: [] } } = .next u) :=
  ⟨rfl, ⟨_, rfl⟩⟩
theorem witness_EventsAreNeverUndone :
    ∃ t, step { at_ .err [] [] with env := { Env.reset with rst := [some 2] } } = .next t := ⟨_, rfl⟩
theorem witness_StepRunsDecodedInstruction : rstAsserted (given (.payload 0 [0x06]) State.reset) = false ∧
    decode (fetch (given (.payload 0 [0x06]) State.reset)) = .ok .wren ∧
    rstAsserted State.reset = false ∧ State.reset.stimuli = [] := by decide
theorem witness_AnyTextIsOfferedAsItStands : rstAsserted (given (.rx [0x67]) State.reset) = false ∧
    (given (.rx [0x67]) State.reset).stimuli = .rx [0x67] :: [] := by decide
theorem witness_DecodeOfEncodeIsIdentity : (Instr.req 0 (List.replicate 255 1) 0).wf = true ∧
    (Instr.pageProgram 0 (List.replicate 128 0xFF)).wf = true ∧ (Instr.read 0xFFFFFF 255).wf = true := by decide +kernel
theorem witness_RequestTextHasOneReading :
    decode (.rx [0x2E, 0x30, 0x30, 0x30, 0x30, 0x30, 0x30, 0x0D, 0x0A]) = .ok (.req 0 [] 0) := by decide
/-- DEC hunting, junk with a digit before the marker, digits of both cases: a new request and one from the rest point. -/
theorem witness_DecByteHuntsAndDelivers :
    (let s := at_ .countBytes ([0x0A, 0x39] ++ 0x2E :: 0x41 :: 0x66 :: [0x30]) []
     s.dec.busy = false ∧ s.dec.err = false ∧ s.dec.inFrame = false ∧ chDot ∉ [(0x0A : Byte), 0x39] ∧
     hexval 0x41 = some 10 ∧ hexval 0x66 = some 15 ∧
     s.env.rx = [0x0A, 0x39] ++ chDot :: 0x41 :: 0x66 :: [0x30]) ∧
    (let s := asked (at_ .countBytes [0x2E, 0x41, 0x66] [])
     s.dec.busy = true ∧ s.dec.err = false ∧ s.dec.inFrame = false ∧
     s.env.rx = [] ++ chDot :: 0x41 :: 0x66 :: []) := by decide
theorem witness_DecByteInsideFrame :
    (let s := inFrame 0xFF (at_ .readData [0x30, 0x46] [])
     s.dec.busy = false ∧ s.dec.err = false ∧ s.dec.inFrame = true ∧ hexval 0x30 = some 0 ∧ hexval 0x46 = some 15 ∧
     s.env.rx = 0x30 :: 0x46 :: []) ∧
    (let s := { at_ .readData [0x46] [] with
       dec := { inFrame := true, err := false, sum := 0, busy := true, hi := 15, haveHi := true } }
     s.dec.busy = true ∧ s.dec.err = false ∧ s.dec.inFrame = true ∧ s.dec.haveHi = true ∧ hexval 0x46 = some 15 ∧
     s.env.rx = 0x46 :: []) := by decide
/-- Inside a frame: a new request, one that waited without a digit (in either position), and a `.` for a digit. -/
theorem witness_BadCharacterFailsDecode :
    (let s := inFrame 1 (at_ .readData [0x47] [])
     s.dec.busy = false ∧ s.dec.err = false ∧ s.dec.inFrame = true ∧ hexval 0x47 = none ∧ s.env.rx = 0x47 :: []) ∧
    (let s := inFrame 1 (at_ .readData [0x30, 0x2E] [])
     s.dec.busy = false ∧ s.dec.err = false ∧ s.dec.inFrame = true ∧ hexval 0x30 = some 0 ∧ hexval 0x2E = none ∧
     s.env.rx = 0x30 :: 0x2E :: []) ∧
    (let s := asked (inFrame 0 (at_ .countBytes [0x38, 0x5A] []))
     s.dec.busy = true ∧ s.dec.haveHi = false ∧ s.dec.err = false ∧ s.dec.inFrame = true ∧ hexval 0x38 = some 8 ∧
     hexval 0x5A = none ∧ s.env.rx = 0x38 :: 0x5A :: []) := by decide
/-- The error starts in the hunt: T40 for a new request, T75 from the rest point. -/
theorem witness_BadCharacterBehindMarker :
    (let s := at_ .countBytes ([0x0A] ++ 0x2E :: 0x2E :: [0x30, 0x31]) []
     s.dec.busy = false ∧ s.dec.err = false ∧ s.dec.inFrame = false ∧ chDot ∉ [(0x0A : Byte)] ∧ hexval 0x2E = none ∧
     s.env.rx = [0x0A] ++ chDot :: 0x2E :: [0x30, 0x31]) ∧
    (let s := asked (at_ .countBytes [0x2E, 0x38, 0x5A] [])
     s.dec.busy = true ∧ s.dec.err = false ∧ s.dec.inFrame = false ∧ hexval 0x38 = some 8 ∧ hexval 0x5A = none ∧
     s.env.rx = [] ++ chDot :: 0x38 :: 0x5A :: [] ∧
     (Instr.countBytes = .readData → s.orch.idx ≠ s.orch.byteCount)) := by decide
/-- T40 and T75 of 95_test_vectors.md: what DEC takes and what it is left as. -/
theorem test_hunt_bad : decByteOp (at_ .countBytes [0x2E, 0x2E, 0x30, 0x31] []) = (.error,
      (at_ .countBytes [] []).withDec { Dec.reset with inFrame := true, err := true } [0x2E, 0x2E] [0x30, 0x31]) ∧
    (decByteOp (asked (at_ .countBytes [0x2E, 0x38, 0x5A] []))).1 = .error := by decide
theorem witness_DecByteWaits :
    (let s := at_ .countBytes [0x0D, 0x0A] []
     s.dec.busy = false ∧ s.dec.err = false ∧ s.dec.inFrame = false ∧ chDot ∉ s.env.rx) ∧
    (let s := asked (at_ .countBytes [0x0D, 0x0A] [])
     s.dec.busy = true ∧ s.dec.err = false ∧ s.dec.inFrame = false ∧ chDot ∉ s.env.rx) ∧
    State.dec { State.reset with dec := { Dec.reset with err := true } } = { Dec.reset with err := true } := by decide
theorem witness_FreshMarkerAcceptedAfterError :
    let s := { at_ .countBytes [0x2E, 0x30, 0x31] [] with dec := { Dec.reset with inFrame := true, err := true } }
    s.dec.err = true ∧ hexval 0x30 = some 0 ∧ hexval 0x31 = some 1 ∧ s.env.rx = chDot :: 0x30 :: 0x31 :: [] := by decide
theorem witness_RequestFrameDecodesToItsFields :
    let s := at_ .countBytes ([0x0A] ++ (reqFrame 0 (List.replicate 255 1) ++ [0x2E])) []
    (List.replicate 255 (1 : Byte)).length ≤ 255 ∧ s.dec.busy = false ∧ s.dec.err = false ∧ s.dec.inFrame = false ∧
    chDot ∉ [(0x0A : Byte)] ∧ s.env.rx = [0x0A] ++ (reqFrame 0 (List.replicate 255 1) ++ [0x2E]) := by decide +kernel
theorem witness_BusyBlockRefuses :
    (let s := { State.reset with spi := { Spi.reset with ready := false } }; s.spi.ready = false) ∧
    (let s := { State.reset with dec := { Dec.reset with busy := true } }; s.dec.busy = true) ∧
    (let s := { State.reset with enc := { busy := true, pending := [0x0A] } }; s.enc.busy = true) := by decide
theorem witness_EncByteSendsItsCharacters : State.reset.enc.busy = false ∧ State.reset.env.txReady = [] := by decide
theorem witness_EncByteLosesNothing : (txAnswers [false] State.reset).enc.busy = false := by decide
theorem witness_EncByteWaitsForTheTransport :
    let s := txAnswers [true, true, true, false] State.reset
    s.enc.busy = false ∧ 3 < (encChars 0x3C 0x2E true true false).length ∧
    s.env.txReady = List.replicate 3 true ++ false :: [] := by decide
theorem witness_ResponseFramesHaveTheirCharacters : State.reset.enc.busy = false ∧ State.reset.env.txReady = [] := by
  decide
theorem witness_SpiXferExchangesOneByte : (at_ .start [] [0x3C]).BusFree := ⟨rfl, rfl⟩
theorem witness_TransferTogglesSixteenTimes : (csAt true (at_ .start [] [0x3C])).BusFree := ⟨rfl, rfl⟩
theorem witness_BurstKeepsChipSelect : (at_ .start [] [1, 2]).BusFree ∧ (at_ .start [] [1, 2]).spi.cs = false :=
  ⟨⟨rfl, rfl⟩, rfl⟩
theorem witness_StartReleasesAndOpensStatusBurst : State.reset.BusFree := ⟨rfl, rfl⟩
theorem witness_PollReadyTestsBitZero :
    (at_ .pollReady [] [0x03]).BusFree ∧ (at_ .pollReady [] [0x03]).env.nextByte.1.getLsbD 0 = true ∧
    (at_ .pollReady [] [0xFE]).BusFree ∧ (at_ .pollReady [] [0xFE]).env.nextByte.1.getLsbD 0 = false :=
  ⟨⟨rfl, rfl⟩, by decide, ⟨rfl, rfl⟩, by decide⟩
/-- P10, the first two status bytes. -/
theorem witness_BusyFlashStallsPolling :
    let s := csAt true (at_ .pollReady [] [0x01, 0x03])
    s.BusFree ∧ s.orch.state = .pollReady ∧ s.stimuli = [] ∧ s.env.rst = [] ∧
    (∀ j, j < 2 → s.env.miso[8 * j + 7]? = some true) := ⟨⟨rfl, rfl⟩, rfl, rfl, rfl, by decide⟩
theorem witness_CountBytesLoadsByteCount :
    let s := at_ .countBytes ([0x0D, 0x0A] ++ 0x2E :: 0x38 :: 0x34 :: []) []
    s.dec.err = false ∧ s.dec.inFrame = false ∧ chDot ∉ [(0x0D : Byte), 0x0A] ∧ hexval 0x38 = some 8 ∧
    hexval 0x34 = some 4 ∧ s.env.rx = [0x0D, 0x0A] ++ chDot :: 0x38 :: 0x34 :: [] := by decide
/-- The clauses of the four decoding rules about an error and a wait, and those about the invariant. -/
theorem witness_DecodingOutcomes : (decByteOp (counts 2 0 1 (inFrame 0 (at_ .readData [0x0D] [])))).1 = .error ∧
    (counts 2 0 1 (inFrame 0 (at_ .readData [0x0D] []))).orch.idx ≠
      (counts 2 0 1 (inFrame 0 (at_ .readData [0x0D] []))).orch.byteCount ∧
    (decByteOp (at_ .countBytes [0x0D] [])).1 = .waiting := by decide
theorem witness_InvAtCountBytes : (at_ .countBytes [] []).Inv ∧ (at_ .countBytes [] []).orch.state = .countBytes :=
  ⟨⟨rfl, ⟨rfl, rfl, rfl, .inl rfl⟩, rfl, rfl, ⟨by decide, rfl, fun _ => rfl⟩, ⟨rfl, rfl⟩, rfl⟩, rfl⟩
theorem witness_InvAtReturnBytes : (inFrame 4 (at_ .returnBytes [] [])).Inv ∧
    (inFrame 4 (at_ .returnBytes [] [])).orch.state = .returnBytes :=
  ⟨⟨rfl, ⟨rfl, rfl, rfl, .inl rfl⟩, rfl, rfl, ⟨by decide, rfl, rfl⟩, ⟨rfl, rfl⟩, rfl⟩, rfl⟩
/-- On entry to SPI_WRITE, with one byte to send. -/
theorem witness_InvAtSpiWrite : (cells [(0, 6)] (counts 1 0 0 (inFrame 0 (at_ .spiWrite [] [])))).Inv ∧
    (cells [(0, 6)] (counts 1 0 0 (inFrame 0 (at_ .spiWrite [] [])))).orch.state = .spiWrite ∧
    (cells [(0, 6)] (counts 1 0 0 (inFrame 0 (at_ .spiWrite [] [])))).orch.idx = 0 :=
  ⟨⟨rfl, ⟨rfl, rfl, rfl, .inl rfl⟩, rfl, ⟨by decide, fun a h => by rw [Nat.lt_one_iff.mp h]; rfl⟩,
    ⟨by decide, rfl, rfl, rfl⟩, ⟨rfl, fun h => absurd h (by decide)⟩, rfl⟩, rfl, rfl⟩
theorem witness_ReturnBytesLoadsReturnBytes :
    let s := inFrame 0 (at_ .returnBytes [0x46, 0x66] [])
    s.dec.err = false ∧ s.dec.inFrame = true ∧ (s.dec.busy = true → s.dec.haveHi = false) ∧ hexval 0x46 = some 15 ∧
    hexval 0x66 = some 15 ∧ s.env.rx = 0x46 :: 0x66 :: [] := by decide
/-- The two clauses at the cursor's ends: nothing to read, and the last cell, 254. -/
theorem witness_ReadDataStoresPayload :
    (counts 255 0 255 (at_ .readData [] [])).orch.idx = (counts 255 0 255 (at_ .readData [] [])).orch.byteCount ∧
    (let s := counts 255 0 254 (inFrame 0 (at_ .readData [0x30, 0x31] []))
     s.orch.idx ≠ s.orch.byteCount ∧ s.orch.idx ≠ 255 ∧ s.dec.err = false ∧ s.dec.inFrame = true ∧
     (s.dec.busy = true → s.dec.haveHi = false) ∧ hexval 0x30 = some 0 ∧ hexval 0x31 = some 1 ∧
     s.env.rx = 0x30 :: 0x31 :: []) := by decide
theorem witness_ChecksumCompletesTheSum :
    let s := inFrame 0x72 (at_ .checksum [0x38, 0x45] [])
    s.dec.err = false ∧ s.dec.inFrame = true ∧ (s.dec.busy = true → s.dec.haveHi = false) ∧ hexval 0x38 = some 8 ∧
    hexval 0x45 = some 14 ∧ s.env.rx = 0x38 :: 0x45 :: [] := by decide
theorem witness_DecodeErrorGoesToErr_second :
    let s := asked (inFrame 0 (at_ .checksum [0x46, 0x47] []))
    s.dec.err = false ∧ s.dec.inFrame = true ∧ s.dec.busy = true ∧ s.dec.haveHi = false ∧ hexval 0x46 = some 15 ∧
    hexval 0x47 = none ∧ s.env.rx = 0x46 :: 0x47 :: [] ∧
    (Instr.checksum = .readData → s.orch.idx ≠ s.orch.byteCount) := by decide
theorem witness_DecodeErrorGoesToErr :
    let s := counts 2 0 1 (inFrame 0 (at_ .readData [0x0D] []))
    s.dec.err = false ∧ s.dec.inFrame = true ∧ hexval 0x0D = none ∧ s.env.rx = 0x0D :: [] ∧
    (Instr.readData = .readData → s.orch.idx ≠ s.orch.byteCount) := by decide
theorem witness_DecodingStateWaitsForRx :
    let s := counts 1 0 0 (inFrame 0 (at_ .readData [] []))
    s.env.rx = [] ∧ (Instr.readData = .readData → s.orch.idx ≠ s.orch.byteCount) := by decide
theorem witness_RunConfirmsOrRejectsTheChecksum :
    (let s := inFrame 0 (at_ .run [] []); s.enc.busy = false ∧ s.env.txReady = [] ∧ s.dec.sum = 0) ∧
    (let s := inFrame 255 (at_ .run [] []); s.enc.busy = false ∧ s.env.txReady = [] ∧ s.dec.sum ≠ 0) := by decide
theorem witness_RunForEitherDiagParameter :
    (let s := inFrame 0 (at_ .run [] []); s.enc.busy = false ∧ s.env.txReady = [] ∧ s.dec.sum = 0) ∧
    (let s := inFrame 1 (at_ .run [] []); s.enc.busy = false ∧ s.env.txReady = [] ∧ s.dec.sum ≠ 0) := by decide
/-- The last cell, the end without and with bytes to return. -/
theorem witness_SpiWriteStreamsTheBuffer :
    (let s := cells [(254, 7)] (counts 255 0 254 (csAt true (at_ .spiWrite [] [0])))
     s.BusFree ∧ s.orch.idx ≠ s.orch.byteCount ∧ s.orch.idx ≠ 255 ∧ s.buf.get s.orch.idx.toNat = some 7) ∧
    (let s := counts 255 0 255 (at_ .spiWrite [] [])
     s.orch.idx = s.orch.byteCount ∧ s.orch.returnBytes = 0 ∧ s.enc.busy = false ∧ s.env.txReady = []) ∧
    (let s := counts 0 1 0 (at_ .spiWrite [] []); s.orch.idx = s.orch.byteCount ∧ s.orch.returnBytes ≠ 0) :=
  ⟨⟨⟨rfl, rfl⟩, by decide⟩, by decide⟩
theorem witness_SpiStallPacesTheBus : (counts 4 2 4 (csAt true (at_ .spiStall [] [0x11]))).BusFree := ⟨rfl, rfl⟩
theorem witness_SpiReadReturnsBytes :
    (let s := counts 1 255 254 (csAt true (at_ .spiRead [] [0xFF]))
     s.BusFree ∧ s.orch.idx ≠ s.orch.returnBytes ∧ s.orch.idx ≠ 255 ∧ s.enc.busy = false ∧ s.env.txReady = []) ∧
    (counts 1 255 255 (at_ .spiRead [] [])).orch.idx = (counts 1 255 255 (at_ .spiRead [] [])).orch.returnBytes :=
  ⟨⟨⟨rfl, rfl⟩, by decide⟩, by decide⟩
theorem witness_ErrReportsAndRestarts :
    (at_ .err [] []).enc.busy = false ∧ (at_ .err [] []).env.txReady = [] := by decide
/-- The ends of SPI_WRITE and SPI_READ exclude each other, so one state for each; RUN and ERR have no condition. -/
theorem witness_EncoderWaitHoldsTheRule :
    (let s := { txAnswers [true, false] (counts 1 0 1 (at_ .spiWrite [] [])) with
                enc := { busy := true, pending := [0x2E, 0x0A] } }
     s.enc.busy = true ∧ 1 < s.enc.pending.length ∧ s.env.txReady = List.replicate 1 true ++ false :: [] ∧
     Instr.spiWrite ∈ [Instr.run, .spiWrite, .spiRead, .err] ∧
     s.orch.idx = s.orch.byteCount ∧ s.orch.returnBytes = 0) ∧
    (let s := { txAnswers [false] (counts 1 2 0 (at_ .spiRead [] [])) with enc := { busy := true, pending := [0x0A] } }
     s.enc.busy = true ∧ 0 < s.enc.pending.length ∧ s.env.txReady = List.replicate 0 true ++ false :: [] ∧
     Instr.spiRead ∈ [Instr.run, .spiWrite, .spiRead, .err] ∧ s.orch.idx ≠ s.orch.returnBytes) := by decide
/-- Going on: RUN with sum 0 at the end of the payload, RUN with another sum in the middle of a read. -/
theorem witness_EncoderGoesOn :
    (let s := { counts 1 0 1 (at_ .run [] []) with enc := { busy := true, pending := [0x0A] } }
     s.enc.busy = true ∧ s.env.txReady = [] ∧ s.dec.sum = 0 ∧ s.orch.idx = s.orch.byteCount ∧ s.orch.returnBytes = 0) ∧
    (let s := { counts 1 2 0 (inFrame 255 (at_ .spiRead [] [])) with enc := { busy := true, pending := [0x0A] } }
     s.enc.busy = true ∧ s.env.txReady = [] ∧ s.dec.sum ≠ 0 ∧ s.orch.idx ≠ s.orch.returnBytes) := by decide
/-- The last character of each call is the one not accepted. -/
theorem witness_EncoderCallBeginsToWait :
    (let s := txAnswers [true, true, true, false] (inFrame 0 (at_ .run [] []))
     s.enc.busy = false ∧ s.env.txReady = List.replicate 3 true ++ false :: [] ∧ s.dec.sum = 0) ∧
    (let s := txAnswers [true, true, true, false] (inFrame 255 (at_ .run [] []))
     s.enc.busy = false ∧ s.env.txReady = List.replicate 3 true ++ false :: [] ∧ s.dec.sum ≠ 0) ∧
    (let s := txAnswers [true, false] (counts 255 0 255 (at_ .spiWrite [] []))
     s.enc.busy = false ∧ s.env.txReady = List.replicate 1 true ++ false :: [] ∧ s.orch.idx = s.orch.byteCount ∧
     s.orch.returnBytes = 0) ∧
    (let s := txAnswers [true, true, true, false] (counts 1 1 0 (at_ .spiRead [] [0x22]))
     s.enc.busy = false ∧ s.env.txReady = List.replicate 3 true ++ false :: [] ∧ s.spi.ready = true ∧
     s.spi.sck = false ∧ s.orch.idx ≠ s.orch.returnBytes ∧ s.orch.idx ≠ 255 ∧
     3 < ((if s.orch.idx = 0 then [chDot] else []) ++ hex2 s.env.nextByte.1 ++
       (if s.orch.idx = s.orch.returnBytes - 1 then [chLF] else [])).length) := by decide
/-- What SPI_READ leaves when its call has to wait: the cell stored, the cursor where it was, one character out; and
going on makes no second transfer (R105, R141). -/
theorem test_spiRead_waits :
    seen (fun t => (t.buf.get 0, t.orch.idx, txOf t.trace, t.enc.pending))
      (exec .spiRead (txAnswers [true, false] (counts 1 2 0 (at_ .spiRead [] [0x22]))))
      = some (some 0x22, 0, [0x2E], [0x32, 0x32]) ∧
    seen (fun t => (t.orch.idx, txOf t.trace, t.env.miso.length))
      (exec .spiRead { counts 1 2 0 (at_ .spiRead [] [0x33]) with enc := { busy := true, pending := [0x32, 0x32] } })
      = some (1, [0x32, 0x32], 8) := by decide
/-- A digit, then nothing; and then the second digit (R26). -/
theorem test_latched_digit :
    seen (fun t => (t.orch.state, t.dec.busy, t.dec.hi, t.dec.haveHi)) (exec .checksum (inFrame 0 (at_ .checksum [0x38] [])))
      = some (.checksum, true, 8, true) ∧
    seen (fun t => (t.orch.state, t.orch.returnBytes, t.dec.sum))
      (exec .returnBytes { at_ .returnBytes [0x30] [] with
        dec := { inFrame := true, err := false, sum := 4, busy := true, hi := 8, haveHi := true } })
      = some (.readData, 0x80, 0x84) := by decide
theorem witness_LatchedDigit :
    let s := { counts 255 0 254 (at_ .readData [0x46] []) with
      dec := { inFrame := true, err := false, sum := 0, busy := true, hi := 15, haveHi := true } }
    s.orch.idx ≠ s.orch.byteCount ∧ s.orch.idx ≠ 255 ∧ s.dec.err = false ∧ s.dec.inFrame = true ∧ s.dec.busy = true ∧
    s.dec.haveHi = true ∧ hexval 0x46 = some 15 ∧ s.env.rx = 0x46 :: [] := by decide
/-- COUNT_BYTES waited behind the marker. -/
theorem witness_MarkerTaken :
    let s := { at_ .countBytes [0x38, 0x34] [] with
      dec := { inFrame := true, err := false, sum := 0, busy := true, hi := 0, haveHi := false } }
    s.dec.err = false ∧ s.dec.inFrame = true ∧ s.dec.busy = true ∧ s.dec.haveHi = false ∧ hexval 0x38 = some 8 ∧
    hexval 0x34 = some 4 ∧ s.env.rx = 0x38 :: 0x34 :: [] := by decide
/-- The marker, or one digit, and then nothing, for a new request and for one that waits without a digit. -/
theorem witness_OneDigit :
    (let s := inFrame 0 (at_ .returnBytes [0x46] [])
     s.dec.busy = false ∧ s.dec.err = false ∧ s.dec.inFrame = true ∧ hexval 0x46 = some 15 ∧ s.env.rx = [0x46]) ∧
    (let s := asked (inFrame 0 (at_ .countBytes [0x46] []))
     s.dec.busy = true ∧ s.dec.haveHi = false ∧ s.dec.err = false ∧ s.dec.inFrame = true ∧ s.env.rx = [0x46]) ∧
    (let s := at_ .countBytes ([0x0A] ++ [0x2E, 0x46]) []
     s.dec.busy = false ∧ s.dec.err = false ∧ s.dec.inFrame = false ∧ chDot ∉ [(0x0A : Byte)] ∧
     s.env.rx = [0x0A] ++ [chDot, 0x46]) ∧
    (let s := asked (at_ .countBytes [0x2E, 0x46] [])
     s.dec.busy = true ∧ s.dec.err = false ∧ s.dec.inFrame = false ∧ s.env.rx = [] ++ [chDot, 0x46]) ∧
    (let s := asked (at_ .countBytes ([0x0A] ++ [0x2E]) [])
     s.dec.busy = true ∧ s.dec.err = false ∧ s.dec.inFrame = false ∧ chDot ∉ [(0x0A : Byte)] ∧
     s.env.rx = [0x0A] ++ [chDot]) := by decide
/-- A resumed request meets a bad character. -/
theorem witness_BadCharacterResumed :
    let s := { at_ .readData [0x0D] [] with
      dec := { inFrame := true, err := false, sum := 0, busy := true, hi := 15, haveHi := true } }
    s.dec.busy = true ∧ s.dec.err = false ∧ s.dec.inFrame = true ∧ hexval 0x0D = none ∧ s.env.rx = 0x0D :: [] := by decide

/-- The rest point with nothing more to come (R157). -/
def endState : State :=
  { at_ .countBytes [] [] with dec := { Dec.reset with busy := true } }

/-- R157, D23; and 93 U1: while the flash is busy a bounded run has no result. -/
theorem test_run_end : (runToEnd 0 endState).isSome = true ∧
    (runToEnd 3 (at_ .start [0x0D, 0x0A] [0, 0, 0, 0])).isSome = true ∧
    (runToEnd 2 (at_ .pollReady [] [1, 1])).isSome = false := by decide +kernel
/-- Two busy status bytes and an idle one, the last request's terminator on RX. -/
theorem witness_RunEndsAtTheRestPoint :
    endState.runEnded = true ∧
    (let s := at_ .start [0x0D, 0x0A] [0xAA, 0xBB, 0x01, 0x03, 0xFE, 0x00]
     s.BusFree ∧ s.enc.busy = false ∧ s.orch.state = .start ∧ s.stimuli = [] ∧ s.env.rst = [] ∧ chDot ∉ s.env.rx ∧
     (∀ j, j < 2 → s.env.miso[16 + 8 * j + 7]? = some true) ∧ s.env.miso[16 + 8 * 2 + 7]? = some false) :=
  ⟨by decide, ⟨rfl, rfl⟩, by decide⟩
theorem witness_RunEndsAtTheRestPoint_still : endState.Inv ∧ endState.env.rx = [] ∧ endState.stimuli = [] ∧
    endState.env.rst = [] ∧ step endState = .next endState :=
  ⟨⟨rfl, ⟨rfl, rfl, rfl, .inl rfl⟩, rfl, rfl, ⟨by decide, rfl, fun _ => rfl⟩, ⟨rfl, rfl⟩, rfl⟩, rfl, rfl, rfl, rfl⟩
theorem witness_TransitionsFollowTheTable : seen (fun t => t.orch.state) (orchRule (at_ .countBytes [] [])) = some .countBytes ∧
    seen (fun t => t.orch.state) (orchRule (inFrame 1 (at_ .run [] []))) = some .start := by decide
theorem witness_LengthRegistersHaveOneWriter :
    ∃ t, exec .run (inFrame 1 (at_ .run [] [])) = .next t := ⟨_, rfl⟩
theorem witness_OnlyTransfersTouchTheBus : ∃ t, exec .ack State.reset = .next t := ⟨_, rfl⟩
theorem witness_OnlyTwoStatesWriteTheBuffer : ∃ t, exec .spiStall (at_ .spiStall [] [0]) = .next t := ⟨_, rfl⟩
theorem witness_OnlyDecodersWriteDec : ∃ t, exec .err (at_ .err [] []) = .next t := ⟨_, rfl⟩

/-- The state the statements about requests and commands start from, with junk on RX and bytes on the data-in line. -/
def restState : State := at_ .countBytes [0x0D, 0x0A] [0x00, 0x11, 0x22]

theorem witness_Resting : restState.Resting ∧ restState.env.txReady = [] ∧ chDot ∉ restState.env.rx := by
  refine ⟨⟨rfl, rfl, rfl, rfl, rfl, rfl, rfl, rfl⟩, rfl, by decide⟩
theorem witness_RequestPassesThrough : restState.Resting ∧ restState.env.txReady = [] ∧ chDot ∉ restState.env.rx ∧
    (List.replicate 255 (1 : Byte)).length ≤ 255 := ⟨witness_Resting.1, witness_Resting.2.1, witness_Resting.2.2, by decide +kernel⟩
/-- The empty request, a command without operands and one with any address need the rest point only. -/
theorem witness_ScenarioLawsHold_empty : restState.Resting ∧ restState.env.txReady = [] ∧ chDot ∉ restState.env.rx :=
  witness_Resting
theorem witness_WrenSendsOneByteBurst : restState.Resting ∧ restState.env.txReady = [] ∧ chDot ∉ restState.env.rx :=
  witness_Resting
theorem witness_SectorEraseSendsCommandAndAddress :
    restState.Resting ∧ restState.env.txReady = [] ∧ chDot ∉ restState.env.rx := witness_Resting
theorem witness_ReadWithoutCount : restState.Resting ∧ restState.env.txReady = [] ∧ chDot ∉ restState.env.rx :=
  witness_Resting
theorem witness_StatusAndIdReadsReturnBytes : restState.Resting ∧ restState.env.txReady = [] ∧
    chDot ∉ restState.env.rx ∧ (Instr.readId 255, (0x9F : Byte)) ∈ [(Instr.readStatus 255, (0x05 : Byte)), (Instr.readId 255, 0x9F)] ∧
    (255 : Byte) ≠ 0 ∧ (Instr.readStatus 0, (0x05 : Byte)) ∈ [(Instr.readStatus 0, (0x05 : Byte)), (Instr.readId 0, 0x9F)] :=
  ⟨witness_Resting.1, witness_Resting.2.1, witness_Resting.2.2, by decide, by decide, by decide⟩
theorem witness_ScenarioLawsHold_corrupted : restState.Resting ∧ restState.env.txReady = [] ∧ chDot ∉ restState.env.rx ∧
    [(0x06 : Byte)].length ≤ 255 ∧ (0xFA : Byte) ≠ checksumOf 0 [0x06] :=
  ⟨witness_Resting.1, witness_Resting.2.1, witness_Resting.2.2, by decide, by decide⟩
theorem witness_PageProgramSendsItsData : restState.Resting ∧ restState.env.txReady = [] ∧ chDot ∉ restState.env.rx ∧
    (List.replicate 250 (0xAA : Byte)).length < 251 := ⟨witness_Resting.1, witness_Resting.2.1, witness_Resting.2.2, by decide +kernel⟩
theorem witness_ReadReturnsTheLastBytes : restState.Resting ∧ restState.env.txReady = [] ∧ chDot ∉ restState.env.rx ∧
    (255 : Byte) ≠ 0 := ⟨witness_Resting.1, witness_Resting.2.1, witness_Resting.2.2, by decide⟩
theorem witness_RequestWaitsWhileBusPolls : State.reset.betweenRequests = true ∧
    (at_ .pollReady [] []).betweenRequests = true := by decide
theorem witness_BufferStaysCanonical : (cells [(0, 1), (254, 2)] (at_ .run [] [])).buf.wf = true ∧
    (∃ t, step (cells [(0, 1), (254, 2)] (inFrame 1 (at_ .run [] []))) = .next t) := ⟨by decide, ⟨_, rfl⟩⟩
theorem witness_RxIsConsumedOnceInOrder : ∃ t, orchRule (at_ .countBytes [0x2E, 0x30, 0x31] []) = .next t := ⟨_, rfl⟩
/-- A host's bytes pending, the status burst open. -/
theorem witness_EveryStepKeepsTheInvariant :
    (given (.rx [0x2E, 0x30]) (csAt true (at_ .pollReady [0x2E] [0x00]))).Inv :=
  ⟨rfl, ⟨rfl, rfl, rfl, .inl rfl⟩, rfl, rfl, ⟨by decide, rfl, rfl, rfl⟩, ⟨rfl, rfl⟩, rfl⟩

end Sys2Proof.Tests
end

section
/-! PROOF of EventsAreNeverUndone (00_scope R8, 20_memory R47): what a step can answer, that every instruction only adds
events, and that a reset inside a step keeps the events so far. -/

namespace Sys2Proof.Machine

/-! ## What a step answers -/

@[simp] theorem sampleRst_trace (s : State) : (sampleRst s).trace = s.trace := rfl

@[simp] theorem afterFetch_trace (s : State) : (afterFetch s).trace = s.trace := rfl

@[simp] theorem rewind_trace (n : Nat) (s t : State) :
    (rewind n s t).trace = s.trace ++ (t.trace.drop s.trace.length).take n := rfl

/-- A fetched word is carried out as the instruction it decodes to, or, as text on RX, offered to DEC (R72). -/
theorem carryOut_next (s t : State) (h : carryOut s = .next t) :
    (∃ i, decode (fetch s) = .ok i ∧ exec i (afterFetch s) = .next t) ∨
    (∃ r cs, decode (fetch s) = .error r ∧ fetch s = .rx cs ∧ handleText cs (afterFetch s) = .next t) := by
  unfold carryOut at h
  cases hd : decode (fetch s) with
  | ok i =>
    simp only [hd] at h
    exact .inl ⟨i, rfl, h⟩
  | error r =>
    simp only [hd] at h
    cases hf : fetch s with
    | rx cs =>
      rw [hf] at h
      exact .inr ⟨r, cs, rfl, rfl, h⟩
    | tx | payload | lines | orch =>
      rw [hf] at h
      cases h

/-- A step carries out the fetched word; or takes reset instead; or takes reset after some events of it (R220, R223). -/
theorem step_next (s t : State) (h : step s = .next t) :
    (rstSample s = none ∧ carryOut s = .next t) ∨
    (rstSample s = some 0 ∧ t = takeReset (sampleRst s)) ∨
    (∃ n u, rstSample s = some (n + 1) ∧ carryOut s = .next u ∧ t = takeReset (rewind (n + 1) s u)) := by
  unfold step at h
  split at h
  next hr => exact .inl ⟨hr, h⟩
  next hr =>
    cases h
    exact .inr (.inl ⟨hr, rfl⟩)
  next n hr =>
    cases hc : carryOut s with
    | next u =>
      rw [hc] at h
      cases h
      exact .inr (.inr ⟨n, u, hr, rfl, rfl⟩)
    | fault | refused =>
      rw [hc] at h
      cases h

/-! ## Every instruction only adds events -/

/-- An operation that is refused while its block is busy. -/
theorem grows_unlessBusy (busy : Bool) (r : Refusal) (s t u : State) (hu : Grows s u)
    (h : (if busy = true then .refused r else .next u : Host.Outcome State Fault Refusal) = .next t) : Grows s t := by
  cases busy <;> cases h
  exact hu

theorem grows_spiXfer (o : Byte) (f l : Bool) (s t : State) (h : execSpiXfer o f l s = .next t) : Grows s t := by
  unfold execSpiXfer at h
  split at h <;> cases h
  exact grows_spiXferOp o f l s

theorem grows_exec (i : Instr) (s t : State) (h : exec i s = .next t) : Grows s t := by
  cases i with
  | req | wren | sectorErase | pageProgram | read | readStatus | readId => exact grows_handleText _ s t h
  | ack | diag | error | data | encByte => exact grows_unlessBusy _ _ s t _ (grows_encSend _ s) h
  | spiXfer => exact grows_spiXfer _ _ _ s t h
  | decByte => exact grows_unlessBusy _ _ s t _ (grows_decByteOp s) h
  | decReset =>
    cases h
    exact .same rfl rfl
  | start => exact grows_start s t h
  | pollReady => exact grows_pollReady s t h
  | countBytes | returnBytes | checksum =>
    exact grows_withByte _ s t (fun _ _ _ hk => by cases hk; exact .same rfl rfl) h
  | readData => exact grows_readData s t h
  | run => exact grows_run s t h
  | spiWrite => exact grows_spiWrite s t h
  | spiStall =>
    cases h
    exact (grows_spiXferOp _ _ _ s).trans (.same rfl rfl)
  | spiRead => exact grows_spiRead s t h
  | err =>
    cases h
    exact grows_reportError s

theorem grows_carryOut (s t : State) (h : carryOut s = .next t) : Grows (afterFetch s) t := by
  obtain ⟨i, -, hi⟩ | ⟨-, cs, -, -, hcs⟩ := carryOut_next s t h
  · exact grows_exec i _ t hi
  · exact grows_handleText cs _ t hcs

/-- Settles O3: the word carried out only adds events, and a reset keeps the events so far and adds its own. -/
theorem eventsAreNeverUndone : Obligations.EventsAreNeverUndone := by
  intro s t h
  obtain ⟨-, hc⟩ | ⟨-, rfl⟩ | ⟨n, u, -, -, rfl⟩ := step_next s t h
  · exact (grows_carryOut s t hc).1
  · exact ⟨_, rfl⟩
  · exact ⟨_, List.append_assoc _ _ _⟩

end Sys2Proof.Machine
end

section
/-! SUPPORT for the frame statements: what the instructions of the blocks, the decoding rules and SPI_STALL answer, and
the induction over a pass. -/

namespace Sys2Proof.Machine

/-! ## Instructions of the blocks -/

/-- The instructions that ask one block for one operation or one response frame (R71, R67). -/
def blockInstrs (b m : Byte) (f l e : Bool) (ds : List Byte) : List Instr :=
  [.ack, .diag, .data ds, .error, .spiXfer b f l, .decByte, .decReset, .encByte b m f l e]

/-- Those of them that ask ENC. -/
def encoderInstrs (b m : Byte) (f l e : Bool) (ds : List Byte) : List Instr :=
  [.ack, .diag, .data ds, .error, .encByte b m f l e]

/-- An operation that is offered answers its own next state. -/
theorem next_of_offered {busy : Bool} {r : Refusal} {t u : State}
    (h : (if busy = true then .refused r else .next u : Host.Outcome State Fault Refusal) = .next t) : t = u := by
  cases busy <;> cases h
  rfl

/-- What asks ENC sends characters and does nothing else. -/
theorem exec_encoder_next {s t : State} {b m : Byte} {f l e : Bool} {ds : List Byte} :
    ∀ i ∈ encoderInstrs b m f l e ds, exec i s = .next t → ∃ cs, t = encSend cs s := by
  intro i hi h
  fin_cases hi <;> exact ⟨_, next_of_offered h⟩

theorem exec_spiXfer_next {s t : State} {b : Byte} {f l : Bool} (h : exec (.spiXfer b f l) s = .next t) :
    t = (spiXferOp b f l s).2 := by
  simp only [exec, execSpiXfer] at h
  split at h <;> cases h
  rfl

theorem exec_decByte_next {s t : State} (h : exec .decByte s = .next t) : t = (decByteOp s).2 :=
  next_of_offered h

/-- No block operation touches ORCH or the buffer. -/
theorem exec_block_frame {s t : State} {b m : Byte} {f l e : Bool} {ds : List Byte} :
    ∀ i ∈ blockInstrs b m f l e ds, exec i s = .next t → t.orch = s.orch ∧ t.buf = s.buf := by
  intro i hi h
  by_cases he : i ∈ encoderInstrs b m f l e ds
  · obtain ⟨cs, rfl⟩ := exec_encoder_next i he h
    exact ⟨(encSend_frame cs s).1, (encSend_frame cs s).2.2.2.1⟩
  · have hrest : i = .spiXfer b f l ∨ i = .decByte ∨ i = .decReset := by
      simp only [blockInstrs, encoderInstrs, List.mem_cons, List.not_mem_nil] at hi he
      tauto
    rcases hrest with rfl | rfl | rfl
    · simp [exec_spiXfer_next h, spiXferOp_frame]
    · simp [exec_decByte_next h, decByteOp_frame]
    · cases h
      exact ⟨rfl, rfl⟩

/-! ## The decoding rules and SPI_STALL -/

/-- Each decoding rule says what its byte is for; a failure and a wait are the same for all (R144-R147, R201). -/
theorem execCountBytes_next {s t : State} (h : execCountBytes s = .next t) :
    (∃ b, t = ((decByteOp s).2.setByteCount b).goto .returnBytes) ∨
    t = takeDecodeError (decByteOp s).2 ∨ t = (decByteOp s).2 := by
  rcases withByte_next _ s t h with ⟨b, -, hk⟩ | ⟨-, rfl⟩ | ⟨-, rfl⟩
  · cases hk
    exact .inl ⟨b, rfl⟩
  · exact .inr (.inl rfl)
  · exact .inr (.inr rfl)

theorem execReturnBytes_next {s t : State} (h : execReturnBytes s = .next t) :
    (∃ b, t = ((decByteOp s).2.setReturnBytes b).goto .readData) ∨
    t = takeDecodeError (decByteOp s).2 ∨ t = (decByteOp s).2 := by
  rcases withByte_next _ s t h with ⟨b, -, hk⟩ | ⟨-, rfl⟩ | ⟨-, rfl⟩
  · cases hk
    exact .inl ⟨b, rfl⟩
  · exact .inr (.inl rfl)
  · exact .inr (.inr rfl)

theorem execChecksum_next {s t : State} (h : execChecksum s = .next t) :
    t = (decByteOp s).2.goto .run ∨ t = takeDecodeError (decByteOp s).2 ∨ t = (decByteOp s).2 := by
  rcases withByte_next _ s t h with ⟨b, -, hk⟩ | ⟨-, rfl⟩ | ⟨-, rfl⟩
  · cases hk
    exact .inl rfl
  · exact .inr (.inl rfl)
  · exact .inr (.inr rfl)

theorem execReadData_next {s t : State} (h : execReadData s = .next t) :
    t = s.goto .checksum ∨
    (∃ b, s.orch.idx.toNat < Config.bufDepth ∧
      t = ({ (decByteOp s).2 with buf := s.buf.set s.orch.idx.toNat b } : State).advanceIdx.goto .readData) ∨
    t = takeDecodeError (decByteOp s).2 ∨ t = (decByteOp s).2 := by
  unfold execReadData at h
  split at h
  · cases h
    exact .inl rfl
  · rcases withByte_next _ s t h with ⟨b, -, hk⟩ | ⟨-, rfl⟩ | ⟨-, rfl⟩
    · obtain ⟨hlt, rfl⟩ := storeByte_next b _ t hk
      simp only [decByteOp_frame] at hlt ⊢
      exact .inr (.inl ⟨b, hlt, rfl⟩)
    · exact .inr (.inr (.inl rfl))
    · exact .inr (.inr (.inr rfl))

theorem execSpiStall_frame {s t : State} (h : execSpiStall s = .next t) :
    t.orch = { s.orch with idx := 0, state := .spiRead } ∧ t.dec = s.dec ∧ t.buf = s.buf ∧ t.env.rx = s.env.rx ∧
    rxOf t.trace = rxOf s.trace := by
  cases h
  simp [spiXferOp_frame]

end Sys2Proof.Machine
end

section
/-! PROOF of LengthRegistersHaveOneWriter (10_state R11, R16). -/

namespace Sys2Proof.Machine

/-- A decode request, failed or not, leaves the length registers and the cursor. -/
theorem decode_orch {s t : State} (h : t = takeDecodeError (decByteOp s).2 ∨ t = (decByteOp s).2) :
    t.orch.byteCount = s.orch.byteCount ∧ t.orch.returnBytes = s.orch.returnBytes ∧ t.orch.idx = s.orch.idx := by
  rcases h with rfl | rfl <;> simp [decByteOp_frame]

theorem execCountBytes_orch {s t : State} (h : execCountBytes s = .next t) :
    t.orch.returnBytes = s.orch.returnBytes ∧ t.orch.idx = s.orch.idx := by
  rcases execCountBytes_next h with ⟨b, rfl⟩ | h
  · simp [decByteOp_frame]
  · exact (decode_orch h).2

theorem execReturnBytes_orch {s t : State} (h : execReturnBytes s = .next t) :
    t.orch.byteCount = s.orch.byteCount ∧ t.orch.idx = s.orch.idx := by
  rcases execReturnBytes_next h with ⟨b, rfl⟩ | h
  · simp [decByteOp_frame]
  · exact ⟨(decode_orch h).1, (decode_orch h).2.2⟩

theorem execReadData_orch {s t : State} (h : execReadData s = .next t) :
    t.orch.byteCount = s.orch.byteCount ∧ t.orch.returnBytes = s.orch.returnBytes := by
  rcases execReadData_next h with rfl | ⟨b, -, rfl⟩ | h
  · simp
  · simp [decByteOp_frame]
  · exact ⟨(decode_orch h).1, (decode_orch h).2.1⟩

theorem execChecksum_orch {s t : State} (h : execChecksum s = .next t) :
    t.orch.byteCount = s.orch.byteCount ∧ t.orch.returnBytes = s.orch.returnBytes ∧ t.orch.idx = s.orch.idx := by
  rcases execChecksum_next h with rfl | h
  · simp [decByteOp_frame]
  · exact decode_orch h

theorem execStart_orch {s t : State} (h : execStart s = .next t) :
    t.orch.byteCount = s.orch.byteCount ∧ t.orch.returnBytes = s.orch.returnBytes := by
  obtain ⟨u, hu, ho, -⟩ := execStart_frame s
  cases hu.symm.trans h
  simp [ho]

theorem execPollReady_orch {s t : State} (h : execPollReady s = .next t) :
    t.orch.byteCount = s.orch.byteCount ∧ t.orch.returnBytes = s.orch.returnBytes ∧ t.orch.idx = s.orch.idx := by
  obtain ⟨u, hu, ho, -⟩ := execPollReady_frame s
  cases hu.symm.trans h
  rcases ho with ho | ho <;> simp [ho]

theorem execRun_orch {s t : State} (h : execRun s = .next t) :
    t.orch.byteCount = s.orch.byteCount ∧ t.orch.returnBytes = s.orch.returnBytes := by
  rcases (execRun_frame s t h).1 with ho | ho | ho <;> simp [ho]

theorem execErr_orch {s t : State} (h : execErr s = .next t) :
    t.orch.byteCount = s.orch.byteCount ∧ t.orch.returnBytes = s.orch.returnBytes ∧ t.orch.idx = s.orch.idx := by
  cases h
  rcases (reportError_frame s).1 with ho | ho <;> simp [ho]

/-- Settles O42: block operations leave ORCH alone, and of each rule it is known which of its registers it writes. -/
theorem lengthRegistersHaveOneWriter : Obligations.LengthRegistersHaveOneWriter := by
  intro s t b m f l e ds
  have hblock := exec_block_frame (s := s) (t := t) (b := b) (m := m) (f := f) (l := l) (e := e) (ds := ds)
  refine ⟨?_, ?_, ?_⟩ <;>
    refine List.forall_mem_append (l₁ := blockInstrs b m f l e ds).2 ⟨fun i hi h => by rw [(hblock i hi h).1], ?_⟩ <;>
    simp only [List.forall_mem_cons, List.not_mem_nil, IsEmpty.forall_iff, implies_true, and_true]
  · exact ⟨fun h => (execStart_orch h).1, fun h => (execPollReady_orch h).1, fun h => (execReturnBytes_orch h).1,
      fun h => (execReadData_orch h).1, fun h => (execChecksum_orch h).1, fun h => (execRun_orch h).1,
      fun h => (execSpiWrite_frame s t h).1, fun h => by rw [(execSpiStall_frame h).1],
      fun h => (execSpiRead_frame s t h).1, fun h => (execErr_orch h).1⟩
  · exact ⟨fun h => (execStart_orch h).2, fun h => (execPollReady_orch h).2.1, fun h => (execCountBytes_orch h).1,
      fun h => (execReadData_orch h).2, fun h => (execChecksum_orch h).2.1, fun h => (execRun_orch h).2,
      fun h => (execSpiWrite_frame s t h).2.1, fun h => by rw [(execSpiStall_frame h).1],
      fun h => (execSpiRead_frame s t h).2.1, fun h => (execErr_orch h).2.1⟩
  · exact ⟨fun h => (execPollReady_orch h).2.2, fun h => (execCountBytes_orch h).2, fun h => (execReturnBytes_orch h).2,
      fun h => (execChecksum_orch h).2.2, fun h => (execErr_orch h).2.2⟩

end Sys2Proof.Machine
end

section
/-! PROOF of OnlyTwoStatesWriteTheBuffer (20_memory R22, R46). -/

namespace Sys2Proof.Machine

/-- A decode request, failed or not, leaves the buffer. -/
theorem decode_buf {s t : State} (h : t = takeDecodeError (decByteOp s).2 ∨ t = (decByteOp s).2) : t.buf = s.buf := by
  rcases h with rfl | rfl <;> simp [decByteOp_frame]

theorem execCountBytes_buf {s t : State} (h : execCountBytes s = .next t) : t.buf = s.buf := by
  rcases execCountBytes_next h with ⟨b, rfl⟩ | h
  · simp [decByteOp_frame]
  · exact decode_buf h

theorem execReturnBytes_buf {s t : State} (h : execReturnBytes s = .next t) : t.buf = s.buf := by
  rcases execReturnBytes_next h with ⟨b, rfl⟩ | h
  · simp [decByteOp_frame]
  · exact decode_buf h

theorem execChecksum_buf {s t : State} (h : execChecksum s = .next t) : t.buf = s.buf := by
  rcases execChecksum_next h with rfl | h
  · simp [decByteOp_frame]
  · exact decode_buf h

theorem execStart_buf {s t : State} (h : execStart s = .next t) : t.buf = s.buf := by
  obtain ⟨u, hu, -, -, -, hb, -⟩ := execStart_frame s
  cases hu.symm.trans h
  exact hb

theorem execPollReady_buf {s t : State} (h : execPollReady s = .next t) : t.buf = s.buf := by
  obtain ⟨u, hu, -, -, -, hb, -⟩ := execPollReady_frame s
  cases hu.symm.trans h
  exact hb

theorem execRun_buf {s t : State} (h : execRun s = .next t) : t.buf = s.buf := by
  obtain ⟨-, -, -, hb, -⟩ := execRun_frame s t h
  exact hb

theorem execSpiWrite_buf {s t : State} (h : execSpiWrite s = .next t) : t.buf = s.buf := by
  obtain ⟨-, -, -, hb, -⟩ := execSpiWrite_frame s t h
  exact hb

theorem execSpiStall_buf {s t : State} (h : execSpiStall s = .next t) : t.buf = s.buf := by
  obtain ⟨-, -, hb, -⟩ := execSpiStall_frame h
  exact hb

theorem execErr_buf {s t : State} (h : execErr s = .next t) : t.buf = s.buf := by
  cases h
  obtain ⟨-, -, -, hb, -⟩ := reportError_frame s
  exact hb

/-- Settles O44: no block operation writes the buffer, and of the rules all but READ_DATA and SPI_READ leave it. -/
theorem onlyTwoStatesWriteTheBuffer : Obligations.OnlyTwoStatesWriteTheBuffer := by
  intro s t b m f l e ds
  refine List.forall_mem_append (l₁ := blockInstrs b m f l e ds).2 ⟨fun i hi h => (exec_block_frame i hi h).2, ?_⟩
  simp only [List.forall_mem_cons, List.not_mem_nil, IsEmpty.forall_iff, implies_true, and_true]
  exact ⟨execStart_buf, execPollReady_buf, execCountBytes_buf, execReturnBytes_buf, execChecksum_buf, execRun_buf,
    execSpiWrite_buf, execSpiStall_buf, execErr_buf⟩

end Sys2Proof.Machine
end

section
/-! PROOF of OnlyDecodersWriteDec (10_state R17, R18, R24; 40_frame_codec R92). -/

namespace Sys2Proof.Machine

/-- From `s` to `t` DEC's registers stay and no byte is taken from RX. -/
def DecUntouched (s t : State) : Prop := t.dec = s.dec ∧ t.env.rx = s.env.rx ∧ rxOf t.trace = rxOf s.trace

theorem decUntouched_encSend (cs : List Byte) (s : State) : DecUntouched s (encSend cs s) := by
  simp [DecUntouched, encSend_frame]

theorem decUntouched_encoder {s t : State} {b m : Byte} {f l e : Bool} {ds : List Byte} :
    ∀ i ∈ encoderInstrs b m f l e ds, exec i s = .next t → DecUntouched s t := by
  intro i hi h
  obtain ⟨cs, rfl⟩ := exec_encoder_next i hi h
  exact decUntouched_encSend cs s

theorem decUntouched_spiXfer {s t : State} {b : Byte} {f l : Bool} (h : exec (.spiXfer b f l) s = .next t) :
    DecUntouched s t := by
  simp [DecUntouched, exec_spiXfer_next h, spiXferOp_frame]

theorem decUntouched_pollReady {s t : State} (h : execPollReady s = .next t) : DecUntouched s t := by
  obtain ⟨u, hu, -, hd, -, -, -, hrx, htr, -⟩ := execPollReady_frame s
  cases hu.symm.trans h
  exact ⟨hd, hrx, htr⟩

theorem decUntouched_run {s t : State} (h : execRun s = .next t) : DecUntouched s t := by
  obtain ⟨-, hd, -, -, -, hrx, -, -, -, htr⟩ := execRun_frame s t h
  exact ⟨hd, hrx, htr⟩

theorem decUntouched_spiWrite {s t : State} (h : execSpiWrite s = .next t) : DecUntouched s t := by
  obtain ⟨-, -, hd, -, -, hrx, htr, -⟩ := execSpiWrite_frame s t h
  exact ⟨hd, hrx, htr⟩

theorem decUntouched_spiStall {s t : State} (h : execSpiStall s = .next t) : DecUntouched s t := by
  obtain ⟨-, hd, -, hrx, htr⟩ := execSpiStall_frame h
  exact ⟨hd, hrx, htr⟩

theorem decUntouched_spiRead {s t : State} (h : execSpiRead s = .next t) : DecUntouched s t := by
  obtain ⟨-, -, hd, -, hrx, htr, -⟩ := execSpiRead_frame s t h
  exact ⟨hd, hrx, htr⟩

theorem decUntouched_err {s t : State} (h : execErr s = .next t) : DecUntouched s t := by
  cases h
  obtain ⟨-, hd, -, -, -, hrx, -, -, -, htr⟩ := reportError_frame s
  exact ⟨hd, hrx, htr⟩

/-- Settles O45: ENC, a transfer and every rule that makes no decode request leave DEC and RX. -/
theorem onlyDecodersWriteDec : Obligations.OnlyDecodersWriteDec := by
  intro s t b m f l e ds
  have henc := decUntouched_encoder (s := s) (t := t) (b := b) (m := m) (f := f) (l := l) (e := e) (ds := ds)
  simp only [encoderInstrs, List.forall_mem_cons, List.not_mem_nil, IsEmpty.forall_iff, implies_true, and_true] at henc ⊢
  obtain ⟨hack, hdiag, hdata, herror, hencByte⟩ := henc
  exact ⟨hack, hdiag, hdata, herror, decUntouched_spiXfer, hencByte, decUntouched_pollReady, decUntouched_run,
    decUntouched_spiWrite, decUntouched_spiStall, decUntouched_spiRead, decUntouched_err⟩

end Sys2Proof.Machine
end

section
/-! PROOF of RxIsConsumedOnceInOrder (10_state R24). -/

namespace Sys2Proof.Machine

/-- From `s` to `t` the bytes consumed and then those still offered stay the same list. -/
def RxConserved (s t : State) : Prop := rxOf t.trace ++ t.env.rx = rxOf s.trace ++ s.env.rx

theorem DecUntouched.rxConserved {s t : State} (h : DecUntouched s t) : RxConserved s t := by
  obtain ⟨-, hrx, htr⟩ := h
  rw [RxConserved, hrx, htr]

theorem rxConserved_start {s t : State} (h : execStart s = .next t) : RxConserved s t := by
  obtain ⟨u, hu, -, -, -, -, -, hrx, htr, -⟩ := execStart_frame s
  cases hu.symm.trans h
  rw [RxConserved, hrx, htr]

/-- A decode request moves bytes from those offered to those consumed, in order; a failure moves no other. -/
theorem rxConserved_decode {s t : State} (h : t = takeDecodeError (decByteOp s).2 ∨ t = (decByteOp s).2) :
    RxConserved s t := by
  rcases h with rfl | rfl <;> simp [RxConserved, decByteOp_frame]

theorem rxConserved_countBytes {s t : State} (h : execCountBytes s = .next t) : RxConserved s t := by
  rcases execCountBytes_next h with ⟨b, rfl⟩ | h
  · simp [RxConserved, decByteOp_frame]
  · exact rxConserved_decode h

theorem rxConserved_returnBytes {s t : State} (h : execReturnBytes s = .next t) : RxConserved s t := by
  rcases execReturnBytes_next h with ⟨b, rfl⟩ | h
  · simp [RxConserved, decByteOp_frame]
  · exact rxConserved_decode h

theorem rxConserved_readData {s t : State} (h : execReadData s = .next t) : RxConserved s t := by
  rcases execReadData_next h with rfl | ⟨b, -, rfl⟩ | h
  · exact rfl
  · simp [RxConserved, decByteOp_frame]
  · exact rxConserved_decode h

theorem rxConserved_checksum {s t : State} (h : execChecksum s = .next t) : RxConserved s t := by
  rcases execChecksum_next h with rfl | h
  · simp [RxConserved, decByteOp_frame]
  · exact rxConserved_decode h

/-- Settles O58: only the decoding rules take bytes, and what they take is what they record, in order. -/
theorem rxIsConsumedOnceInOrder : Obligations.RxIsConsumedOnceInOrder := by
  intro s t h
  unfold orchRule at h
  split at h
  case h_1 => exact rxConserved_start h
  case h_2 => exact (decUntouched_pollReady h).rxConserved
  case h_3 => exact rxConserved_countBytes h
  case h_4 => exact rxConserved_returnBytes h
  case h_5 => exact rxConserved_readData h
  case h_6 => exact rxConserved_checksum h
  case h_7 => exact (decUntouched_run h).rxConserved
  case h_8 => exact (decUntouched_spiWrite h).rxConserved
  case h_9 => exact (decUntouched_spiStall h).rxConserved
  case h_10 => exact (decUntouched_spiRead h).rxConserved
  case h_11 => exact (decUntouched_err h).rxConserved

end Sys2Proof.Machine
end

section
/-! PROOF of BufferStaysCanonical (20_memory R22, R46): every rule keeps the form, so a pass does, so every instruction
and every step does. -/

namespace Sys2Proof.Machine

/-- A property that every rule of ORCH keeps is kept by a pass. -/
theorem runPass_keeps {P : State → Prop} (hP : ∀ s t, P s → orchRule s = .next t → P t) (n : Nat) {s t : State}
    (hs : P s) (h : runPass n s = .next t) : P t := by
  induction n generalizing s with
  | zero =>
    cases h
    exact hs
  | succ n ih =>
    unfold runPass at h
    split at h
    · cases h
      exact hs
    · cases hr : orchRule s with
      | next u =>
        rw [hr] at h
        have hu : P u := hP s u hs hr
        dsimp only at h
        split at h
        · cases h
          exact hu
        · exact ih hu h
      | fault | refused =>
        rw [hr] at h
        cases h

theorem wf_of_buf_eq {s t : State} (hs : s.buf.wf = true) (h : t.buf = s.buf) : t.buf.wf = true := by rwa [h]

theorem execReadData_keeps_wf {s t : State} (hs : s.buf.wf = true) (h : execReadData s = .next t) :
    t.buf.wf = true := by
  rcases execReadData_next h with rfl | ⟨b, hlt, rfl⟩ | h
  · exact hs
  · exact Memory.wf_set _ _ b hlt hs
  · exact wf_of_buf_eq hs (decode_buf h)

theorem afterEnc_nextPosition_buf (s : State) : (afterEnc nextPosition s).buf = s.buf := by
  rcases afterEnc_cases nextPosition s with h | h <;> rw [h]
  rfl

theorem returnByte_keeps_wf {d : Byte} {s t : State} (hs : s.buf.wf = true) (h : returnByte d s = .next t) :
    t.buf.wf = true := by
  obtain ⟨hlt, rfl⟩ := returnByte_next d s t h
  rw [afterEnc_nextPosition_buf]
  exact Memory.wf_set _ _ d hlt hs

theorem execSpiRead_keeps_wf {s t : State} (hs : s.buf.wf = true) (h : execSpiRead s = .next t) :
    t.buf.wf = true := by
  unfold execSpiRead at h
  split at h
  · cases h
    exact hs
  · split at h
    · cases h
      rwa [afterEnc_nextPosition_buf]
    · exact returnByte_keeps_wf (by simpa [spiXferOp_frame] using hs) h

theorem orchRule_keeps_wf (s t : State) (hs : s.buf.wf = true) (h : orchRule s = .next t) : t.buf.wf = true := by
  unfold orchRule at h
  split at h
  case h_1 => exact wf_of_buf_eq hs (execStart_buf h)
  case h_2 => exact wf_of_buf_eq hs (execPollReady_buf h)
  case h_3 => exact wf_of_buf_eq hs (execCountBytes_buf h)
  case h_4 => exact wf_of_buf_eq hs (execReturnBytes_buf h)
  case h_5 => exact execReadData_keeps_wf hs h
  case h_6 => exact wf_of_buf_eq hs (execChecksum_buf h)
  case h_7 => exact wf_of_buf_eq hs (execRun_buf h)
  case h_8 => exact wf_of_buf_eq hs (execSpiWrite_buf h)
  case h_9 => exact wf_of_buf_eq hs (execSpiStall_buf h)
  case h_10 => exact execSpiRead_keeps_wf hs h
  case h_11 => exact wf_of_buf_eq hs (execErr_buf h)

theorem handleText_keeps_wf {cs : List Byte} {s t : State} (hs : s.buf.wf = true) (h : handleText cs s = .next t) :
    t.buf.wf = true :=
  runPass_keeps (P := fun u => u.buf.wf = true) orchRule_keeps_wf passFuel (s := offerRx cs s) hs h

theorem exec_block_keeps_wf {s t : State} (hs : s.buf.wf = true) (b m : Byte) (f l e : Bool) (ds : List Byte) :
    ∀ i ∈ blockInstrs b m f l e ds, exec i s = .next t → t.buf.wf = true :=
  fun i hi h => wf_of_buf_eq hs (exec_block_frame i hi h).2

theorem exec_keeps_wf {i : Instr} {s t : State} (hs : s.buf.wf = true) (h : exec i s = .next t) :
    t.buf.wf = true := by
  cases i with
  | req | wren | sectorErase | pageProgram | read | readStatus | readId => exact handleText_keeps_wf hs h
  | ack | diag | error | decByte | decReset =>
    exact exec_block_keeps_wf hs 0 0 false false false [] _ (by simp [blockInstrs]) h
  | data ds => exact exec_block_keeps_wf hs 0 0 false false false ds _ (by simp [blockInstrs]) h
  | spiXfer b f l => exact exec_block_keeps_wf hs b 0 f l false [] _ (by simp [blockInstrs]) h
  | encByte b m f l e => exact exec_block_keeps_wf hs b m f l e [] _ (by simp [blockInstrs]) h
  | start => exact wf_of_buf_eq hs (execStart_buf h)
  | pollReady => exact wf_of_buf_eq hs (execPollReady_buf h)
  | countBytes => exact wf_of_buf_eq hs (execCountBytes_buf h)
  | returnBytes => exact wf_of_buf_eq hs (execReturnBytes_buf h)
  | readData => exact execReadData_keeps_wf hs h
  | checksum => exact wf_of_buf_eq hs (execChecksum_buf h)
  | run => exact wf_of_buf_eq hs (execRun_buf h)
  | spiWrite => exact wf_of_buf_eq hs (execSpiWrite_buf h)
  | spiStall => exact wf_of_buf_eq hs (execSpiStall_buf h)
  | spiRead => exact execSpiRead_keeps_wf hs h
  | err => exact wf_of_buf_eq hs (execErr_buf h)

theorem carryOut_keeps_wf {s t : State} (hs : s.buf.wf = true) (h : carryOut s = .next t) : t.buf.wf = true := by
  obtain ⟨i, -, hi⟩ | ⟨-, cs, -, -, hcs⟩ := carryOut_next s t h
  · exact exec_keeps_wf (s := afterFetch s) hs hi
  · exact handleText_keeps_wf (s := afterFetch s) hs hcs

/-- Settles O57: what a step carries out writes cells in range only, and reset leaves the empty buffer. -/
theorem bufferStaysCanonical : Obligations.BufferStaysCanonical := by
  intro s t hs h
  obtain ⟨-, hc⟩ | ⟨-, rfl⟩ | ⟨n, u, -, -, rfl⟩ := step_next s t h
  · exact carryOut_keeps_wf hs hc
  · exact (reset_buf_wf _).2
  · exact (reset_buf_wf _).2

end Sys2Proof.Machine
end

section
/-! PROOFS of StepRunsDecodedInstruction (10_state R15, R140) and RequestWaitsWhileBusPolls (R24, R51). -/

namespace Sys2Proof.Machine

/-- The rule of `orch.state` is the instruction its value decodes to. -/
theorem orchRule_eq_exec (s : State) : orchRule s = exec (decodeState s.orch.state) s := by
  unfold orchRule
  cases s.orch.state <;> rfl

theorem step_of_no_rst {s : State} (h : rstAsserted s = false) : step s = carryOut s := by
  have hr : rstSample s = none := by simpa [rstAsserted] using h
  simp [step, hr]

theorem carryOut_of_decode {s : State} {i : Instr} (h : decode (fetch s) = .ok i) :
    carryOut s = exec i (afterFetch s) := by
  simp [carryOut, h]

/-- Without a stimulus the fetch is `orch.state`, and only the sample of `rst` is taken. -/
theorem fetch_of_no_stimulus {s : State} (h : s.stimuli = []) : fetch s = .orch s.orch.state := by
  simp [fetch, h]

theorem afterFetch_of_no_stimulus {s : State} (h : s.stimuli = []) : afterFetch s = sampleRst s := by
  cases s
  cases h
  rfl

theorem carryOut_of_no_stimulus {s : State} (h : s.stimuli = []) : carryOut s = orchRule (sampleRst s) := by
  rw [carryOut_of_decode (i := decodeState s.orch.state) (by rw [fetch_of_no_stimulus h]; rfl),
    afterFetch_of_no_stimulus h, orchRule_eq_exec]
  rfl

/-- Settles O4: without reset a step carries out what is fetched, a stimulus or the rule of `orch.state`. -/
theorem stepRunsDecodedInstruction : Obligations.StepRunsDecodedInstruction := by
  intro s i hr
  rw [step_of_no_rst hr]
  refine ⟨carryOut_of_decode, fun hs => ?_⟩
  rw [carryOut_of_no_stimulus hs, orchRule_eq_exec]
  rfl

/-- Settles O49: between two passes a pass ends before its first rule, so the request's characters only join RX. -/
theorem requestWaitsWhileBusPolls : Obligations.RequestWaitsWhileBusPolls :=
  fun s m ck p hs => runPass_stop passFuel (offerRx (reqChars m p ck) s) hs

end Sys2Proof.Machine
end

section
/-! SUPPORT for EveryStepKeepsTheInvariant: the cursor's arithmetic, the fields after a transfer, the rules on a free
bus and in range, and how the invariant is carried from one state to the next. -/

namespace Sys2Proof.Machine

/-! ## The cursor (R16) -/

/-- A cursor below its bound addresses a cell, and moving on keeps it within the bound. -/
theorem cursor_advance {a b : Byte} (hle : a ≤ b) (hne : a ≠ b) :
    a.toNat < Config.bufDepth ∧ a.toNat < b.toNat ∧ (a + 1).toNat = a.toNat + 1 ∧ a + 1 ≤ b ∧ a + 1 ≠ 0 := by
  have hlt : a.toNat < b.toNat := by bv_omega
  have hb := b.isLt
  refine ⟨?_, hlt, ?_, ?_, ?_⟩
  · rw [Config.bufDepth]
    omega
  all_goals bv_omega

/-- The last position before a bound, as the flags of R149 and R151 test it. -/
theorem cursor_is_last {a b : Byte} : a = b - 1 ↔ a + 1 = b := eq_sub_iff_add_eq

/-! ## The fields after a transfer -/

@[simp] theorem State.withTransfer_orch (s : State) (o : Byte) (f l : Bool) : (s.withTransfer o f l).orch = s.orch := rfl
@[simp] theorem State.withTransfer_dec (s : State) (o : Byte) (f l : Bool) : (s.withTransfer o f l).dec = s.dec := rfl
@[simp] theorem State.withTransfer_enc (s : State) (o : Byte) (f l : Bool) : (s.withTransfer o f l).enc = s.enc := rfl
@[simp] theorem State.withTransfer_buf (s : State) (o : Byte) (f l : Bool) : (s.withTransfer o f l).buf = s.buf := rfl
@[simp] theorem State.withTransfer_stimuli (s : State) (o : Byte) (f l : Bool) :
    (s.withTransfer o f l).stimuli = s.stimuli := rfl
@[simp] theorem State.withTransfer_cs (s : State) (o : Byte) (f l : Bool) :
    (s.withTransfer o f l).spi.cs = if l = true then false else if f = true then true else s.spi.cs := rfl

@[simp] theorem spiLaw_withTransfer (s : State) (o : Byte) (f l : Bool) : spiLaw (s.withTransfer o f l).spi :=
  spiLaw_afterTransfer s.spi s.env.nextByte.1 f l

theorem spiLaw.busFree {s : State} (h : spiLaw s.spi) : s.BusFree := ⟨h.1, h.2.1⟩

/-! ## The rules on a free bus and in range -/

theorem execStart_free {s : State} (h : s.BusFree) :
    execStart s = .next (((((decReset s).setIdx 0).withTransfer Config.fillByte false true).withTransfer
      Config.statusOpcode true false).goto .pollReady) := by
  have hfree : ((decReset s).setIdx 0).BusFree := h
  simp only [execStart, spiWait_ready _ hfree.1, spiXferOp_withTransfer _ _ _ _ hfree,
    spiXferOp_withTransfer _ _ _ _ (withTransfer_free _ _ _ _)]

theorem execPollReady_free {s : State} (h : s.BusFree) :
    execPollReady s =
      if wip s.env.nextByte.1 = true then .next ((s.withTransfer Config.fillByte false false).goto .pollReady)
      else .next (((s.withTransfer Config.fillByte false false).withTransfer Config.fillByte false true).goto
        .countBytes) := by
  simp only [execPollReady, spiXferOp_withTransfer _ _ _ _ h,
    spiXferOp_withTransfer _ _ _ _ (withTransfer_free _ _ _ _)]

theorem execSpiStall_free {s : State} (h : s.BusFree) :
    execSpiStall s = .next (((s.withTransfer Config.fillByte false false).setIdx 0).goto .spiRead) := by
  simp only [execSpiStall, spiXferOp_withTransfer _ _ _ _ h]

theorem storeByte_in_range {s : State} (b : Byte) (h : s.orch.idx.toNat < Config.bufDepth) :
    storeByte b s =
      .next (({ s with buf := s.buf.set s.orch.idx.toNat b } : State).advanceIdx.goto .readData) := by
  simp only [storeByte, writeAtIdx, memWrite, if_pos h]

theorem returnByte_in_range {s : State} (d : Byte) (h : s.orch.idx.toNat < Config.bufDepth) :
    returnByte d s = .next (afterEnc nextPosition (encByteOp d chDot s.readFirst s.readLast false
      { s with buf := s.buf.set s.orch.idx.toNat d })) := by
  simp only [returnByte, writeAtIdx, memWrite, if_pos h]

/-- A written cell below the cursor's bound is read without a fault (R221, 93 V1). -/
theorem readAtIdx_written {s : State} {n : Nat} (hr : s.orch.idx.toNat < Config.bufDepth)
    (hw : s.buf.WrittenBelow n) (hn : s.orch.idx.toNat < n) : ∃ v, readAtIdx s = .ok v := by
  obtain ⟨v, hv⟩ := Option.isSome_iff_exists.1 (hw _ hn)
  exact ⟨v, by simp only [readAtIdx, memRead, if_pos hr, hv]⟩

/-! ## Carrying the invariant over -/

/-- The invariant speaks of the registers, the buffer and the stimuli, not of the surroundings or the record. -/
theorem State.Inv.congr {s t : State} (hs : s.Inv) (ho : t.orch = s.orch) (hd : t.dec = s.dec) (he : t.enc = s.enc)
    (hp : t.spi = s.spi) (hb : t.buf = s.buf) (hst : t.stimuli.all fromHost = true) : t.Inv := by
  obtain ⟨hbuf, hspi, hcs, hcur, hdec, henc, -⟩ := hs
  simp only [State.Inv, csLaw, cursorLaw, decLaw, encLaw, ho, hd, he, hp, hb] at *
  exact ⟨hbuf, hspi, hcs, hcur, hdec, henc, hst⟩

theorem State.Inv.stimuli {s : State} (hs : s.Inv) : s.stimuli.all fromHost = true := by
  obtain ⟨-, -, -, -, -, -, hst⟩ := hs
  exact hst

/-- A finished rule goes back to START with the bus released and nothing outstanding (R157). -/
theorem State.Inv.goto_start {s : State} (hs : s.Inv) (hcs : s.spi.cs = false) (hd : s.dec.busy = false)
    (he : s.enc.busy = false) : (s.goto .start).Inv := by
  obtain ⟨hbuf, hspi, -, -, ⟨hhi, -⟩, ⟨hpend, -⟩, hst⟩ := hs
  exact ⟨hbuf, hspi, hcs, trivial, ⟨hhi, hd⟩, ⟨hpend, he⟩, hst⟩

/-- What follows an encoder call: the wait, or the way on. -/
theorem inv_afterEnc {k : State → State} {s : State} (hs : s.enc.busy = true → s.Inv)
    (hk : s.enc.busy = false → (k s).Inv) : (afterEnc k s).Inv := by
  cases hb : s.enc.busy with
  | true =>
    rw [afterEnc_busy k s hb]
    exact hs hb
  | false =>
    rw [afterEnc_free k s hb]
    exact hk hb

/-- Where a rule makes the one encoder call that may wait: RUN, ERR and the end of SPI_WRITE (R157). -/
def State.RepliesHere (s : State) : Prop :=
  s.orch.state = .run ∨ s.orch.state = .err ∨
  (s.orch.state = .spiWrite ∧ s.orch.idx = s.orch.byteCount ∧ s.orch.returnBytes = 0)

/-- There the bus is deselected and no decode request is out. -/
theorem State.Inv.repliesHere {s : State} (hs : s.Inv) (hq : s.RepliesHere) :
    s.spi.cs = false ∧ s.dec.busy = false := by
  obtain ⟨-, -, hcs, -, ⟨-, hdec⟩, -, -⟩ := hs
  rcases hq with hq | hq | ⟨hq, hi, hr⟩
  · simp only [csLaw, hq] at hcs hdec
    exact ⟨hcs, hdec.1⟩
  · simp only [csLaw, hq] at hcs hdec
    exact ⟨hcs, hdec⟩
  · simp only [csLaw, hq, hi, hr] at hcs hdec
    exact ⟨by simpa using hcs, hdec.1⟩

/-- There an encoder call keeps the invariant, whether it waits or not. -/
theorem State.Inv.encCall {s : State} (hs : s.Inv) (hq : s.RepliesHere) (b m : Byte) (f l e : Bool) :
    (encCall b m f l e s).Inv := by
  obtain ⟨ho, hd, hp, hb, hstim, hpend⟩ := encCall_frame b m f l e s
  obtain ⟨hbuf, hspi, hcs, hcur, hdec, -, hst⟩ := hs
  simp only [State.Inv, csLaw, cursorLaw, decLaw, encLaw, ho, hd, hp, hb, hstim] at *
  refine ⟨hbuf, hspi, ?_, hcur, hdec, ⟨hpend, ?_⟩, hst⟩
  · rcases hq with hq | hq | ⟨hq, -⟩ <;> simpa only [hq] using hcs
  · rcases hq with hq | hq | ⟨hq, hi, hr⟩
    · simp only [hq]
    · simp only [hq]
    · simp only [hq]
      exact fun _ => ⟨hi, hr⟩

end Sys2Proof.Machine
end

section
/-! PROOF of EveryStepKeepsTheInvariant, the decoding rules (42_orchestrator R144-R147, R157, R201). -/

namespace Sys2Proof.Machine

/-! ## What a decode request leaves in DEC -/

/-- DEC right after a byte inside a frame. -/
def Dec.ByteDone (d : Dec) : Prop := d.busy = false ∧ d.err = false ∧ d.inFrame = true ∧ d.haveHi = false

theorem decRequest_haveHi {d : Dec} (h : (decRequest d).haveHi = true) : d.haveHi = true := by
  unfold decRequest at h
  split at h
  · exact h
  · cases h

/-- A request answers with a byte, a failure or the wait; each leaves DEC in one shape (R93, R95, R26). -/
theorem decByteOp_answers {s : State} (he : s.dec.err = false) (hh : s.dec.haveHi = true → s.dec.inFrame = true) :
    (∃ b, (decByteOp s).1 = .byte b ∧ (decByteOp s).2.dec.ByteDone) ∨
    ((decByteOp s).1 = .error ∧ (decByteOp s).2.dec.busy = false ∧ (decByteOp s).2.dec.haveHi = false) ∨
    ((decByteOp s).1 = .waiting ∧ (decByteOp s).2.dec.busy = true ∧ (decByteOp s).2.dec.err = false ∧
      (s.dec.inFrame = true → (decByteOp s).2.dec.inFrame = true) ∧
      ((decByteOp s).2.dec.haveHi = true → (decByteOp s).2.dec.inFrame = true)) := by
  have hreq : (decRequest s.dec).haveHi = true → (decRequest s.dec).inFrame = true := fun h => by
    rw [decRequest_inFrame]
    exact hh (decRequest_haveHi h)
  rw [decByteOp_ok s he]
  rcases decScan_cases (decRequest s.dec) s.env.rx (decRequest_busy _) (by rw [decRequest_err, he]) with
    ⟨b, ha, hbusy, herr, hframe, hhi⟩ | ⟨ha, hbusy, -, -, hhi⟩ | ⟨ha, hbusy, herr, -, hframe, hhi⟩
  · exact .inl ⟨b, ha, hbusy, herr, hframe, hhi⟩
  · exact .inr (.inl ⟨ha, hbusy, hhi⟩)
  · rw [decRequest_inFrame] at hframe
    exact .inr (.inr ⟨ha, hbusy, herr, hframe, hhi hreq⟩)

/-! ## The decoding states -/

/-- The states whose rule asks DEC for a byte. -/
def State.Decoding (s : State) : Prop :=
  s.orch.state = .countBytes ∨ s.orch.state = .returnBytes ∨
  (s.orch.state = .readData ∧ s.orch.idx ≠ s.orch.byteCount) ∨ s.orch.state = .checksum

/-- In them the bus is deselected, no error is recorded, a latched digit belongs to a frame and ENC is free. -/
theorem State.Inv.decoding {s : State} (hs : s.Inv) (hq : s.Decoding) :
    s.spi.cs = false ∧ s.dec.err = false ∧ (s.dec.haveHi = true → s.dec.inFrame = true) ∧ s.enc.busy = false := by
  obtain ⟨-, -, hcs, -, ⟨hhi, hdec⟩, ⟨-, henc⟩, -⟩ := hs
  rcases hq with hq | hq | ⟨hq, -⟩ | hq <;> simp only [csLaw, hq] at hcs hdec henc <;>
    exact ⟨hcs, hdec.1, fun h => (hhi h).2, henc⟩

/-- A failed decode leaves ORCH in ERR with nothing outstanding (R201). -/
theorem State.Inv.decodeError {s : State} (hs : s.Inv) (hq : s.Decoding) (hb : (decByteOp s).2.dec.busy = false)
    (hh : (decByteOp s).2.dec.haveHi = false) : (takeDecodeError (decByteOp s).2).Inv := by
  obtain ⟨hcs, -⟩ := hs.decoding hq
  obtain ⟨hbuf, hspi, -, -, -, ⟨hpend, -⟩, hst⟩ := hs
  simp [State.Inv, csLaw, cursorLaw, decLaw, encLaw, decByteOp_frame, hbuf, hspi, hcs, hpend, hst, hb, hh]

/-- A decode that waits leaves ORCH in its state (R157). -/
theorem State.Inv.decodeWait {s : State} (hs : s.Inv) (hq : s.Decoding) (hb : (decByteOp s).2.dec.busy = true)
    (he : (decByteOp s).2.dec.err = false)
    (hf : s.dec.inFrame = true → (decByteOp s).2.dec.inFrame = true)
    (hh : (decByteOp s).2.dec.haveHi = true → (decByteOp s).2.dec.inFrame = true) : (decByteOp s).2.Inv := by
  obtain ⟨hbuf, hspi, hcs, hcur, ⟨-, hdec⟩, henc, hst⟩ := hs
  simp only [State.Inv, csLaw, cursorLaw, decLaw, encLaw, decByteOp_frame] at *
  refine ⟨hbuf, hspi, hcs, hcur, ⟨fun h => ⟨hb, hh h⟩, ?_⟩, henc, hst⟩
  rcases hq with hq | hq | ⟨hq, hi⟩ | hq <;> simp only [hq] at hdec ⊢
  · exact ⟨he, fun h => by simp [hb] at h⟩
  · exact ⟨he, hf hdec.2⟩
  · exact ⟨he, hf hdec.2.1, fun _ => hi⟩
  · exact ⟨he, hf hdec.2⟩

/-- A byte takes ORCH on, with nothing outstanding and the frame still open; the rule answers for the cursor. -/
theorem State.Inv.decodedByte {s t : State} (hs : s.Inv) (hq : s.Decoding)
    (hnext : t.orch.state = .returnBytes ∨ t.orch.state = .readData ∨ t.orch.state = .run)
    (hdone : t.dec.ByteDone) (he : t.enc = (decByteOp s).2.enc) (hp : t.spi = (decByteOp s).2.spi)
    (hst : t.stimuli = (decByteOp s).2.stimuli) (hwf : t.buf.wf = true) (hcur : cursorLaw t) : t.Inv := by
  simp only [decByteOp_frame] at he hp hst
  obtain ⟨hcs, -, -, hfree⟩ := hs.decoding hq
  obtain ⟨-, hspi, -, -, -, ⟨hpend, -⟩, hstim⟩ := hs
  obtain ⟨hb, herr, hf, hh⟩ := hdone
  rw [← hp] at hcs hspi
  rw [← he] at hfree hpend
  rw [← hst] at hstim
  refine ⟨hwf, hspi, ?_, hcur, ⟨by simp [hh], ?_⟩, ⟨hpend, ?_⟩, hstim⟩ <;>
    rcases hnext with hnext | hnext | hnext <;> simp [csLaw, hnext, hcs, hb, herr, hf, hfree]

/-- The three answers a decoding rule distinguishes. -/
theorem withByte_of_byte {k : Byte → State → Host.Outcome State Fault Refusal} {s : State} {b : Byte}
    (h : (decByteOp s).1 = .byte b) : withByte k s = k b (decByteOp s).2 := by
  rw [withByte, ← Prod.mk.eta (p := decByteOp s), h]

theorem withByte_of_error {k : Byte → State → Host.Outcome State Fault Refusal} {s : State}
    (h : (decByteOp s).1 = .error) : withByte k s = .next (takeDecodeError (decByteOp s).2) := by
  rw [withByte, ← Prod.mk.eta (p := decByteOp s), h]

theorem withByte_of_waiting {k : Byte → State → Host.Outcome State Fault Refusal} {s : State}
    (h : (decByteOp s).1 = .waiting) : withByte k s = .next (decByteOp s).2 := by
  rw [withByte, ← Prod.mk.eta (p := decByteOp s), h]

/-- A decoding rule keeps the invariant if it does so with a byte. -/
theorem withByte_keeps_inv {k : Byte → State → Host.Outcome State Fault Refusal} {s : State} (hs : s.Inv)
    (hq : s.Decoding)
    (hk : ∀ b, (decByteOp s).2.dec.ByteDone → ∃ t, k b (decByteOp s).2 = .next t ∧ t.Inv) :
    ∃ t, withByte k s = .next t ∧ t.Inv := by
  obtain ⟨-, herr, hhi, -⟩ := hs.decoding hq
  rcases decByteOp_answers herr hhi with ⟨b, ha, hdone⟩ | ⟨ha, hb, hh⟩ | ⟨ha, hb, he, hf, hh⟩
  · obtain ⟨t, ht, hinv⟩ := hk b hdone
    exact ⟨t, by rwa [withByte_of_byte ha], hinv⟩
  · exact ⟨_, withByte_of_error ha, hs.decodeError hq hb hh⟩
  · exact ⟨_, withByte_of_waiting ha, hs.decodeWait hq hb he hf hh⟩

/-! ## The four rules -/

theorem countBytes_keeps_inv {s : State} (hs : s.Inv) (hq : s.orch.state = .countBytes) :
    ∃ t, execCountBytes s = .next t ∧ t.Inv := by
  have hdecoding : s.Decoding := .inl hq
  refine withByte_keeps_inv hs hdecoding fun b hdone => ⟨_, rfl, ?_⟩
  obtain ⟨hbuf, -, -, hcur, -⟩ := id hs
  simp only [cursorLaw, hq] at hcur
  exact hs.decodedByte hdecoding (.inl rfl) hdone rfl rfl rfl
    (by simpa [decByteOp_frame] using hbuf) (by simpa [cursorLaw, decByteOp_frame] using hcur)

theorem returnBytes_keeps_inv {s : State} (hs : s.Inv) (hq : s.orch.state = .returnBytes) :
    ∃ t, execReturnBytes s = .next t ∧ t.Inv := by
  have hdecoding : s.Decoding := .inr (.inl hq)
  refine withByte_keeps_inv hs hdecoding fun b hdone => ⟨_, rfl, ?_⟩
  obtain ⟨hbuf, -, -, hcur, -⟩ := id hs
  simp only [cursorLaw, hq] at hcur
  exact hs.decodedByte hdecoding (.inr (.inl rfl)) hdone rfl rfl rfl
    (by simpa [decByteOp_frame] using hbuf)
    (by simp [cursorLaw, decByteOp_frame, hcur, Memory.WrittenBelow, BitVec.le_def])

/-- The payload is complete: the cursor stands at `byte_count`, so every cell below it is written (R146). -/
theorem readData_done_keeps_inv {s : State} (hs : s.Inv) (hq : s.orch.state = .readData)
    (hdone : s.orch.idx = s.orch.byteCount) : (s.goto .checksum).Inv := by
  obtain ⟨hbuf, hspi, hcs, hcur, ⟨hhi, hdec⟩, ⟨hpend, henc⟩, hst⟩ := hs
  simp only [csLaw, cursorLaw, hq, hdone] at hcs hcur hdec henc
  exact ⟨hbuf, hspi, hcs, hcur.2, ⟨hhi, hdec.1, hdec.2.1⟩, ⟨hpend, henc⟩, hst⟩

theorem readData_keeps_inv {s : State} (hs : s.Inv) (hq : s.orch.state = .readData) :
    ∃ t, execReadData s = .next t ∧ t.Inv := by
  unfold execReadData
  by_cases hend : s.orch.idx = s.orch.byteCount
  · rw [if_pos (by simpa [State.payloadDone] using hend)]
    exact ⟨_, rfl, readData_done_keeps_inv hs hq hend⟩
  rw [if_neg (by simpa [State.payloadDone] using hend)]
  have hdecoding : s.Decoding := .inr (.inr (.inl ⟨hq, hend⟩))
  refine withByte_keeps_inv hs hdecoding fun b hdone => ?_
  obtain ⟨hbuf, -, -, hcur, -⟩ := id hs
  simp only [cursorLaw, hq] at hcur
  obtain ⟨hle, hwritten⟩ := hcur
  obtain ⟨hrange, -, hnext, hbound, -⟩ := cursor_advance hle hend
  have hbelow : (s.buf.set s.orch.idx.toNat b).WrittenBelow (s.orch.idx + 1).toNat := by
    rw [hnext]
    exact Memory.writtenBelow_set _ _ b hwritten
  refine ⟨_, storeByte_in_range b (by rwa [(decByteOp_frame s).1]), ?_⟩
  exact hs.decodedByte hdecoding (.inr (.inl rfl)) hdone rfl rfl rfl
    (by simpa [decByteOp_frame] using Memory.wf_set _ _ b hrange hbuf)
    (by simpa only [cursorLaw, State.goto_orch, State.goto_buf, advanceIdx_orch, advanceIdx_buf, decByteOp_frame]
      using ⟨hbound, hbelow⟩)

theorem checksum_keeps_inv {s : State} (hs : s.Inv) (hq : s.orch.state = .checksum) :
    ∃ t, execChecksum s = .next t ∧ t.Inv := by
  have hdecoding : s.Decoding := .inr (.inr (.inr hq))
  refine withByte_keeps_inv hs hdecoding fun b hdone => ⟨_, rfl, ?_⟩
  obtain ⟨hbuf, -, -, hcur, -⟩ := id hs
  simp only [cursorLaw, hq] at hcur
  exact hs.decodedByte hdecoding (.inr (.inr rfl)) hdone rfl rfl rfl
    (by simpa [decByteOp_frame] using hbuf) (by simpa [cursorLaw, decByteOp_frame] using hcur)

end Sys2Proof.Machine
end

section
/-! PROOF of EveryStepKeepsTheInvariant, the rules that use the bus and the encoder (42_orchestrator R142, R143,
R148-R152). -/

namespace Sys2Proof.Machine

/-! ## The status burst -/

theorem start_keeps_inv {s : State} (hs : s.Inv) (hq : s.orch.state = .start) : ∃ t, execStart s = .next t ∧ t.Inv := by
  obtain ⟨hbuf, hspi, -, -, -, ⟨hpend, henc⟩, hst⟩ := hs
  simp only [hq] at henc
  refine ⟨_, execStart_free hspi.busFree, hbuf, by simp, ?_, ?_, ?_, ⟨hpend, henc⟩, hst⟩
  · simp [csLaw]
  · simp [cursorLaw]
  · simp [decLaw]

theorem pollReady_keeps_inv {s : State} (hs : s.Inv) (hq : s.orch.state = .pollReady) :
    ∃ t, execPollReady s = .next t ∧ t.Inv := by
  obtain ⟨hbuf, hspi, hcs, hcur, ⟨hhi, hbusy, herr, hframe⟩, ⟨hpend, henc⟩, hst⟩ := by
    simpa only [State.Inv, csLaw, cursorLaw, decLaw, encLaw, hq] using hs
  rw [execPollReady_free hspi.busFree]
  split
  · exact ⟨_, rfl, hbuf, by simp, by simpa [csLaw] using hcs, hcur,
      ⟨hhi, hbusy, herr, hframe⟩, ⟨hpend, henc⟩, hst⟩
  · exact ⟨_, rfl, hbuf, by simp, by simp [csLaw], hcur,
      ⟨hhi, herr, fun _ => hframe⟩, ⟨hpend, henc⟩, hst⟩

/-! ## The replies -/

/-- The last encoder call of a command: the rule waits, or goes to START (R141, R157). -/
theorem reply_keeps_inv {k : State → State} (hk : ∀ u : State, k u = u.goto .start) {s : State} (hs : s.Inv)
    (hq : s.RepliesHere) (b m : Byte) (f l e : Bool) : (afterEnc k (encCall b m f l e s)).Inv := by
  have hcall : (encCall b m f l e s).Inv := hs.encCall hq b m f l e
  obtain ⟨hcs, hd⟩ := hs.repliesHere hq
  obtain ⟨-, hdec, hspi, -⟩ := encCall_frame b m f l e s
  rw [← hspi] at hcs
  rw [← hdec] at hd
  exact inv_afterEnc (fun _ => hcall) fun he => hk _ ▸ hcall.goto_start hcs hd he

theorem reportError_keeps_inv {s : State} (hs : s.Inv) (hq : s.RepliesHere) : (reportError s).Inv :=
  reply_keeps_inv (fun _ => rfl) hs hq _ _ _ _ _

theorem err_keeps_inv {s : State} (hs : s.Inv) (hq : s.orch.state = .err) : ∃ t, execErr s = .next t ∧ t.Inv :=
  ⟨_, rfl, reportError_keeps_inv hs (.inr (.inl hq))⟩

/-- With the diagnostic sent, RUN opens the payload with the cursor at 0 (R148). -/
theorem State.Inv.enterWrite {s : State} (hs : s.Inv) (hq : s.orch.state = .run) (he : s.enc.busy = false) :
    (enterWrite s).Inv := by
  obtain ⟨hbuf, hspi, hcs, hcur, hdec, ⟨hpend, -⟩, hst⟩ := by
    simpa only [State.Inv, csLaw, cursorLaw, decLaw, encLaw, hq] using hs
  refine ⟨hbuf, hspi, ?_, ⟨by simp [Machine.enterWrite, BitVec.le_def], hcur⟩, hdec, ⟨hpend, ?_⟩, hst⟩
  · simpa [csLaw, Machine.enterWrite] using hcs
  · simp [Machine.enterWrite, he]

theorem run_keeps_inv {s : State} (hs : s.Inv) (hq : s.orch.state = .run) : ∃ t, execRun s = .next t ∧ t.Inv := by
  have hreply : s.RepliesHere := .inl hq
  simp only [execRun, runWith, Config.diagC, if_true]
  split
  · have hcall := hs.encCall hreply s.dec.sum chC true true false
    have hstate : (encCall s.dec.sum chC true true false s).orch.state = .run := by
      rw [(encCall_frame _ _ _ _ _ s).1, hq]
    exact ⟨_, rfl, inv_afterEnc (fun _ => hcall) fun he => hcall.enterWrite hstate he⟩
  · exact ⟨_, rfl, reportError_keeps_inv hs hreply⟩

/-! ## The command burst -/

/-- One payload byte: chip-select is asserted from the first to the last, and beyond it if bytes are wanted (R149). -/
theorem spiWrite_byte_keeps_inv {s : State} (hs : s.Inv) (hq : s.orch.state = .spiWrite)
    (hne : s.orch.idx ≠ s.orch.byteCount) (v : Byte) :
    ((s.withTransfer v s.writeFirst s.writeLast).advanceIdx.goto .spiWrite).Inv := by
  obtain ⟨hbuf, hspi, hcs, ⟨hle, hwritten⟩, hdec, ⟨hpend, hwait⟩, hst⟩ := by
    simpa only [State.Inv, csLaw, cursorLaw, decLaw, encLaw, hq] using hs
  obtain ⟨-, -, -, hbound, hnz⟩ := cursor_advance hle hne
  have hopen : s.spi.cs = decide (s.orch.idx ≠ 0) := by simpa [hne] using hcs
  have henc : s.enc.busy = true → False := fun h => hne (hwait h).1
  refine ⟨hbuf, by simp, ?_, ⟨hbound, hwritten⟩, hdec, ⟨hpend, fun h => (henc h).elim⟩, hst⟩
  show (s.withTransfer v s.writeFirst s.writeLast).spi.cs = (decide (s.orch.idx + 1 ≠ 0) &&
    (decide (s.orch.idx + 1 ≠ s.orch.byteCount) || decide (s.orch.returnBytes ≠ 0)))
  simp only [State.withTransfer_cs, State.writeFirst, State.writeLast, cursor_is_last, hopen, ne_eq, hnz, decide_not,
    decide_false]
  cases decide (s.orch.idx = 0) <;> cases decide (s.orch.idx + 1 = s.orch.byteCount) <;>
    cases decide (s.orch.returnBytes = 0) <;> rfl

/-- The payload is out and bytes are wanted: the burst stays open (R149, R150). -/
theorem spiWrite_stall_keeps_inv {s : State} (hs : s.Inv) (hq : s.orch.state = .spiWrite)
    (hdone : s.orch.idx = s.orch.byteCount) (hr : s.orch.returnBytes ≠ 0) : (s.goto .spiStall).Inv := by
  obtain ⟨hbuf, hspi, hcs, -, hdec, ⟨hpend, hwait⟩, hst⟩ := by
    simpa only [State.Inv, csLaw, cursorLaw, decLaw, encLaw, hq] using hs
  have henc : s.enc.busy = false := by
    by_contra h
    exact hr (hwait (by simpa using h)).2
  exact ⟨hbuf, hspi, by simpa [csLaw, hcs, hdone] using fun _ => hr, hr, hdec, ⟨hpend, henc⟩, hst⟩

theorem spiWrite_keeps_inv {s : State} (hs : s.Inv) (hq : s.orch.state = .spiWrite) :
    ∃ t, execSpiWrite s = .next t ∧ t.Inv := by
  obtain ⟨-, hspi, -, hcur, -⟩ := id hs
  simp only [cursorLaw, hq] at hcur
  unfold execSpiWrite
  by_cases hdone : s.orch.idx = s.orch.byteCount
  · rw [if_neg (by simpa [State.payloadDone] using hdone)]
    split
    next hr => exact ⟨_, rfl, reply_keeps_inv (fun _ => rfl) hs (.inr (.inr ⟨hq, hdone, hr⟩)) _ _ _ _ _⟩
    next hr => exact ⟨_, rfl, spiWrite_stall_keeps_inv hs hq hdone hr⟩
  · rw [if_pos (by simpa [State.payloadDone] using hdone)]
    obtain ⟨hrange, hlt, -⟩ := cursor_advance hcur.1 hdone
    obtain ⟨v, hv⟩ := readAtIdx_written hrange hcur.2 hlt
    refine ⟨_, ?_, spiWrite_byte_keeps_inv hs hq hdone v⟩
    simp only [hv, spiXferOp_withTransfer _ _ _ _ hspi.busFree]

theorem spiStall_keeps_inv {s : State} (hs : s.Inv) (hq : s.orch.state = .spiStall) :
    ∃ t, execSpiStall s = .next t ∧ t.Inv := by
  obtain ⟨hbuf, hspi, hcs, hcur, hdec, ⟨hpend, henc⟩, hst⟩ := by
    simpa only [State.Inv, csLaw, cursorLaw, decLaw, encLaw, hq] using hs
  refine ⟨_, execSpiStall_free hspi.busFree, hbuf, by simp, ?_, ⟨hcur, by simp [BitVec.le_def]⟩, hdec,
    ⟨hpend, ?_⟩, hst⟩
  · show s.spi.cs = (decide (s.orch.byteCount ≠ 0) && decide (0 ≠ s.orch.returnBytes) &&
      !(s.enc.busy && decide (0 = s.orch.returnBytes - 1)))
    simp only [hcs, henc, ne_eq, Ne.symm hcur, not_false_eq_true, decide_true, Bool.and_true, Bool.false_and, Bool.not_false]
  · simp [henc]

/-! ## Reading back -/

/-- A position of SPI_READ whose transfer is made and whose encoder call is under way or done: chip-select has been
released if it is the last (R151). -/
structure State.ReadPosition (s : State) : Prop where
  state : s.orch.state = .spiRead
  buf : s.buf.wf = true
  bus : spiLaw s.spi
  cs : s.spi.cs = (decide (s.orch.byteCount ≠ 0) && !decide (s.orch.idx = s.orch.returnBytes - 1))
  wanted : s.orch.returnBytes ≠ 0
  bound : s.orch.idx ≤ s.orch.returnBytes
  remains : s.orch.idx ≠ s.orch.returnBytes
  dec : decLaw s
  pending : s.enc.busy = !s.enc.pending.isEmpty
  stimuli : s.stimuli.all fromHost = true

theorem State.ReadPosition.wait {s : State} (h : s.ReadPosition) (he : s.enc.busy = true) : s.Inv := by
  refine ⟨h.buf, h.bus, ?_, ?_, h.dec, ⟨h.pending, ?_⟩, h.stimuli⟩
  · simp [csLaw, h.state, h.cs, he, h.remains]
  · simpa only [cursorLaw, h.state] using ⟨h.wanted, h.bound⟩
  · simpa only [h.state] using fun _ => h.remains

theorem State.ReadPosition.next {s : State} (h : s.ReadPosition) (he : s.enc.busy = false) : (nextPosition s).Inv := by
  obtain ⟨-, -, -, hbound, -⟩ := cursor_advance h.bound h.remains
  have hdec := h.dec
  simp only [decLaw, h.state] at hdec
  refine ⟨h.buf, h.bus, ?_, ⟨h.wanted, hbound⟩, hdec, ⟨h.pending, ?_⟩, h.stimuli⟩
  · show s.spi.cs = (decide (s.orch.byteCount ≠ 0) && decide (s.orch.idx + 1 ≠ s.orch.returnBytes) &&
      !(s.enc.busy && decide (s.orch.idx + 1 = s.orch.returnBytes - 1)))
    simp only [h.cs, he, cursor_is_last, ne_eq, decide_not, Bool.false_and, Bool.not_false, Bool.and_true]
  · simp [nextPosition, he]

theorem State.ReadPosition.keeps_inv {s : State} (h : s.ReadPosition) : (afterEnc nextPosition s).Inv :=
  inv_afterEnc h.wait h.next

/-- The encoder call of a position goes on. -/
theorem State.Inv.pumped_position {s : State} (hs : s.Inv) (hq : s.orch.state = .spiRead)
    (hne : s.orch.idx ≠ s.orch.returnBytes) (he : s.enc.busy = true) : (encPump s).ReadPosition := by
  obtain ⟨hbuf, hspi, hcs, hcur, hdec, -, hst⟩ := hs
  simp only [csLaw, cursorLaw, hq, he] at hcs hcur
  exact ⟨hq, hbuf, hspi, by simpa [encPump_frame, hne] using hcs, hcur.1, hcur.2, hne, hdec, encPump_busy s, hst⟩

/-- A position's transfer is made, its byte stored and its encoder call begun. -/
theorem State.Inv.fresh_position {s : State} (hs : s.Inv) (hq : s.orch.state = .spiRead)
    (hne : s.orch.idx ≠ s.orch.returnBytes) (he : s.enc.busy = false) (d : Byte) (cs : List Byte) :
    (encSend cs { s.withTransfer Config.fillByte false s.readLast with
      buf := s.buf.set s.orch.idx.toNat d }).ReadPosition := by
  obtain ⟨hbuf, hspi, hcs, hcur, hdec, -, hst⟩ := hs
  simp only [csLaw, cursorLaw, hq, he] at hcs hcur
  obtain ⟨hrange, -⟩ := cursor_advance hcur.2 hne
  have hopen : s.spi.cs = decide (s.orch.byteCount ≠ 0) := by simpa [hne] using hcs
  refine ⟨hq, Memory.wf_set _ _ d hrange hbuf, by simp [encSend_frame], ?_, hcur.1, hcur.2, hne, hdec,
    encPump_busy _, hst⟩
  simp only [encSend_frame, State.withTransfer_cs, State.withTransfer_orch, State.readLast, hopen]
  cases decide (s.orch.idx = s.orch.returnBytes - 1) <;> simp

/-- All bytes are read: the bus is released and ENC free (R151). -/
theorem spiRead_done_keeps_inv {s : State} (hs : s.Inv) (hq : s.orch.state = .spiRead)
    (hdone : s.orch.idx = s.orch.returnBytes) : (s.goto .start).Inv := by
  obtain ⟨-, -, hcs, -, ⟨-, hdec⟩, ⟨-, hwait⟩, -⟩ := id hs
  simp only [csLaw, hq] at hcs hdec hwait
  refine hs.goto_start (by simpa [hdone] using hcs) hdec.1 ?_
  by_contra h
  exact hwait (by simpa using h) hdone

theorem spiRead_keeps_inv {s : State} (hs : s.Inv) (hq : s.orch.state = .spiRead) :
    ∃ t, execSpiRead s = .next t ∧ t.Inv := by
  obtain ⟨-, hspi, -, hcur, -⟩ := id hs
  simp only [cursorLaw, hq] at hcur
  unfold execSpiRead
  by_cases hdone : s.orch.idx = s.orch.returnBytes
  · rw [if_pos (by simpa [State.readDone] using hdone)]
    exact ⟨_, rfl, spiRead_done_keeps_inv hs hq hdone⟩
  rw [if_neg (by simpa [State.readDone] using hdone)]
  cases he : s.enc.busy with
  | true => exact ⟨_, rfl, (hs.pumped_position hq hdone he).keeps_inv⟩
  | false =>
    simp only [Bool.false_eq_true, if_false, spiXferOp_withTransfer _ _ _ _ hspi.busFree]
    have hrange : (s.withTransfer Config.fillByte false s.readLast).orch.idx.toNat < Config.bufDepth :=
      (cursor_advance hcur.2 hdone).1
    exact ⟨_, returnByte_in_range _ hrange, (hs.fresh_position hq hdone he _ _).keeps_inv⟩

end Sys2Proof.Machine
end

section
/-! PROOF of EveryStepKeepsTheInvariant: every rule answers a next state of the invariant, so a pass does, so whatever
a host asks for does, and reset leads to the reset values. -/

namespace Sys2Proof.Machine

theorem orchRule_keeps_inv (s : State) (hs : s.Inv) : ∃ t, orchRule s = .next t ∧ t.Inv := by
  unfold orchRule
  split
  next hq => exact start_keeps_inv hs hq
  next hq => exact pollReady_keeps_inv hs hq
  next hq => exact countBytes_keeps_inv hs hq
  next hq => exact returnBytes_keeps_inv hs hq
  next hq => exact readData_keeps_inv hs hq
  next hq => exact checksum_keeps_inv hs hq
  next hq => exact run_keeps_inv hs hq
  next hq => exact spiWrite_keeps_inv hs hq
  next hq => exact spiStall_keeps_inv hs hq
  next hq => exact spiRead_keeps_inv hs hq
  next hq => exact err_keeps_inv hs hq

/-- Where every rule answers a next state with a property, so does a pass. -/
theorem runPass_answers {P : State → Prop} (hP : ∀ s, P s → ∃ t, orchRule s = .next t ∧ P t) (n : Nat) {s : State}
    (hs : P s) : ∃ t, runPass n s = .next t ∧ P t := by
  induction n generalizing s with
  | zero => exact ⟨s, rfl, hs⟩
  | succ n ih =>
    obtain ⟨t, ht, hPt⟩ := hP s hs
    simp only [runPass, ht]
    split
    · exact ⟨s, rfl, hs⟩
    · split
      · exact ⟨t, rfl, hPt⟩
      · exact ih hPt

theorem handleText_keeps_inv (cs : List Byte) {s : State} (hs : s.Inv) : ∃ t, handleText cs s = .next t ∧ t.Inv :=
  runPass_answers orchRule_keeps_inv passFuel (s := offerRx cs s) (hs.congr rfl rfl rfl rfl rfl hs.stimuli)

/-! ## What a host asks for -/

/-- The instruction offers text on RX and lets ORCH go on: a request or a command (R180). -/
def OffersText (i : Instr) : Prop := ∃ cs, ∀ s, exec i s = handleText cs s

theorem decodeReqTail_ok {m : Byte} {p cs : List Byte} {i : Instr} (h : decodeReqTail m p cs = .ok i) :
    ∃ ck, i = .req m p ck := by
  unfold decodeReqTail at h
  split at h
  · cases h
  · split at h <;> cases h
    exact ⟨_, rfl⟩

/-- Text decodes to a request or to nothing (R60). -/
theorem decodeReq_offersText {cs : List Byte} {i : Instr} (h : decodeReq cs = .ok i) : OffersText i := by
  unfold decodeReq at h
  split at h
  · cases h
  split at h
  case isFalse => cases h
  split at h
  · cases h
  split at h
  · cases h
  split at h
  · cases h
  obtain ⟨ck, rfl⟩ := decodeReqTail_ok h
  exact ⟨_, fun _ => rfl⟩

/-- A payload that a frame can hold is a command or a request (R70). -/
theorem decodePayload_offersText (m : Byte) {p : List Byte} (hp : p.length ≤ Config.maxPayload) :
    ∃ i, decodePayload m p = .ok i ∧ OffersText i := by
  unfold decodePayload
  rw [if_neg (by omega)]
  split
  · split_ifs <;> exact ⟨_, rfl, _, fun _ => rfl⟩
  · split_ifs <;> exact ⟨_, rfl, _, fun _ => rfl⟩
  · split_ifs <;> exact ⟨_, rfl, _, fun _ => rfl⟩
  · exact ⟨_, rfl, _, fun _ => rfl⟩

theorem carryOut_fromHost {s : State} {w : Encoded} {ws : List Encoded} (h : s.stimuli = w :: ws)
    (hw : fromHost w = true) : ∃ cs, carryOut s = handleText cs (afterFetch s) := by
  have hfetch : fetch s = w := by simp [fetch, h]
  cases w with
  | rx cs =>
    cases hd : decodeReq cs with
    | ok i =>
      obtain ⟨cs', hcs'⟩ := decodeReq_offersText hd
      exact ⟨cs', by rw [carryOut_of_decode (i := i) (by rw [hfetch]; exact hd), hcs']⟩
    | error r => exact ⟨cs, by simp [carryOut, hfetch, decode, hd, undecoded]⟩
  | payload m p =>
    obtain ⟨i, hd, cs, hcs⟩ := decodePayload_offersText m (by simpa [fromHost] using hw)
    exact ⟨cs, by rw [carryOut_of_decode (i := i) (by rw [hfetch]; exact hd), hcs]⟩
  | tx | lines | orch => cases hw

theorem State.Inv.afterFetch {s : State} (hs : s.Inv) : (afterFetch s).Inv :=
  hs.congr rfl rfl rfl rfl rfl (List.all_eq_true.2 fun w hw =>
    List.all_eq_true.1 hs.stimuli w (List.mem_of_mem_tail hw))

theorem carryOut_keeps_inv {s : State} (hs : s.Inv) : ∃ t, carryOut s = .next t ∧ t.Inv := by
  cases hstim : s.stimuli with
  | nil =>
    rw [carryOut_of_no_stimulus hstim, ← afterFetch_of_no_stimulus hstim]
    exact orchRule_keeps_inv _ hs.afterFetch
  | cons w ws =>
    have hw : fromHost w = true := List.all_eq_true.1 hs.stimuli w (by simp [hstim])
    obtain ⟨cs, hcs⟩ := carryOut_fromHost hstim hw
    rw [hcs]
    exact handleText_keeps_inv cs hs.afterFetch

/-- Reset leads into the invariant from anywhere (R220), the host's stimuli staying as they are. -/
theorem takeReset_inv {s : State} (h : s.stimuli.all fromHost = true) : (takeReset s).Inv :=
  ⟨(reset_buf_wf s).2, ⟨rfl, rfl, rfl, .inl rfl⟩, rfl, trivial, ⟨by simp [Dec.reset], rfl⟩, ⟨rfl, rfl⟩, h⟩

/-- Settles O60: what is carried out answers a next state of the invariant, and so does a reset in its place or after
some of its events. -/
theorem everyStepKeepsTheInvariant : Obligations.EveryStepKeepsTheInvariant := by
  intro s hs
  obtain ⟨t, ht, hinv⟩ := carryOut_keeps_inv hs
  unfold step
  split
  · exact ⟨t, ht, hinv⟩
  · exact ⟨_, rfl, takeReset_inv hs.stimuli⟩
  · rw [ht]
    exact ⟨_, rfl, takeReset_inv hinv.stimuli⟩

end Sys2Proof.Machine
end

section
/-! SUPPORT for the round trips of the wire: what a text on RX decodes to, and what a response frame, a payload and the
request lines decode to. -/

namespace Sys2Proof

/-- The length byte of a payload as long as `in_bytes` says is `in_bytes` (R61). -/
theorem lengthByte_of_length {p : List Byte} {n : Byte} (h : p.length = n.toNat) : lengthByte p = n := by
  rw [lengthByte, h, BitVec.ofNat_toNat, BitVec.setWidth_eq]

theorem decodeReqTail_reads {m : Byte} {p cs : List Byte} {i : Instr} (h : decodeReqTail m p cs = .ok i) :
    ∃ ck, i = .req m p ck ∧ cs = hex2 ck ++ [chCR, chLF] := by
  unfold decodeReqTail at h
  split at h
  · cases h
  next ck r hck =>
    split at h
    · cases h
      exact ⟨ck, rfl, by rw [takeByte_ok _ _ _ hck, ‹r = _›]⟩
    · cases h

/-- A text that decodes is, character for character, the frame of a request of at most 255 payload bytes (R60, R61). -/
theorem decodeReq_reads {cs : List Byte} {i : Instr} (h : decodeReq cs = .ok i) :
    ∃ m p ck, i = .req m p ck ∧ cs = reqChars m p ck ∧ p.length ≤ Config.maxPayload := by
  unfold decodeReq at h
  split at h
  · cases h
  next c cs =>
    split at h
    case isFalse => cases h
    next hdot =>
      split at h
      · cases h
      next n r1 hn =>
        split at h
        · cases h
        next m r2 hm =>
          split at h
          · cases h
          next p r3 hp =>
            obtain ⟨ck, rfl, hck⟩ := decodeReqTail_reads h
            obtain ⟨hr2, hlen⟩ := takeBytes_ok _ _ _ _ hp
            refine ⟨m, p, ck, rfl, ?_, by simpa [hlen, Config.maxPayload] using Nat.le_of_lt_succ n.isLt⟩
            rw [reqChars, lengthByte_of_length hlen, hdot, takeByte_ok _ _ _ hn, takeByte_ok _ _ _ hm, hr2, hck]

/-- The bytes of a DATA frame come back (R67). -/
theorem decodeRsp_hexBytes {ds : List Byte} (hne : ds ≠ []) (hlen : ds.length ≤ Config.maxPayload) :
    decodeRsp (chDot :: (hexBytes ds ++ [chLF])) = .ok (.data ds) := by
  obtain ⟨d, ds, rfl⟩ := List.exists_cons_of_ne_nil hne
  have hlt : ds.length < Config.maxPayload := hlen
  simp [decodeRsp, decodeDigits_hexBytes, hlt]

theorem decodePayload_sectorErase (a : FlashAddr) :
    decodePayload 0 (0x20 :: addrBytes a) = .ok (.sectorErase a) := by
  simp [decodePayload, addrBytes, Config.maxPayload]

theorem decodePayload_read (a : FlashAddr) (m : Byte) : decodePayload m (0x03 :: addrBytes a) = .ok (.read a m) := by
  simp [decodePayload, addrBytes, Config.maxPayload]

/-- With at least one data byte and no more than the frame holds beside command and address (R183). -/
theorem decodePayload_pageProgram (a : FlashAddr) {ds : List Byte} (hne : ds ≠ [])
    (hlen : ds.length + 4 ≤ Config.maxPayload) :
    decodePayload 0 (0x02 :: (addrBytes a ++ ds)) = .ok (.pageProgram a ds) := by
  obtain ⟨d, ds, rfl⟩ := List.exists_cons_of_ne_nil hne
  have hfits : ¬ Config.maxPayload < (0x02 :: (addrBytes a ++ d :: ds)).length := Nat.not_lt.2 hlen
  simp only [decodePayload, if_neg hfits]
  simp [addrBytes]

end Sys2Proof
end

section
/-! PROOF of DecodeOfEncodeIsIdentity: frames and payloads with operands by the lemmas above, every other word by
evaluation. -/

namespace Sys2Proof.Machine

/-- Settles O6, by cases on the row of the table. -/
theorem decodeOfEncodeIsIdentity : Obligations.DecodeOfEncodeIsIdentity := by
  intro i hwf
  cases i with
  | req m p ck => exact decodeReq_reqChars m p ck (by simpa [Instr.wf] using hwf)
  | data ds =>
    obtain ⟨hpos, hlen⟩ : 1 ≤ ds.length ∧ ds.length ≤ Config.maxPayload := of_decide_eq_true hwf
    exact decodeRsp_hexBytes (List.ne_nil_of_length_pos hpos) hlen
  | pageProgram a ds =>
    obtain ⟨hpos, hlen⟩ : 1 ≤ ds.length ∧ ds.length ≤ 128 := of_decide_eq_true hwf
    exact decodePayload_pageProgram a (List.ne_nil_of_length_pos hpos) (by simp only [Config.maxPayload]; omega)
  | sectorErase a => exact decodePayload_sectorErase a
  | read a m => exact decodePayload_read a m
  | ack | diag | error => rfl
  | wren | readStatus | readId => rfl
  | spiXfer | decByte | decReset | encByte => rfl
  | start | pollReady | countBytes | returnBytes | readData | checksum => rfl
  | run | spiWrite | spiStall | spiRead | err => rfl

end Sys2Proof.Machine
end

section
/-! PROOFS of RequestTextHasOneReading (R60, R61) and AnyTextIsOfferedAsItStands (R72, R242): both rest on what a text
that decodes must be. -/

namespace Sys2Proof.Machine

/-- Settles O7: a text that decodes is its request's own frame. -/
theorem requestTextHasOneReading : Obligations.RequestTextHasOneReading := by
  intro cs i h
  obtain ⟨m, p, ck, rfl, rfl, hlen⟩ := decodeReq_reads h
  exact ⟨rfl, m, p, ck, rfl, hlen⟩

/-- Text on RX is offered as it stands: a request offers the frame it was read from, and text that is none of them is
offered undecoded. -/
theorem carryOut_of_text {s : State} {cs : List Byte} (h : fetch s = .rx cs) :
    carryOut s = handleText cs (afterFetch s) := by
  cases hd : decodeReq cs with
  | ok i =>
    obtain ⟨m, p, ck, rfl, rfl, -⟩ := decodeReq_reads hd
    exact carryOut_of_decode (by rw [h]; exact hd)
  | error r => simp [carryOut, h, decode, hd, undecoded]

/-- Settles O5: without reset the step carries out the text fetched. -/
theorem anyTextIsOfferedAsItStands : Obligations.AnyTextIsOfferedAsItStands := by
  intro s cs ws hr hs
  rw [step_of_no_rst hr]
  exact carryOut_of_text (by simp [fetch, hs])

end Sys2Proof.Machine
end

section
/-! PROOF of ResponseFramesHaveTheirCharacters (R67, R153): with ENC free each frame is one sending of its characters,
and the calls of a DATA frame join to its digits between marker and newline. -/

namespace Sys2Proof.Machine

/-- Behind the first call of a DATA frame the calls give the digits and the newline. -/
theorem dataChars_rest (d : Byte) (ds : List Byte) : dataChars false (d :: ds) = hexBytes (d :: ds) ++ [chLF] := by
  induction ds generalizing d with
  | nil => rfl
  | cons d' ds ih => simp [dataChars, encChars, hexBytes, ih d']

theorem dataChars_frame (d : Byte) (ds : List Byte) :
    dataChars true (d :: ds) = chDot :: (hexBytes (d :: ds) ++ [chLF]) := by
  cases ds with
  | nil => rfl
  | cons d' ds => simp [dataChars, encChars, hexBytes, dataChars_rest d' ds]

/-- A response frame of these characters, with ENC free and a transport that accepts. -/
theorem sent_of_enc_free {s : State} (cs : List Byte) (hb : s.enc.busy = false) (ht : s.env.txReady = []) :
    (if s.enc.busy = true then .refused .encBusy else .next (encSend cs s) : Host.Outcome State Fault Refusal) =
      .next (s.withSent cs) := by
  rw [if_neg (by simp [hb]), encSend_accepted cs s ht]
  rfl

/-- Settles O20: the three frames of one call by their flags, DATA by `dataChars_frame`. -/
theorem responseFramesHaveTheirCharacters : Obligations.ResponseFramesHaveTheirCharacters := by
  intro s d ds hb ht
  refine ⟨sent_of_enc_free _ hb ht, sent_of_enc_free _ hb ht, sent_of_enc_free _ hb ht, ?_⟩
  rw [← dataChars_frame]
  exact sent_of_enc_free _ hb ht

end Sys2Proof.Machine
end

section
/-! PROOF of SpecWordsDecode (95_test_vectors X6, X10): fixed words. -/

namespace Sys2Proof.Machine

/-- Settles O8, by evaluating the decoder at each word. -/
theorem specWordsDecode : Obligations.SpecWordsDecode := by
  unfold Obligations.SpecWordsDecode
  decide

end Sys2Proof.Machine
end

section
/-! SUPPORT for RequestFrameDecodesToItsFields: sums and digits of joined sequences of bytes, a request frame as its
marker, the digits of its fields and the terminator, and `DecByte()` once for every byte of such digits. -/

namespace Sys2Proof

theorem hexBytes_append (p q : List Byte) : hexBytes (p ++ q) = hexBytes p ++ hexBytes q := by
  induction p with
  | nil => rfl
  | cons b bs ih => simp [hexBytes, ih]

theorem byteSum_eq_sum (p : List Byte) : byteSum p = p.sum := by
  induction p with
  | nil => rfl
  | cons b bs ih => rw [byteSum, ih, List.sum_cons]

/-- The bytes of a request frame (R61): `in_bytes`, `out_bytes`, the payload, the checksum. -/
def frameFields (m : Byte) (p : List Byte) : List Byte := lengthByte p :: m :: (p ++ [checksumOf m p])

theorem frameFields_length (m : Byte) (p : List Byte) : (frameFields m p).length = 3 + p.length := by
  simp [frameFields]
  omega

theorem reqFrame_eq_fields (m : Byte) (p : List Byte) :
    reqFrame m p = chDot :: (hexBytes (frameFields m p) ++ [chCR, chLF]) := by
  simp [reqFrame, reqChars, frameFields, hexBytes, hexBytes_append]

/-- The checksum completes the sum of the other fields to 0 (R63). -/
theorem fields_sum_zero (m : Byte) (p : List Byte) : lengthByte p + m + p.sum + checksumOf m p = 0 := by
  rw [checksumOf, byteSum_eq_sum, zero_sub, add_neg_cancel]

theorem byteSum_frameFields (m : Byte) (p : List Byte) : byteSum (frameFields m p) = 0 := by
  rw [byteSum_eq_sum, ← fields_sum_zero m p]
  simp [frameFields, add_assoc]

end Sys2Proof

namespace Sys2Proof.Machine

/-- A byte answered is the first of the sequence, and decoding goes on behind it. -/
theorem decodeBytes_succ {s t : State} {b : Byte} (n : Nat) (h : decByteOp s = (.byte b, t)) :
    decodeBytes (n + 1) s = (b :: (decodeBytes n t).1, (decodeBytes n t).2) := by
  simp only [decodeBytes, h]

/-- Inside a frame the digits of a sequence of bytes decode to these bytes, which are added to the sum (R93, R97). -/
theorem decodeBytes_hexBytes (bs rest : List Byte) (s : State) (he : s.dec.err = false) (hf : s.dec.inFrame = true)
    (hb : s.dec.busy = false) (hrx : s.env.rx = hexBytes bs ++ rest) :
    (decodeBytes bs.length s).1 = bs ∧ (decodeBytes bs.length s).2.dec.sum = s.dec.sum + byteSum bs ∧
    (decodeBytes bs.length s).2.env.rx = rest := by
  induction bs generalizing s with
  | nil => exact ⟨rfl, (add_zero _).symm, hrx⟩
  | cons b bs ih =>
    have hstep := decByteOp_hex2 s b (hexBytes bs ++ rest) he hf (by simp [hb])
      (by rw [hrx, hexBytes, List.append_assoc])
    rw [List.length_cons, decodeBytes_succ _ hstep]
    obtain ⟨hbytes, hsum, hrest⟩ := ih (s.withDec
      { inFrame := true, err := false, sum := s.dec.sum + b, busy := false, hi := hiNibble b, haveHi := false }
      (hex2 b) (hexBytes bs ++ rest)) rfl rfl rfl rfl
    exact ⟨congrArg (b :: ·) hbytes, hsum.trans (add_assoc _ _ _), hrest⟩

/-- From the hunt, junk and the marker before these digits are taken too; the sum is that of the bytes alone (R92). -/
theorem decodeBytes_hunt (b : Byte) (bs junk rest : List Byte) (s : State) (he : s.dec.err = false)
    (hf : s.dec.inFrame = false) (hj : chDot ∉ junk)
    (hrx : s.env.rx = junk ++ chDot :: (hexBytes (b :: bs) ++ rest)) :
    (decodeBytes (b :: bs).length s).1 = b :: bs ∧
    (decodeBytes (b :: bs).length s).2.dec.sum = byteSum (b :: bs) ∧
    (decodeBytes (b :: bs).length s).2.env.rx = rest := by
  have hstep := decByteOp_hunt_hex2 s b junk (hexBytes bs ++ rest) he hf hj
    (by rw [hrx, hexBytes, List.append_assoc])
  rw [List.length_cons, decodeBytes_succ _ hstep]
  obtain ⟨hbytes, hsum, hrest⟩ := decodeBytes_hexBytes bs rest (s.withDec
    { inFrame := true, err := false, sum := b, busy := false, hi := hiNibble b, haveHi := false }
    (junk ++ chDot :: hex2 b) (hexBytes bs ++ rest)) rfl rfl rfl rfl
  exact ⟨congrArg (b :: ·) hbytes, hsum, hrest⟩

end Sys2Proof.Machine
end

section
/-! PROOF of RequestFrameDecodesToItsFields (40_frame_codec R97, R107). -/

namespace Sys2Proof.Machine

/-- Settles O15: the frame's fields are decoded one by one behind the marker, and the checksum makes their sum 0. -/
theorem requestFrameDecodesToItsFields : Obligations.RequestFrameDecodesToItsFields := by
  refine ⟨fun b => ⟨hexval_hexchar _, hexval_hexchar _, valueOf_nibbles b⟩, fields_sum_zero, ?_⟩
  intro s m p junk rest _ _ he hf hj hrx
  obtain ⟨hbytes, hsum, hrest⟩ := decodeBytes_hunt (lengthByte p) (m :: (p ++ [checksumOf m p])) junk
    (chCR :: chLF :: rest) s he hf hj (by simpa [reqFrame_eq_fields, frameFields] using hrx)
  rw [← frameFields, frameFields_length] at hbytes hsum hrest
  exact ⟨hbytes, hsum.trans (byteSum_frameFields m p), hrest⟩

end Sys2Proof.Machine
end

section
/-! PROOFS of what a decode request answers (40_frame_codec R92-R95, R98, R100): each clause is the law about
`decByteOp` for what stands on RX, and `decodeGives` where the request may also begin as the operation DecByte. -/

namespace Sys2Proof.Machine

/-- Settles O13, by the definition of `DecReset()`. -/
theorem decResetReturnsToHunt : Obligations.DecResetReturnsToHunt := fun _ => rfl

/-- Settles O9: junk, the marker and two digits in the hunt. -/
theorem decByteHuntsAndDelivers : Obligations.DecByteHuntsAndDelivers := by
  intro s junk rest c1 c2 v1 v2 he hf hj h1 h2 hrx
  exact decodeGives _ _ _ (decByteOp_hunt s junk rest c1 c2 v1 v2 he hf hj h1 h2 hrx)

/-- Settles O10: two digits for a request without one, the second digit for a request that holds the first. -/
theorem decByteInsideFrame : Obligations.DecByteInsideFrame := by
  refine ⟨?_, ?_, ?_⟩
  · intro s c1 c2 v1 v2 rest hb he hf h1 h2 hrx
    have h := decByteOp_digits s c1 c2 v1 v2 rest he hf (by simp [hb]) h1 h2 hrx
    exact ⟨(decodeGives _ _ _ h).2 hb, congrArg Prod.fst h⟩
  · intro s c v rest hb he hf hh h hrx
    exact decByteOp_latched s c v rest he hf hb hh h hrx
  · intro s c1 c2 v1 v2 rest _ he hf hh h1 h2 hrx
    exact (decByteOp_digits s c1 c2 v1 v2 rest he hf (fun _ => hh) h1 h2 hrx).trans (by simp only [he, hf, hh])

/-- Settles O11: the bad character inside the frame, then behind the marker, each as the first and the second digit. -/
theorem badCharacterFailsDecode : Obligations.BadCharacterFailsDecode := by
  refine ⟨?_, ?_, ?_, ?_, by decide⟩
  · intro s c rest he hf h hrx
    exact decodeGives _ _ _ (decByteOp_bad s c rest he hf h hrx)
  · intro s c1 c2 v rest he hf hd h1 h2 hrx
    exact decodeGives _ _ _ (decByteOp_bad_second s c1 c2 v rest he hf hd h1 h2 hrx)
  · intro s junk rest c he hf hj h hrx
    exact decodeGives _ _ _ (decByteOp_hunt_bad_first s junk rest c he hf hj h hrx)
  · intro s junk rest c1 c2 v he hf hj h1 h2 hrx
    exact decodeGives _ _ _ (decByteOp_hunt_bad_second s junk rest c1 c2 v he hf hj h1 h2 hrx)

/-- Junk and the marker arrive in the hunt and then nothing: the request waits inside the frame (R93). -/
theorem decByteOp_hunt_marker_only (s : State) (junk : List Byte) (he : s.dec.err = false)
    (hf : s.dec.inFrame = false) (hj : chDot ∉ junk) (hrx : s.env.rx = junk ++ [chDot]) :
    decByteOp s = (.waiting, s.withDec
      { s.dec with inFrame := true, sum := 0, busy := true, haveHi := false } (junk ++ [chDot]) []) :=
  decByteOp_marker s junk [] _ he hf hj hrx rfl

/-- Junk, the marker and one digit arrive in the hunt: the request waits with the digit latched (R26). -/
theorem decByteOp_hunt_latches (s : State) (junk : List Byte) (c : Byte) (v : Nibble) (he : s.dec.err = false)
    (hf : s.dec.inFrame = false) (hj : chDot ∉ junk) (h : hexval c = some v)
    (hrx : s.env.rx = junk ++ [chDot, c]) :
    decByteOp s = (.waiting, s.withDec
      { s.dec with inFrame := true, sum := 0, busy := true, hi := v, haveHi := true } (junk ++ [chDot, c]) []) :=
  decByteOp_marker s junk [c] _ he hf hj hrx (decScan_first_digit _ c v [] rfl rfl h)

/-- Settles O12: what each wait has taken, and that a recorded error stops DEC. -/
theorem decByteWaits : Obligations.DecByteWaits := by
  refine ⟨?_, ?_, ?_, ?_, ?_⟩
  · intro s he hf hj
    exact decodeGives _ _ _ (decByteOp_junk s he hf hj)
  · intro s he
    exact ⟨_, decodeGives _ _ _ (decByteOp_stuck s he), rfl, rfl, decRequest_busy _, (decRequest_err _).trans he⟩
  · intro s junk he hf hj hrx
    exact decodeGives _ _ _ (decByteOp_hunt_marker_only s junk he hf hj hrx)
  · intro s junk c v he hf hj h hrx
    exact decodeGives _ _ _ (decByteOp_hunt_latches s junk c v he hf hj h hrx)
  · intro s c v he hf hd h hrx
    exact decodeGives _ _ _ (decByteOp_latches s c v he hf hd h hrx)

/-- Settles O14: behind `DecReset()` DEC hunts without an error, and the marker is the first character it meets. -/
theorem freshMarkerAcceptedAfterError : Obligations.FreshMarkerAcceptedAfterError := by
  intro s c1 c2 v1 v2 rest _ h1 h2 hrx
  have h := decByteOp_hunt (decReset s) [] rest c1 c2 v1 v2 rfl rfl List.not_mem_nil h1 h2 hrx
  exact ⟨decReset s, _, rfl, (decodeGives _ _ _ h).2 rfl, congrArg Prod.fst h, rfl, rfl, rfl, rfl⟩

end Sys2Proof.Machine
end

section
/-! PROOFS of what an encoder call does (40_frame_codec R104, R105), for a transport that accepts everything, for any
transport, and for one that stops. -/

namespace Sys2Proof.Machine

/-- With ENC free the operation EncByte is the encoder call (R104). -/
theorem exec_encByte_of_free {s : State} (b m : Byte) (f l e : Bool) (hb : s.enc.busy = false) :
    exec (.encByte b m f l e) s = .next (encSend (encChars b m f l e) s) :=
  if_neg (by simp [hb])

/-- What a request to ENC has sent and what is left are together its characters, and ENC is busy as long as one is
left (R105). -/
theorem encSend_conserves (cs : List Byte) (s : State) :
    (∃ sent, (encSend cs s).trace = s.trace ++ sent.map Event.tx ∧ sent ++ (encSend cs s).enc.pending = cs) ∧
    ((encSend cs s).enc.busy = true ↔ (encSend cs s).enc.pending ≠ []) :=
  ⟨⟨_, rfl, encDrain_conserves cs s.env.txReady⟩, by simp [encSend, encPump_busy]⟩

/-- Settles O17: the transport accepts every character of the call. -/
theorem encByteSendsItsCharacters : Obligations.EncByteSendsItsCharacters := by
  intro s b m f l e hb ht
  rw [exec_encByte_of_free b m f l e hb, encSend_accepted _ s ht, List.append_assoc]
  rfl

/-- Settles O18: the characters are conserved and everything beside ENC is left alone. -/
theorem encByteLosesNothing : Obligations.EncByteLosesNothing := by
  intro s b m f l e hb
  obtain ⟨hsent, hbusy⟩ := encSend_conserves (encChars b m f l e) s
  exact ⟨_, exec_encByte_of_free b m f l e hb, hsent, hbusy, rfl, rfl, rfl, rfl, rfl, rfl, rfl⟩

/-- Settles O19: the call is stalled at the character that is not accepted. -/
theorem encByteWaitsForTheTransport : Obligations.EncByteWaitsForTheTransport := by
  intro s b m f l e k r hb hk ht
  rw [exec_encByte_of_free b m f l e hb, encSend_withStalled _ s k r hk ht]
  rfl

end Sys2Proof.Machine
end

section
/-! SUPPORT for the waits of ORCH on ENC (42_orchestrator R141, R148, R149, R151): where in its rule each of RUN,
SPI_WRITE, SPI_READ and ERR makes its encoder call, and what the rule is when the call is out or stalls. -/

namespace Sys2Proof.Machine

/-! ## The encoder call of each rule -/

/-- RUN makes one encoder call: the checksum's digits, or the error report (R148). -/
theorem execRun_sum_zero {s : State} (h : s.dec.sum = 0) :
    execRun s = .next (afterEnc enterWrite (encCall 0 chC true true false s)) := by
  simp [execRun, runWith, State.checksumOk, Config.diagC, h]

theorem execRun_sum_ne_zero {s : State} (h : s.dec.sum ≠ 0) : execRun s = .next (reportError s) :=
  if_neg (by rwa [State.checksumOk, decide_eq_true_eq])

/-- At the end of the payload, with nothing to return, SPI_WRITE acknowledges (R149). -/
theorem execSpiWrite_end {s : State} (hi : s.orch.idx = s.orch.byteCount) (hr : s.orch.returnBytes = 0) :
    execSpiWrite s = .next (afterEnc (fun t => t.goto .start) (encCall 0 chDot true true true s)) := by
  simp [execSpiWrite, State.payloadDone, hi, hr]

/-- With its call out, a position of SPI_READ only goes on with the call (R151). -/
theorem execSpiRead_busy {s : State} (hi : s.orch.idx ≠ s.orch.returnBytes) (hb : s.enc.busy = true) :
    execSpiRead s = .next (afterEnc nextPosition (encPump s)) := by
  simp [execSpiRead, State.readDone, hi, hb]

/-- With ENC free, a position of SPI_READ makes its transfer, stores the byte and asks ENC to send it (R151). -/
theorem execSpiRead_free {s : State} (hs : s.BusFree) (hi : s.orch.idx ≠ s.orch.returnBytes)
    (hlt : s.orch.idx.toNat < Config.bufDepth) (hb : s.enc.busy = false) :
    execSpiRead s = .next (afterEnc nextPosition
      (encByteOp s.env.nextByte.1 chDot s.readFirst s.readLast false
        { s.withTransfer Config.fillByte false s.readLast with
          buf := s.buf.set s.orch.idx.toNat s.env.nextByte.1 })) := by
  simp only [execSpiRead, State.readDone, hi, decide_false, hb, Bool.false_eq_true, if_false,
    spiXferOp_withTransfer _ _ _ _ hs]
  exact returnByte_in_range _ hlt

/-! ## A call that is out, and a call that stalls -/

/-- A call that is out goes on. -/
theorem encCall_busy (b m : Byte) (f l e : Bool) {s : State} (hb : s.enc.busy = true) :
    encCall b m f l e s = encPump s := if_pos hb

/-- A rule whose call is out goes on with the call, and then behind it (R141). -/
theorem exec_run_goesOn {s : State} (hb : s.enc.busy = true) :
    exec .run s = .next (afterEnc (if s.dec.sum = 0 then enterWrite else recover) (encPump s)) := by
  by_cases h : s.dec.sum = 0
  · rw [if_pos h, ← encCall_busy _ _ _ _ _ hb]
    exact execRun_sum_zero h
  · rw [if_neg h, ← encCall_busy _ _ _ _ _ hb]
    exact execRun_sum_ne_zero h

theorem exec_spiWrite_goesOn {s : State} (hb : s.enc.busy = true) (hi : s.orch.idx = s.orch.byteCount)
    (hr : s.orch.returnBytes = 0) : exec .spiWrite s = .next (afterEnc (fun t => t.goto .start) (encPump s)) := by
  rw [← encCall_busy _ _ _ _ _ hb]
  exact execSpiWrite_end hi hr

theorem exec_err_goesOn {s : State} (hb : s.enc.busy = true) :
    exec .err s = .next (afterEnc recover (encPump s)) := by
  rw [← encCall_busy _ _ _ _ _ hb]
  rfl

/-- The transport stops before the end of the call in flight: the rule waits there. -/
theorem afterEnc_encPump_stalled (after : State → State) {s : State} {k : Nat} {r : List Bool}
    (hk : k < s.enc.pending.length) (ht : s.env.txReady = List.replicate k true ++ false :: r) :
    afterEnc after (encPump s) = s.withStalled s.enc.pending k r := by
  rw [encPump_withStalled s k r hk ht]
  rfl

/-- The transport accepts the rest of the call in flight: the rule goes on behind it. -/
theorem afterEnc_encPump_sent (after : State → State) {s : State} (ht : s.env.txReady = []) :
    afterEnc after (encPump s) = after (s.withSent s.enc.pending) := by
  rw [encPump_withSent s ht]
  rfl

/-- The transport stops before the end of a new request to ENC: the rule waits there. -/
theorem afterEnc_encSend_stalled (after : State → State) {cs : List Byte} {s : State} {k : Nat} {r : List Bool}
    (hk : k < cs.length) (ht : s.env.txReady = List.replicate k true ++ false :: r) :
    afterEnc after (encSend cs s) = s.withStalled cs k r := by
  rw [encSend_withStalled cs s k r hk ht]
  rfl

/-- The transport stops before the end of a rule's encoder call. -/
theorem afterEnc_encCall_stalled (after : State → State) (b m : Byte) (f l e : Bool) {s : State} {k : Nat}
    {r : List Bool} (hb : s.enc.busy = false) (hk : k < (encChars b m f l e).length)
    (ht : s.env.txReady = List.replicate k true ++ false :: r) :
    afterEnc after (encCall b m f l e s) = s.withStalled (encChars b m f l e) k r := by
  rw [encCall, if_neg (by simp [hb])]
  exact afterEnc_encSend_stalled after hk ht

/-- The characters of the call of one position of SPI_READ (R151). -/
theorem encChars_readPosition (s : State) (d : Byte) :
    encChars d chDot s.readFirst s.readLast false =
      (if s.orch.idx = 0 then [chDot] else []) ++ hex2 d ++
      (if s.orch.idx = s.orch.returnBytes - 1 then [chLF] else []) := by
  simp [encChars, State.readFirst, State.readLast]

end Sys2Proof.Machine
end

section
/-! PROOFS of EncoderWaitHoldsTheRule and EncoderCallBeginsToWait (R105, R141, R157). -/

namespace Sys2Proof.Machine

/-- Settles O39: the call goes on; where it stalls the rule waits, and where it ends the rule goes on behind it. -/
theorem encoderWaitHoldsTheRule : Obligations.EncoderWaitHoldsTheRule := by
  refine ⟨?_, ?_⟩
  · intro s k r hb hk ht i hi hwrite hread
    simp only [List.mem_cons, List.not_mem_nil, or_false] at hi
    rcases hi with rfl | rfl | rfl | rfl
    · rw [exec_run_goesOn hb, afterEnc_encPump_stalled _ hk ht]
    · obtain ⟨hidx, hret⟩ := hwrite rfl
      rw [exec_spiWrite_goesOn hb hidx hret, afterEnc_encPump_stalled _ hk ht]
    · exact (execSpiRead_busy (hread rfl) hb).trans (by rw [afterEnc_encPump_stalled _ hk ht])
    · rw [exec_err_goesOn hb, afterEnc_encPump_stalled _ hk ht]
  · intro s hb ht
    refine ⟨fun h => ?_, fun h => ?_, fun hi hr => ?_, fun hi => ?_, ?_⟩
    · rw [exec_run_goesOn hb, if_pos h, afterEnc_encPump_sent _ ht]
      rfl
    · rw [exec_run_goesOn hb, if_neg h, afterEnc_encPump_sent _ ht]
      rfl
    · rw [exec_spiWrite_goesOn hb hi hr, afterEnc_encPump_sent _ ht]
      rfl
    · exact (execSpiRead_busy hi hb).trans (by rw [afterEnc_encPump_sent _ ht]; rfl)
    · rw [exec_err_goesOn hb, afterEnc_encPump_sent _ ht]
      rfl

/-- Settles O40: the call stalls, so what follows it is not done; before the call only SPI_READ does anything. -/
theorem encoderCallBeginsToWait : Obligations.EncoderCallBeginsToWait := by
  intro s k r hb ht
  refine ⟨fun h hk => ?_, fun h hk => ?_, fun hi hr hk => ?_, fun hk => ?_, ?_⟩
  · exact (execRun_sum_zero h).trans (congrArg _ (afterEnc_encCall_stalled _ 0 chC true true false hb hk ht))
  · exact (execRun_sum_ne_zero h).trans
      (congrArg _ (afterEnc_encCall_stalled recover Config.errByte chE true true false hb hk ht))
  · exact (execSpiWrite_end hi hr).trans
      (congrArg _ (afterEnc_encCall_stalled _ 0 chDot true true true hb hk ht))
  · exact congrArg Host.Outcome.next
      (afterEnc_encCall_stalled recover Config.errByte chE true true false hb hk ht)
  · intro cs hs hi hne hcs hk
    have hlt : s.orch.idx.toNat < Config.bufDepth := by
      rw [Config.bufDepth]
      bv_omega
    rw [← encChars_readPosition] at hcs
    have htx : (s.withTransfer Config.fillByte false s.readLast).env.txReady = List.replicate k true ++ false :: r :=
      (nextByte_txReady s.env).trans ht
    refine ⟨s.buf.set s.orch.idx.toNat s.env.nextByte.1, (execSpiRead_free hs hi hlt hb).trans ?_,
      Memory.get_set_same _ _ _, fun a ha => Memory.get_set_other _ _ _ _ ha⟩
    rw [encByteOp, ← hcs]
    exact congrArg _ (afterEnc_encSend_stalled nextPosition hk htx)

end Sys2Proof.Machine
end

section
/-! PROOFS of BusyBlockRefuses (93 V10) and SpiXferExchangesOneByte (41_spi_driver R121-R123, R126). -/

namespace Sys2Proof.Machine

/-- Settles O16: each of these operations first asks whether its block is free. -/
theorem busyBlockRefuses : Obligations.BusyBlockRefuses := by
  intro s b m f l e ds
  exact ⟨fun h => if_neg (by simp [h]), fun h => if_pos h,
    fun h => ⟨if_pos h, if_pos h, if_pos h, if_pos h, if_pos h⟩⟩

/-- On a free bus the operation SpiXfer is one transfer (R121). -/
theorem exec_spiXfer_of_free {s : State} (b : Byte) (f l : Bool) (h : s.BusFree) :
    exec (.spiXfer b f l) s = .next (s.withTransfer b f l) := by
  have hoffered : exec (.spiXfer b f l) s = .next (spiXferOp b f l s).2 := if_pos h.1
  rw [hoffered, spiXferOp_withTransfer b f l s h]

/-- Settles O21: the operation is offered, and the driver's run over the eight bits is the transfer. -/
theorem spiXferExchangesOneByte : Obligations.SpiXferExchangesOneByte :=
  fun _ b f l h => exec_spiXfer_of_free b f l h

end Sys2Proof.Machine
end

section
/-! PROOFS of TransferTogglesSixteenTimes (41_spi_driver R127) and BurstKeepsChipSelect (R125): which of the events of a
transfer write the clock and which write chip-select. -/

namespace Sys2Proof.Machine

@[simp] theorem csWrites_append (as bs : List Event) : csWrites (as ++ bs) = csWrites as ++ csWrites bs := by
  induction as with
  | nil => rfl
  | cons a as ih => cases a <;> simp [csWrites, ih]

@[simp] theorem sckWrites_append (as bs : List Event) : sckWrites (as ++ bs) = sckWrites as ++ sckWrites bs := by
  induction as with
  | nil => rfl
  | cons a as ih => cases a <;> simp [sckWrites, ih]

/-- Each bit is one rise and one fall of the clock (R123). -/
@[simp] theorem sckWrites_edgeEvents (o i : Byte) (n : Nat) :
    sckWrites (edgeEvents o i n) = (List.replicate n [true, false]).flatten := by
  induction n with
  | zero => rfl
  | succ n ih => simp [edgeEvents, sckWrites, ih, List.replicate_succ]

@[simp] theorem csWrites_edgeEvents (o i : Byte) (n : Nat) : csWrites (edgeEvents o i n) = [] := by
  induction n with
  | zero => rfl
  | succ n ih => simpa [edgeEvents, csWrites] using ih

/-- The events of a transfer between those that write chip-select: the byte is loaded and clocked out (R123). -/
def clockedEvents (byteOut byteIn : Byte) : List Event :=
  .mosi (byteOut.getLsbD 7) :: edgeEvents byteOut byteIn 8

theorem transferEvents_eq (o i : Byte) (f l : Bool) :
    transferEvents o i f l =
      (if f = true then [.cs true] else []) ++ clockedEvents o i ++ (if l = true then [.cs false] else []) := by
  simp [transferEvents, clockedEvents]

@[simp] theorem csWrites_clockedEvents (o i : Byte) : csWrites (clockedEvents o i) = [] :=
  csWrites_edgeEvents o i 8

@[simp] theorem sckWrites_clockedEvents (o i : Byte) :
    sckWrites (clockedEvents o i) = (List.replicate 8 [true, false]).flatten :=
  sckWrites_edgeEvents o i 8

theorem csWrites_transferEvents (o i : Byte) (f l : Bool) :
    csWrites (transferEvents o i f l) = (if f = true then [true] else []) ++ (if l = true then [false] else []) := by
  cases f <;> cases l <;> simp [transferEvents_eq, csWrites]

theorem sckWrites_transferEvents (o i : Byte) (f l : Bool) :
    sckWrites (transferEvents o i f l) = (List.replicate 8 [true, false]).flatten := by
  cases f <;> cases l <;> simp [transferEvents_eq, sckWrites]

/-- Settles O22: the transfer is made, and the clock's writes are those of its eight bits. -/
theorem transferTogglesSixteenTimes : Obligations.TransferTogglesSixteenTimes := by
  intro s b f l h
  exact ⟨_, _, exec_spiXfer_of_free b f l h, rfl, sckWrites_transferEvents .., csWrites_transferEvents ..⟩

theorem runTransfers_cons {s : State} (o : Byte) (f l : Bool) (ts : List Triple) (h : s.BusFree) :
    runTransfers ((o, f, l) :: ts) s = runTransfers ts (s.withTransfer o f l) := by
  rw [runTransfers, exec_spiXfer_of_free o f l h]

/-- From any of its transfers on (`f` says whether that is its first), a burst raises chip-select only where it begins
and lowers it only where it ends (R125). -/
theorem runTransfers_payloadTriples {s : State} (h : s.BusFree) (f : Bool) (b : Byte) (bs : List Byte) :
    ∃ t mid, runTransfers (payloadTriples 0 f (b :: bs)) s = .next t ∧
      t.trace = s.trace ++ ((if f = true then [.cs true] else []) ++ mid ++ [.cs false]) ∧ csWrites mid = [] ∧
      (sckWrites mid).length = 16 * (bs.length + 1) ∧ t.spi.cs = false := by
  induction bs generalizing s f b with
  | nil =>
    refine ⟨s.withTransfer b f true, clockedEvents b s.env.nextByte.1, ?_, ?_, by simp, by simp, rfl⟩
    · exact runTransfers_cons b f true [] h
    · exact congrArg (s.trace ++ ·) (transferEvents_eq b s.env.nextByte.1 f true)
  | cons c cs ih =>
    obtain ⟨t, mid, hrun, htrace, hcs, hsck, hlow⟩ := ih (withTransfer_free s b f false) false c
    have hclock : (sckWrites (clockedEvents b s.env.nextByte.1)).length = 16 := by simp
    refine ⟨t, clockedEvents b s.env.nextByte.1 ++ mid, ?_, ?_, by simp [hcs], ?_, hlow⟩
    · exact (runTransfers_cons b f false _ h).trans hrun
    · rw [htrace]
      simp [State.withTransfer, transferEvents_eq]
    · rw [sckWrites_append, List.length_append, hclock, hsck, List.length_cons]
      omega

/-- Settles O23: the burst begins with `first`, so its first event raises chip-select. -/
theorem burstKeepsChipSelect : Obligations.BurstKeepsChipSelect :=
  fun _ b bs h _ => runTransfers_payloadTriples h true b bs

end Sys2Proof.Machine
end

section
/-! PROOF of OnlyTransfersTouchTheBus (41_spi_driver R122, R126; 20_memory R53). -/

namespace Sys2Proof.Machine

/-- From `s` to `t` the driver's registers stay, nothing shows at its pins and no sample is taken. -/
def BusUntouched (s t : State) : Prop :=
  t.spi = s.spi ∧ pinsOf t.trace = pinsOf s.trace ∧ t.env.miso = s.env.miso ∧ t.env.samples = s.env.samples

theorem BusUntouched.trans {s t u : State} (h : BusUntouched s t) (k : BusUntouched t u) : BusUntouched s u := by
  obtain ⟨hspi, hpins, hmiso, hsamples⟩ := h
  obtain ⟨kspi, kpins, kmiso, ksamples⟩ := k
  exact ⟨kspi.trans hspi, kpins.trans hpins, kmiso.trans hmiso, ksamples.trans hsamples⟩

theorem busUntouched_encoder {s t : State} {b m : Byte} {f l e : Bool} {ds : List Byte} :
    ∀ i ∈ encoderInstrs b m f l e ds, exec i s = .next t → BusUntouched s t := by
  intro i hi h
  obtain ⟨cs, rfl⟩ := exec_encoder_next i hi h
  simp [BusUntouched, encSend_frame]

theorem busUntouched_decByteOp (s : State) : BusUntouched s (decByteOp s).2 := by
  simp [BusUntouched, decByteOp_frame]

theorem busUntouched_decByte {s t : State} (h : exec .decByte s = .next t) : BusUntouched s t :=
  exec_decByte_next h ▸ busUntouched_decByteOp s

theorem busUntouched_decReset {s t : State} (h : exec .decReset s = .next t) : BusUntouched s t := by
  cases h
  exact ⟨rfl, rfl, rfl, rfl⟩

/-- A decoding rule leaves the bus if what it does with its byte leaves it; a failure and a wait always do
(R144-R147, R201). -/
theorem busUntouched_withByte {k : Byte → State → Host.Outcome State Fault Refusal} {s t : State}
    (hk : ∀ b u, k b u = .next t → BusUntouched u t) (h : withByte k s = .next t) : BusUntouched s t := by
  have hdec := busUntouched_decByteOp s
  rcases withByte_next k s t h with ⟨b, -, hb⟩ | ⟨-, rfl⟩ | ⟨-, rfl⟩
  · exact hdec.trans (hk b _ hb)
  · exact hdec
  · exact hdec

theorem busUntouched_countBytes {s t : State} (h : execCountBytes s = .next t) : BusUntouched s t :=
  busUntouched_withByte (fun _ _ hb => by cases hb; exact ⟨rfl, rfl, rfl, rfl⟩) h

theorem busUntouched_returnBytes {s t : State} (h : execReturnBytes s = .next t) : BusUntouched s t :=
  busUntouched_withByte (fun _ _ hb => by cases hb; exact ⟨rfl, rfl, rfl, rfl⟩) h

theorem busUntouched_checksum {s t : State} (h : execChecksum s = .next t) : BusUntouched s t :=
  busUntouched_withByte (fun _ _ hb => by cases hb; exact ⟨rfl, rfl, rfl, rfl⟩) h

theorem busUntouched_storeByte {b : Byte} {s t : State} (h : storeByte b s = .next t) : BusUntouched s t := by
  obtain ⟨-, rfl⟩ := storeByte_next b s t h
  exact ⟨rfl, rfl, rfl, rfl⟩

theorem busUntouched_readData {s t : State} (h : execReadData s = .next t) : BusUntouched s t := by
  unfold execReadData at h
  split at h
  · cases h
    exact ⟨rfl, rfl, rfl, rfl⟩
  · exact busUntouched_withByte (fun _ _ hb => busUntouched_storeByte hb) h

theorem busUntouched_run {s t : State} (h : execRun s = .next t) : BusUntouched s t := by
  obtain ⟨-, -, hspi, -, -, -, hmiso, hsamples, hpins, -⟩ := execRun_frame s t h
  exact ⟨hspi, hpins, hmiso, hsamples⟩

theorem busUntouched_err {s t : State} (h : execErr s = .next t) : BusUntouched s t := by
  cases h
  obtain ⟨-, -, hspi, -, -, -, hmiso, hsamples, hpins, -⟩ := reportError_frame s
  exact ⟨hspi, hpins, hmiso, hsamples⟩

/-- Settles O43: ENC, DEC and every rule that makes no transfer leave the driver, its pins and the data-in line. -/
theorem onlyTransfersTouchTheBus : Obligations.OnlyTransfersTouchTheBus := by
  intro s t b m f l e ds
  have henc := busUntouched_encoder (s := s) (t := t) (b := b) (m := m) (f := f) (l := l) (e := e) (ds := ds)
  simp only [encoderInstrs, List.forall_mem_cons, List.not_mem_nil, IsEmpty.forall_iff, implies_true, and_true] at henc ⊢
  obtain ⟨hack, hdiag, hdata, herror, hencByte⟩ := henc
  exact ⟨hack, hdiag, hdata, herror, busUntouched_decByte, busUntouched_decReset, hencByte, busUntouched_countBytes,
    busUntouched_returnBytes, busUntouched_readData, busUntouched_checksum, busUntouched_run, busUntouched_err⟩

end Sys2Proof.Machine
end

section
/-! SUPPORT for the statements about the decoding states (42_orchestrator R144-R147): what a decoding rule answers to a
byte, to a failure and to a wait, and which instructions are such rules. -/

namespace Sys2Proof.Machine

/-! ## The answers of DEC -/

/-- A byte goes to what the rule wants it for. -/
theorem withByte_byte (k : Byte → State → Host.Outcome State Fault Refusal) {s t : State} {b : Byte}
    (h : decByteOp s = (.byte b, t)) : withByte k s = k b t := by
  simp only [withByte, h]

/-- A failure takes ORCH to ERR, and nothing else of ORCH changes (R201). -/
theorem withByte_error (k : Byte → State → Host.Outcome State Fault Refusal) {s t : State}
    (h : decByteOp s = (.error, t)) : withByte k s = .next { t with orch := { s.orch with state := .err } } := by
  have ho : t.orch = s.orch := by simpa only [h] using (decByteOp_frame s).1
  rw [← ho]
  simp only [withByte, h]
  rfl

theorem withByte_waiting (k : Byte → State → Host.Outcome State Fault Refusal) {s t : State}
    (h : decByteOp s = (.waiting, t)) : withByte k s = .next t := by
  simp only [withByte, h]

/-- A request that waits stays outstanding, an error recorded or not (R93, R95). -/
theorem decByteOp_waiting_busy {s t : State} (h : decByteOp s = (.waiting, t)) : t.dec.busy = true := by
  cases he : s.dec.err with
  | true =>
    cases (decByteOp_stuck s he).symm.trans h
    exact decRequest_busy s.dec
  | false =>
    rw [decByteOp_ok s he, Prod.mk.injEq] at h
    obtain ⟨ha, rfl⟩ := h
    rcases decScan_cases (decRequest s.dec) s.env.rx (decRequest_busy _) (by rw [decRequest_err, he]) with
      ⟨b, hb, -⟩ | ⟨hb, -⟩ | ⟨-, hbusy, -⟩
    · cases hb.symm.trans ha
    · cases hb.symm.trans ha
    · exact hbusy

/-! ## The decoding rules -/

/-- READ_DATA asks for a byte as long as the cursor is not at `byte_count` (R146). -/
theorem execReadData_open {s : State} (h : s.orch.idx ≠ s.orch.byteCount) :
    execReadData s = withByte storeByte s :=
  if_neg (by simpa [State.payloadDone] using h)

theorem execReadData_done {s : State} (h : s.orch.idx = s.orch.byteCount) : execReadData s = .next (s.goto .checksum) :=
  if_pos (by simpa [State.payloadDone] using h)

/-- The instructions that ask DEC for a byte of the frame. -/
def decodingInstrs : List Instr := [.countBytes, .returnBytes, .readData, .checksum]

/-- Each of them is a decoding rule, READ_DATA before the end of the payload. -/
theorem exec_decoding_eq_withByte (s : State) : ∀ i ∈ decodingInstrs, (i = .readData → s.orch.idx ≠ s.orch.byteCount) →
    ∃ k, exec i s = withByte k s := by
  intro i hi hopen
  simp only [decodingInstrs, List.mem_cons, List.not_mem_nil, or_false] at hi
  rcases hi with rfl | rfl | rfl | rfl
  · exact ⟨_, rfl⟩
  · exact ⟨_, rfl⟩
  · exact ⟨_, execReadData_open (hopen rfl)⟩
  · exact ⟨_, rfl⟩

/-- A cursor short of 255 addresses a cell (R7). -/
theorem cursor_in_range {a : Byte} (h : a ≠ 255) : a.toNat < Config.bufDepth := by
  rw [Config.bufDepth]
  bv_omega

/-- A byte is stored in the cell at the cursor (R146). -/
theorem execReadData_byte {s t : State} {b : Byte} (h : s.orch.idx ≠ s.orch.byteCount) (hr : s.orch.idx ≠ 255)
    (hb : decByteOp s = (.byte b, t)) :
    execReadData s = .next { t with
      buf := s.buf.set s.orch.idx.toNat b, orch := { s.orch with idx := s.orch.idx + 1, state := .readData } } := by
  have hframe := decByteOp_frame s
  rw [hb] at hframe
  obtain ⟨ho, -, -, hbuf, -⟩ := hframe
  have hlt : t.orch.idx.toNat < Config.bufDepth := by
    rw [ho]
    exact cursor_in_range hr
  rw [execReadData_open h, withByte_byte _ hb, storeByte_in_range b hlt, ← ho, ← hbuf]
  rfl

end Sys2Proof.Machine
end

section
/-! PROOFS of CountBytesLoadsByteCount, ReturnBytesLoadsReturnBytes, ReadDataStoresPayload, ChecksumCompletesTheSum and
DecodingStateWaitsForRx (42_orchestrator R144-R147, R157): each clause is the rule's answer to what the decode request
answers. -/

namespace Sys2Proof.Machine

/-- Settles O27: the failure, the wait, and the byte behind the marker, with no digit or with one latched. -/
theorem countBytesLoadsByteCount : Obligations.CountBytesLoadsByteCount := by
  refine ⟨fun s t h => withByte_error _ h, ?_, ?_, ?_, ?_, ?_⟩
  · intro s t h
    obtain ⟨ho, -, hspi, -, -, -, -, -, -, hpins, -⟩ := h ▸ decByteOp_frame s
    exact ⟨withByte_waiting _ h, decByteOp_waiting_busy h, ho, hspi, hpins⟩
  · intro s hs hq
    exact (hs.decoding (.inl hq)).1
  · intro s c1 c2 v1 v2 rest he hf hd h1 h2 hrx
    exact withByte_byte _ (decByteOp_digits s c1 c2 v1 v2 rest he hf hd h1 h2 hrx)
  · intro s c v rest he hf hb hh h hrx
    exact withByte_byte _ (decByteOp_latched s c v rest he hf hb hh h hrx)
  · intro s junk rest c1 c2 v1 v2 he hf hj h1 h2 hrx
    exact withByte_byte _ (decByteOp_hunt s junk rest c1 c2 v1 v2 he hf hj h1 h2 hrx)

/-- Settles O28: the failure, the cursor of the invariant, and the byte with its first digit latched or not. -/
theorem returnBytesLoadsReturnBytes : Obligations.ReturnBytesLoadsReturnBytes := by
  refine ⟨fun s t h => withByte_error _ h, ?_, ?_, ?_⟩
  · intro s hs hq
    obtain ⟨-, -, -, hcur, -⟩ := hs
    simpa only [cursorLaw, hq] using hcur
  · intro s c v rest he hf hb hh h hrx
    exact withByte_byte _ (decByteOp_latched s c v rest he hf hb hh h hrx)
  · intro s c1 c2 v1 v2 rest he hf hd h1 h2 hrx
    exact withByte_byte _ (decByteOp_digits s c1 c2 v1 v2 rest he hf hd h1 h2 hrx)

/-- Settles O29: below `byte_count` the byte goes to the cell at the cursor, which only that cell shows. -/
theorem readDataStoresPayload : Obligations.ReadDataStoresPayload := by
  refine ⟨?_, ?_, fun s h => execReadData_done h, ?_⟩
  · intro s t hne h
    obtain ⟨-, -, -, hbuf, -⟩ := h ▸ decByteOp_frame s
    exact ⟨hbuf, (execReadData_open hne).trans (withByte_error _ h)⟩
  · intro s c v rest hne hr he hf hb hh h hrx
    exact ⟨_, execReadData_byte hne hr (decByteOp_latched s c v rest he hf hb hh h hrx), Memory.get_set_same _ _ _,
      fun a ha => Memory.get_set_other _ _ _ _ ha⟩
  · intro s c1 c2 v1 v2 rest hne hr he hf hd h1 h2 hrx
    exact ⟨_, execReadData_byte hne hr (decByteOp_digits s c1 c2 v1 v2 rest he hf hd h1 h2 hrx),
      Memory.get_set_same _ _ _, fun a ha => Memory.get_set_other _ _ _ _ ha⟩

/-- Settles O30: the failure, and the byte with its first digit latched or not; only DEC keeps it, in the sum. -/
theorem checksumCompletesTheSum : Obligations.ChecksumCompletesTheSum := by
  refine ⟨fun s t h => withByte_error _ h, ?_, ?_⟩
  · intro s c v rest he hf hb hh h hrx
    exact withByte_byte _ (decByteOp_latched s c v rest he hf hb hh h hrx)
  · intro s c1 c2 v1 v2 rest he hf hd h1 h2 hrx
    exact withByte_byte _ (decByteOp_digits s c1 c2 v1 v2 rest he hf hd h1 h2 hrx)

/-- Settles O32: in each of the four states the rule's wait is the wait of its decode request. -/
theorem decodingStateWaitsForRx : Obligations.DecodingStateWaitsForRx := by
  refine ⟨?_, ?_⟩
  · intro s c v he hf hd h hrx i hi hopen
    obtain ⟨k, hk⟩ := exec_decoding_eq_withByte s i hi hopen
    rw [hk, withByte_waiting k (decByteOp_latches s c v he hf hd h hrx)]
  · intro s hrx i hi hopen
    obtain ⟨k, hk⟩ := exec_decoding_eq_withByte s i hi hopen
    rw [hk, withByte_waiting k (decByteOp_nothing s hrx)]
    refine ⟨fun hb => ?_, fun hb => ?_⟩
    · rw [decRequest, if_pos hb]
    · rw [decRequest_new _ hb]

end Sys2Proof.Machine
end

section
/-! PROOFS of the statements about the single states that use the bus and the encoder (42_orchestrator R142, R143,
R148-R152) on a free bus, with ENC free and a transport that accepts. -/

namespace Sys2Proof.Machine

/-! ## The bus -/

/-- A transfer and a write of `orch.state` do not meet. -/
theorem withTransfer_goto (s : State) (o : Byte) (f l : Bool) (q : OrchState) :
    (s.withTransfer o f l).goto q = (s.goto q).withTransfer o f l := rfl

/-- Settles O24: `DecReset()`, the cursor and two transfers, the bus being free. -/
theorem startReleasesAndOpensStatusBurst : Obligations.StartReleasesAndOpensStatusBurst := by
  intro s h
  rw [show exec .start s = _ from execStart_free h, withTransfer_goto, withTransfer_goto]
  rfl

/-- Settles O25: the byte of the poll decides by its bit 0. -/
theorem pollReadyTestsBitZero : Obligations.PollReadyTestsBitZero := by
  intro s h
  refine ⟨fun hbusy => ?_, fun hidle => ?_⟩
  · exact (execPollReady_free h).trans (if_pos hbusy)
  · exact (execPollReady_free h).trans (if_neg (by simpa [wip] using hidle))

/-- Settles O36: one transfer, and the cursor is set to 0. -/
theorem spiStallPacesTheBus : Obligations.SpiStallPacesTheBus :=
  fun _ h => execSpiStall_free h

/-! ## The encoder -/

/-- A rule goes on behind an encoder call that the transport accepts. -/
theorem afterEnc_encCall_sent (after : State → State) (b m : Byte) (f l e : Bool) {s : State} (hb : s.enc.busy = false)
    (ht : s.env.txReady = []) : afterEnc after (encCall b m f l e s) = after (s.withSent (encChars b m f l e)) := by
  rw [encCall_withSent b m f l e s hb ht]
  exact afterEnc_free after _ rfl

theorem txOf_withSent (s : State) (cs : List Byte) : txOf (s.withSent cs).trace = txOf s.trace ++ cs := by
  simp [State.withSent]

/-- The error report is sent and ORCH restarts (R152, R208). -/
theorem reportError_sent {s : State} (hb : s.enc.busy = false) (ht : s.env.txReady = []) :
    reportError s = (s.withSent errorText).goto .start :=
  afterEnc_encCall_sent recover Config.errByte chE true true false hb ht

/-- Settles O38: the error report. -/
theorem errReportsAndRestarts : Obligations.ErrReportsAndRestarts :=
  fun _ hb ht => congrArg Host.Outcome.next (reportError_sent hb ht)

/-- Settles O33: the sum decides between the diagnostic frame and the error report. -/
theorem runConfirmsOrRejectsTheChecksum : Obligations.RunConfirmsOrRejectsTheChecksum := by
  intro s hb ht
  refine ⟨fun h => ?_, fun h => ?_⟩
  · exact (execRun_sum_zero h).trans
      (congrArg Host.Outcome.next (afterEnc_encCall_sent enterWrite 0 chC true true false hb ht))
  · exact (execRun_sum_ne_zero h).trans (congrArg Host.Outcome.next (reportError_sent hb ht))

/-- With a wrong sum RUN reports the error, whatever the parameter (R148). -/
theorem runWith_sum_ne_zero (d : Bool) {s : State} (h : s.dec.sum ≠ 0) : runWith d s = .next (reportError s) :=
  if_neg (by rwa [State.checksumOk, decide_eq_true_eq])

/-- Without the diagnostic frame a right sum only opens the payload (D21). -/
theorem runWith_false_sum_zero {s : State} (h : s.dec.sum = 0) : runWith false s = .next (enterWrite s) := by
  simp [runWith, State.checksumOk, h]

/-- Settles O34: with `DIAG_C` true RUN is the machine's own rule, and the error report knows no parameter. -/
theorem runForEitherDiagParameter : Obligations.RunForEitherDiagParameter := by
  intro s d hb ht
  obtain ⟨hok, -⟩ := runConfirmsOrRejectsTheChecksum s hb ht
  refine ⟨fun h => ?_, fun h => ?_⟩
  · cases d with
    | true => exact ⟨_, hok h, rfl, txOf_withSent s _⟩
    | false => exact ⟨_, runWith_false_sum_zero h, rfl, by simp [enterWrite]⟩
  · rw [runWith_sum_ne_zero d h, reportError_sent hb ht]
    exact ⟨_, rfl, rfl, by rw [State.goto_trace, txOf_withSent, errorText]; rfl⟩

/-! ## The payload and the bytes read back -/

/-- On a free bus a written cell below `byte_count` goes out as one transfer (R149). -/
theorem execSpiWrite_free {s : State} {v : Byte} (h : s.BusFree) (hne : s.orch.idx ≠ s.orch.byteCount)
    (hr : s.orch.idx ≠ 255) (hv : s.buf.get s.orch.idx.toNat = some v) :
    execSpiWrite s = .next ((s.withTransfer v s.writeFirst s.writeLast).advanceIdx.goto .spiWrite) := by
  simp only [execSpiWrite, State.payloadDone, hne, decide_false, if_true, readAtIdx, memRead, if_pos (cursor_in_range hr), hv,
    spiXferOp_withTransfer _ _ _ _ h]

/-- Behind the payload, with bytes wanted, ORCH goes to the stall and makes no transfer (R149). -/
theorem execSpiWrite_stall {s : State} (hi : s.orch.idx = s.orch.byteCount) (hr : s.orch.returnBytes ≠ 0) :
    execSpiWrite s = .next (s.goto .spiStall) := by
  have hdone : s.payloadDone = true := decide_eq_true hi
  simp only [execSpiWrite, hdone, Bool.true_eq_false, if_false, if_neg hr]

/-- Settles O35: the invariant on entry, a payload byte, and the two ends. -/
theorem spiWriteStreamsTheBuffer : Obligations.SpiWriteStreamsTheBuffer := by
  refine ⟨?_, ?_, ?_, fun s hi hr => execSpiWrite_stall hi hr⟩
  · intro s hs hq hi
    obtain ⟨-, -, hcs, -⟩ := hs
    simpa [csLaw, hq, hi] using hcs
  · intro s v h hne hr hv
    rw [show exec .spiWrite s = _ from execSpiWrite_free h hne hr hv, State.writeFirst, State.writeLast,
      Bool.decide_and, Bool.decide_and, Bool.decide_eq_false]
    rfl
  · intro s hi hr hb ht
    exact (execSpiWrite_end hi hr).trans
      (congrArg Host.Outcome.next (afterEnc_encCall_sent (fun t => t.goto .start) 0 chDot true true true hb ht))

theorem execSpiRead_done {s : State} (h : s.orch.idx = s.orch.returnBytes) : execSpiRead s = .next (s.goto .start) :=
  if_pos (by simpa [State.readDone] using h)

/-- Settles O37: a position is its transfer, its cell and its encoder call, which the transport accepts. -/
theorem spiReadReturnsBytes : Obligations.SpiReadReturnsBytes := by
  refine ⟨?_, fun s h => execSpiRead_done h⟩
  intro s h hne hr hb ht
  refine ⟨s.buf.set s.orch.idx.toNat s.env.nextByte.1, (execSpiRead_free h hne (cursor_in_range hr) hb).trans ?_,
    Memory.get_set_same _ _ _, fun a ha => Memory.get_set_other _ _ _ _ ha⟩
  rw [encByteOp_withSent _ _ _ _ _ _ ((nextByte_txReady s.env).trans ht), encChars_readPosition]
  rfl

end Sys2Proof.Machine
end

section
/-! PROOF of TransitionsFollowTheTable (42_orchestrator R154): what each rule does to `orch.state`. -/

namespace Sys2Proof.Machine

/-- A decode request, failed or not, takes ORCH to ERR or leaves it. -/
theorem decode_state {s t : State} (h : t = takeDecodeError (decByteOp s).2 ∨ t = (decByteOp s).2) :
    t.orch.state = .err ∨ t.orch.state = s.orch.state := by
  rcases h with rfl | rfl
  · exact .inl rfl
  · exact .inr (congrArg Orch.state (decByteOp_frame s).1)

theorem execCountBytes_state {s t : State} (h : execCountBytes s = .next t) :
    t.orch.state = .returnBytes ∨ t.orch.state = .err ∨ t.orch.state = s.orch.state := by
  rcases execCountBytes_next h with ⟨b, rfl⟩ | h
  · exact .inl rfl
  · exact .inr (decode_state h)

theorem execReturnBytes_state {s t : State} (h : execReturnBytes s = .next t) :
    t.orch.state = .readData ∨ t.orch.state = .err ∨ t.orch.state = s.orch.state := by
  rcases execReturnBytes_next h with ⟨b, rfl⟩ | h
  · exact .inl rfl
  · exact .inr (decode_state h)

theorem execReadData_state {s t : State} (h : execReadData s = .next t) :
    t.orch.state = .checksum ∨ t.orch.state = .readData ∨ t.orch.state = .err ∨ t.orch.state = s.orch.state := by
  rcases execReadData_next h with rfl | ⟨b, -, rfl⟩ | h
  · exact .inl rfl
  · exact .inr (.inl rfl)
  · exact .inr (.inr (decode_state h))

theorem execChecksum_state {s t : State} (h : execChecksum s = .next t) :
    t.orch.state = .run ∨ t.orch.state = .err ∨ t.orch.state = s.orch.state := by
  rcases execChecksum_next h with rfl | h
  · exact .inl rfl
  · exact .inr (decode_state h)

theorem execStart_state {s t : State} (h : execStart s = .next t) : t.orch.state = .pollReady := by
  cases h
  rfl

theorem execPollReady_state {s t : State} (h : execPollReady s = .next t) :
    t.orch.state = .pollReady ∨ t.orch.state = .countBytes := by
  obtain ⟨u, hu, ho, -⟩ := execPollReady_frame s
  cases hu.symm.trans h
  exact ho.imp (congrArg Orch.state) (congrArg Orch.state)

theorem execRun_state {s t : State} (h : execRun s = .next t) :
    t.orch.state = s.orch.state ∨ t.orch.state = .start ∨ t.orch.state = .spiWrite := by
  obtain ⟨ho, -⟩ := execRun_frame s t h
  exact ho.imp (congrArg Orch.state) (Or.imp (congrArg Orch.state) (congrArg Orch.state))

theorem execSpiStall_state {s t : State} (h : execSpiStall s = .next t) : t.orch.state = .spiRead :=
  congrArg Orch.state (execSpiStall_frame h).1

theorem execErr_state {s t : State} (h : execErr s = .next t) :
    t.orch.state = s.orch.state ∨ t.orch.state = .start := by
  cases h
  obtain ⟨ho, -⟩ := reportError_frame s
  exact ho.imp (congrArg Orch.state) (congrArg Orch.state)

/-- Settles O41: where each rule may leave `orch.state`, looked up in the table. -/
theorem transitionsFollowTheTable : Obligations.TransitionsFollowTheTable := by
  intro s t h
  unfold orchRule at h
  split at h
  case h_1 hq => simp [hq, execStart_state h, transitions]
  case h_2 hq => rcases execPollReady_state h with ht | ht <;> simp [hq, ht, transitions, mayStay]
  case h_3 hq => rcases execCountBytes_state h with ht | ht | ht <;> simp [hq, ht, transitions, mayStay]
  case h_4 hq => rcases execReturnBytes_state h with ht | ht | ht <;> simp [hq, ht, transitions, mayStay]
  case h_5 hq => rcases execReadData_state h with ht | ht | ht | ht <;> simp [hq, ht, transitions, mayStay]
  case h_6 hq => rcases execChecksum_state h with ht | ht | ht <;> simp [hq, ht, transitions, mayStay]
  case h_7 hq => rcases execRun_state h with ht | ht | ht <;> simp [hq, ht, transitions, mayStay]
  case h_8 hq =>
    obtain ⟨-, -, -, -, -, -, -, ht⟩ := execSpiWrite_frame s t h
    rcases ht with ht | ht | ht | ht <;> simp [hq, ht, transitions, mayStay]
  case h_9 hq => simp [hq, execSpiStall_state h, transitions]
  case h_10 hq =>
    obtain ⟨-, -, -, -, -, -, ht⟩ := execSpiRead_frame s t h
    rcases ht with ht | ht | ht <;> simp [hq, ht, transitions, mayStay]
  case h_11 hq => rcases execErr_state h with ht | ht <;> simp [hq, ht, transitions, mayStay]

end Sys2Proof.Machine
end

section
/-! PROOF of ScenarioLawsHold (42_orchestrator R158): a request is taken up to RUN, and from there its sum decides. -/

namespace Sys2Proof.Machine

/-! ## A request at RUN -/

/-- ORCH in RUN behind a request, the bus and the encoder as at the rest point (R148, R243). -/
def State.requestTaken (s : State) (m ck : Byte) (p : List Byte) (hi : Nibble) : State :=
  { s.withDec { inFrame := true, err := false, sum := lengthByte p + m + byteSum p + ck, busy := false, hi := hi,
                haveHi := false } (s.env.rx ++ (reqChars m p ck).dropLast.dropLast) [chCR, chLF] with
    buf := s.buf.setAll 0 p,
    orch := { state := .run, byteCount := lengthByte p, returnBytes := m, idx := lengthByte p } }

/-- A request taken at the rest point reaches RUN, with rules to spare (R156). -/
theorem exec_req_reaches_run {s : State} (m ck : Byte) {p : List Byte} (hs : s.Resting) (hj : chDot ∉ s.env.rx)
    (hl : p.length ≤ 255) : ∃ n hi, exec (.req m p ck) s = runPass (n + 1 + 1) (s.requestTaken m ck p hi) := by
  obtain ⟨hi, h⟩ := pass_toRun m ck p (1020 - p.length) s hs hj hl
  refine ⟨1018 - p.length, hi, ?_⟩
  rw [show 1020 - p.length + p.length + 4 = passFuel by simp only [passFuel]; omega] at h
  rw [show 1018 - p.length + 1 + 1 = 1020 - p.length by omega]
  exact h

/-- The sum at RUN is what the frame's checksum is off by (R63, R97). -/
theorem requestTaken_sum (s : State) (m ck : Byte) (p : List Byte) (hi : Nibble) :
    (s.requestTaken m ck p hi).dec.sum = ck - checksumOf m p := by
  rw [checksumOf, zero_sub, sub_neg_eq_add, add_comm ck]
  rfl

/-- Taking a request shows nothing on TX and at the pins. -/
theorem requestTaken_views (s : State) (m ck : Byte) (p : List Byte) (hi : Nibble) :
    txOf (s.requestTaken m ck p hi).trace = txOf s.trace ∧ pinsOf (s.requestTaken m ck p hi).trace = pinsOf s.trace := by
  simp only [State.requestTaken, State.withDec, txOf_append, txOf_map_rx, pinsOf_append, pinsOf_map_rx, List.append_nil,
    and_self]

/-! ## From RUN to START -/

/-- A wrong checksum: the error report ends the pass (R202). -/
theorem runPass_rejects {s : State} (n : Nat) (hq : s.orch.state = .run) (hb : s.enc.busy = false)
    (hd : s.dec.busy = false) (ht : s.env.txReady = []) (hsum : s.dec.sum ≠ 0) :
    runPass (n + 1) s = .next ((s.withSent errorText).goto .start) := by
  have hrule : orchRule s = .next ((s.withSent errorText).goto .start) := by
    rw [← reportError_sent hb ht, ← execRun_sum_ne_zero hsum, orchRule, hq]
  rw [runPass_step n s _ (by simp [State.betweenRequests, hq]) hrule (by simp [State.waiting, State.withSent, hd])]
  exact runPass_stop n _ rfl

/-- A right checksum: the diagnostic frame, and the payload from its first position (R148). -/
theorem runPass_confirms {s : State} (n : Nat) (hq : s.orch.state = .run) (hb : s.enc.busy = false)
    (hd : s.dec.busy = false) (ht : s.env.txReady = []) (hsum : s.dec.sum = 0) :
    runPass (n + 1) s = runPass n (enterWrite (s.withSent [chC, 0x30, 0x30, chLF])) := by
  have hrule : orchRule s = .next (enterWrite (s.withSent [chC, 0x30, 0x30, chLF])) := by
    rw [orchRule, hq]
    exact (execRun_sum_zero hsum).trans
      (congrArg Host.Outcome.next (afterEnc_encCall_sent enterWrite 0 chC true true false hb ht))
  exact runPass_step n s _ (by simp [State.betweenRequests, hq]) hrule
    (by simp [State.waiting, State.withSent, enterWrite, hd])

/-- The payload out and nothing wanted: the empty acknowledgment ends the pass (R149). -/
theorem runPass_acknowledges {s : State} (n : Nat) (hq : s.orch.state = .spiWrite) (hi : s.orch.idx = s.orch.byteCount)
    (hr : s.orch.returnBytes = 0) (hb : s.enc.busy = false) (hd : s.dec.busy = false) (ht : s.env.txReady = []) :
    runPass (n + 1) s = .next ((s.withSent [chDot, chLF]).goto .start) := by
  have hrule : orchRule s = .next ((s.withSent [chDot, chLF]).goto .start) := by
    rw [orchRule, hq]
    exact (execSpiWrite_end hi hr).trans
      (congrArg Host.Outcome.next (afterEnc_encCall_sent (fun t => t.goto .start) 0 chDot true true true hb ht))
  rw [runPass_step n s _ (by simp [State.betweenRequests, hq]) hrule (by simp [State.waiting, State.withSent, hd])]
  exact runPass_stop n _ rfl

/-! ## The two laws -/

/-- R158 (a): nothing to send and nothing to read. -/
theorem emptyRequest_acknowledged {s : State} (hs : s.Resting) (ht : s.env.txReady = []) (hj : chDot ∉ s.env.rx) :
    ∃ t, exec (.req 0 [] 0) s = .next t ∧ pinsOf t.trace = pinsOf s.trace ∧ t.spi = s.spi ∧ t.buf = s.buf ∧
      txOf t.trace = txOf s.trace ++ [chC, 0x30, 0x30, chLF, chDot, chLF] ∧ t.orch.state = .start := by
  obtain ⟨n, hi, hreq⟩ := exec_req_reaches_run 0 0 (p := []) hs hj (Nat.zero_le _)
  obtain ⟨htx, hpins⟩ := requestTaken_views s 0 0 [] hi
  obtain ⟨-, -, -, -, -, -, -, hb⟩ := hs
  have hpass := (runPass_confirms (s := s.requestTaken 0 0 [] hi) (n + 1) rfl hb rfl ht rfl).trans
    (runPass_acknowledges n rfl rfl rfl rfl rfl ht)
  refine ⟨_, hreq.trans hpass, ?_, rfl, rfl, ?_, rfl⟩
  · rw [← hpins]
    simp [State.withSent, enterWrite, pinsOf]
  · rw [← htx]
    simp [State.withSent, enterWrite, txOf]

/-- R158 (b): the frame's checksum is not the one of its fields. -/
theorem corruptedRequest_rejected {s : State} {m ck : Byte} {p : List Byte} (hs : s.Resting) (ht : s.env.txReady = [])
    (hj : chDot ∉ s.env.rx) (hl : p.length ≤ 255) (hck : ck ≠ checksumOf m p) :
    ∃ t, exec (.req m p ck) s = .next t ∧ pinsOf t.trace = pinsOf s.trace ∧ t.spi = s.spi ∧
      txOf t.trace = txOf s.trace ++ errorText ∧ t.orch.state = .start ∧ t.dec.sum = ck - checksumOf m p := by
  obtain ⟨n, hi, hreq⟩ := exec_req_reaches_run m ck hs hj hl
  obtain ⟨htx, hpins⟩ := requestTaken_views s m ck p hi
  have hsum := requestTaken_sum s m ck p hi
  obtain ⟨-, -, -, -, -, -, -, hb⟩ := hs
  have hpass := runPass_rejects (s := s.requestTaken m ck p hi) (n + 1) rfl hb rfl ht
    (by rw [hsum]; exact sub_ne_zero.2 hck)
  refine ⟨_, hreq.trans hpass, ?_, rfl, ?_, rfl, hsum⟩
  · rw [← hpins]
    simp [State.withSent]
  · rw [← htx]
    exact txOf_withSent _ _

/-- Settles O48: the two laws of R158. -/
theorem scenarioLawsHold : Obligations.ScenarioLawsHold :=
  ⟨fun _ => emptyRequest_acknowledged, fun _ _ _ _ => corruptedRequest_rejected⟩

end Sys2Proof.Machine
end

section
/-! SUPPORT for RunEndsAtTheRestPoint: what a step is when nothing comes from outside, and what the coming levels of the
data-in line say about the next byte (41_spi_driver R126). -/

namespace Sys2Proof.Machine

/-! ## Steps without stimulus and reset -/

/-- With no stimulus and no reset to come, a step is the rule of `orch.state` (R140). -/
theorem step_of_nothing_to_come {s : State} (hst : s.stimuli = []) (hr : s.env.rst = []) : step s = orchRule s := by
  have htail : s.env.rst.tail = s.env.rst := by rw [hr, List.tail_nil]
  have hsame : sampleRst s = s := by simp only [sampleRst, htail]
  rw [step_of_no_rst (by simp [rstAsserted, rstSample, hr]), carryOut_of_no_stimulus hst, hsame]

theorem runEnded_iff (s : State) : s.runEnded = true ↔
    (s.orch.state = .countBytes ∧ s.dec.busy = true ∧ s.dec.inFrame = false ∧ s.spi.cs = false ∧
      s.spi.ready = true ∧ s.enc.busy = false) ∧ s.env.rx = [] ∧ s.stimuli = [] ∧ s.env.rst = [] := by
  simp [State.runEnded, State.atRestPoint, and_assoc]

theorem runToEnd_ended (n : Nat) {s : State} (h : s.runEnded = true) : runToEnd n s = some (.next s) := by
  cases n <;> simp [runToEnd, h]

theorem runToEnd_step (n : Nat) {s t : State} (h : s.runEnded = false) (ht : step s = .next t) :
    runToEnd (n + 1) s = runToEnd n t := by
  simp [runToEnd, h, ht]

/-! ## The coming levels of the data-in line -/

theorem sample_miso (e : Env) : e.sample.2.miso = e.miso.tail := by
  unfold Env.sample
  split <;> simp [*]

theorem sample_of_miso {e : Env} {v : Bool} (h : e.miso[0]? = some v) : e.sample.1 = v := by
  cases hm : e.miso with
  | nil => simp [hm] at h
  | cons w ws => simpa [Env.sample, hm] using h

theorem nextBits_miso (n : Nat) (e : Env) : (Env.nextBits n e).2.miso = e.miso.drop n := by
  induction n generalizing e with
  | zero => rfl
  | succ n ih => simp only [Env.nextBits, ih, sample_miso, List.drop_tail]

/-- A level that the run gives for one of the next samples is the one sampled. -/
theorem nextBits_of_miso {n i : Nat} {e : Env} {v : Bool} (hi : i < n) (h : e.miso[i]? = some v) :
    (Env.nextBits n e).1[i]? = some v := by
  induction n generalizing i e with
  | zero => omega
  | succ n ih =>
    cases i with
    | zero => simp [Env.nextBits, sample_of_miso h]
    | succ i => exact ih (e := e.sample.2) (by omega) (by rw [sample_miso, List.getElem?_tail, h])

theorem withTransfer_miso (s : State) (o : Byte) (f l : Bool) :
    (s.withTransfer o f l).env.miso = s.env.miso.drop 8 := nextBits_miso 8 s.env

/-- The last sample of a byte is its bit 0 (R40). -/
theorem byteOfBits_bit_zero (bs : List Bool) (v : Bool) : (byteOfBits (bs ++ [v])).getLsbD 0 = v := by
  rw [byteOfBits, BitVec.getLsbD_ofNat, Nat.testBit_zero, List.foldl_append]
  cases v <;> simp [Nat.add_mod]

/-- The eighth level from here decides the write-in-progress bit of the next byte (R143). -/
theorem wip_nextByte {e : Env} {v : Bool} (h : e.miso[7]? = some v) : wip e.nextByte.1 = v := by
  have hlast : (Env.nextBits 8 e).1.getLast? = some v := by
    rw [List.getLast?_eq_getElem?, nextBits_length]
    exact nextBits_of_miso (by omega) h
  obtain ⟨bs, hbs⟩ := List.getLast?_eq_some_iff.1 hlast
  rw [wip, Env.nextByte, hbs]
  exact byteOfBits_bit_zero bs v

end Sys2Proof.Machine
end

section
/-! PROOF of RunEndsAtTheRestPoint (42_orchestrator R157, 70 R243, 92 D23): START, the status polls and the last hunt,
each one step that hands the run on. -/

namespace Sys2Proof.Machine

/-! ## The run from START -/

/-- What START leaves and the polls keep: the cursor at 0, DEC hunting without a request, bus and ENC free; and nothing
is to come from outside but bytes on RX. -/
structure State.Idle (s : State) : Prop where
  cursor : s.orch.idx = 0
  request : s.dec.busy = false
  error : s.dec.err = false
  hunt : s.dec.inFrame = false
  bus : s.BusFree
  enc : s.enc.busy = false
  stimuli : s.stimuli = []
  rst : s.env.rst = []

theorem State.Idle.goto {s : State} (h : s.Idle) (q : OrchState) : (s.goto q).Idle :=
  ⟨h.cursor, h.request, h.error, h.hunt, h.bus, h.enc, h.stimuli, h.rst⟩

theorem withTransfer_rst (s : State) (o : Byte) (f l : Bool) : (s.withTransfer o f l).env.rst = s.env.rst := by
  rw [State.withTransfer, nextByte_rst]

theorem State.Idle.withTransfer {s : State} (h : s.Idle) (o : Byte) (f l : Bool) : (s.withTransfer o f l).Idle :=
  ⟨h.cursor, h.request, h.error, h.hunt, withTransfer_free s o f l, h.enc, h.stimuli,
    (withTransfer_rst s o f l).trans h.rst⟩

/-- `DecReset()` and the cursor's write make any state idle whose blocks are free (R142). -/
theorem idle_of_start {s : State} (hbus : s.BusFree) (henc : s.enc.busy = false) (hst : s.stimuli = [])
    (hr : s.env.rst = []) : ((decReset s).setIdx 0).Idle :=
  ⟨rfl, rfl, rfl, rfl, hbus, henc, hst, hr⟩

/-- Without a decode request out the run has not ended. -/
theorem runEnded_of_no_request {s : State} (h : s.dec.busy = false) : s.runEnded = false := by
  simp [State.runEnded, State.atRestPoint, h]

/-- The run from `s` ends within `n` steps at the rest point, RX consumed, nothing sent and the buffer as it was. -/
def State.EndsIn (s : State) (n : Nat) : Prop :=
  ∃ t, runToEnd n s = some (.next t) ∧ t.runEnded = true ∧ t.orch.idx = 0 ∧ t.dec.err = false ∧
    rxOf t.trace = rxOf s.trace ++ s.env.rx ∧ txOf t.trace = txOf s.trace ∧ t.buf = s.buf

/-- A step that shows nothing on RX and TX hands the run on. -/
theorem State.EndsIn.of_step {n : Nat} {s u : State} (h : u.EndsIn n) (hgo : s.runEnded = false)
    (hu : step s = .next u) (hrx : u.env.rx = s.env.rx) (hrxOf : rxOf u.trace = rxOf s.trace)
    (htxOf : txOf u.trace = txOf s.trace) (hbuf : u.buf = s.buf) : s.EndsIn (n + 1) := by
  obtain ⟨t, hrun, hend, hidx, herr, htrx, httx, htbuf⟩ := h
  rw [← runToEnd_step n hgo hu] at hrun
  rw [hrxOf, hrx] at htrx
  exact ⟨t, hrun, hend, hidx, herr, htrx, httx.trans htxOf, htbuf.trans hbuf⟩

/-- The last step: COUNT_BYTES drops what is on RX and waits (R144, R157). -/
theorem State.Idle.endsIn_countBytes {s : State} (h : s.Idle) (hq : s.orch.state = .countBytes)
    (hcs : s.spi.cs = false) (hj : chDot ∉ s.env.rx) : s.EndsIn 1 := by
  have hstep : step s = .next (s.withDec (decRequest s.dec) s.env.rx []) := by
    rw [step_of_nothing_to_come h.stimuli h.rst, orchRule, hq]
    exact withByte_waiting _ (decByteOp_junk s h.error h.hunt hj)
  have hend : (s.withDec (decRequest s.dec) s.env.rx []).runEnded = true :=
    (runEnded_iff _).2 ⟨⟨hq, decRequest_busy _, (decRequest_inFrame _).trans h.hunt, hcs, h.bus.1, h.enc⟩,
      rfl, h.stimuli, h.rst⟩
  refine ⟨_, (runToEnd_step 0 (runEnded_of_no_request h.request) hstep).trans (runToEnd_ended 0 hend), hend, h.cursor,
    (decRequest_err _).trans h.error, ?_, ?_, rfl⟩
  · simp [State.withDec]
  · simp [State.withDec]

/-- A status byte is polled: the run goes on in POLL_READY, or released in COUNT_BYTES (R143). -/
theorem State.Idle.step_pollReady {s : State} (h : s.Idle) (hq : s.orch.state = .pollReady) :
    step s = if wip s.env.nextByte.1 = true then .next ((s.withTransfer Config.fillByte false false).goto .pollReady)
      else .next (((s.withTransfer Config.fillByte false false).withTransfer Config.fillByte false true).goto
        .countBytes) := by
  rw [step_of_nothing_to_come h.stimuli h.rst, orchRule, hq]
  exact execPollReady_free h.bus

/-- A transfer shows nothing on RX and TX. -/
theorem withTransfer_wire (s : State) (o : Byte) (f l : Bool) :
    (s.withTransfer o f l).env.rx = s.env.rx ∧ rxOf (s.withTransfer o f l).trace = rxOf s.trace ∧
    txOf (s.withTransfer o f l).trace = txOf s.trace := by
  simp [State.withTransfer]

/-- After `k` busy status bytes an idle one ends the polling (R204). -/
theorem State.Idle.endsIn_pollReady {k : Nat} {s : State} (h : s.Idle) (hq : s.orch.state = .pollReady)
    (hj : chDot ∉ s.env.rx) (hbusy : ∀ j, j < k → s.env.miso[8 * j + 7]? = some true)
    (hidle : s.env.miso[8 * k + 7]? = some false) : s.EndsIn (k + 2) := by
  have hgo := runEnded_of_no_request h.request
  have hstep := h.step_pollReady hq
  induction k generalizing s with
  | zero =>
    rw [wip_nextByte hidle, if_neg Bool.false_ne_true] at hstep
    have hnext := (((h.withTransfer Config.fillByte false false).withTransfer Config.fillByte false true).goto
      .countBytes).endsIn_countBytes rfl rfl (by simpa [withTransfer_wire] using hj)
    exact hnext.of_step hgo hstep (by simp [withTransfer_wire]) (by simp [withTransfer_wire])
      (by simp [withTransfer_wire]) rfl
  | succ k ih =>
    rw [wip_nextByte (hbusy 0 (by omega)), if_pos rfl] at hstep
    have hu := (h.withTransfer Config.fillByte false false).goto .pollReady
    have hmiso : ∀ i, ((s.withTransfer Config.fillByte false false).goto .pollReady).env.miso[i]? = s.env.miso[8 + i]? :=
      fun i => by rw [State.goto_env, withTransfer_miso, List.getElem?_drop]
    have hnext := ih hu rfl (by simpa [withTransfer_wire] using hj)
      (fun j hjk => by rw [hmiso, show 8 + (8 * j + 7) = 8 * (j + 1) + 7 by omega, hbusy (j + 1) (by omega)])
      (by rw [hmiso, show 8 + (8 * k + 7) = 8 * (k + 1) + 7 by omega, hidle]) (runEnded_of_no_request hu.request) (hu.step_pollReady rfl)
    exact hnext.of_step hgo hstep (by simp [withTransfer_wire]) (by simp [withTransfer_wire])
      (by simp [withTransfer_wire]) rfl

/-- The release transfer and the status command, which leave ORCH in POLL_READY (R142). -/
def State.statusAsked (s : State) : State :=
  ((s.withTransfer Config.fillByte false true).withTransfer Config.statusOpcode true false).goto .pollReady

theorem State.Idle.statusAsked {s : State} (h : s.Idle) : s.statusAsked.Idle :=
  ((h.withTransfer _ _ _).withTransfer _ _ _).goto _

/-- Two transfers take sixteen levels. -/
theorem statusAsked_miso (s : State) : s.statusAsked.env.miso = s.env.miso.drop 16 := by
  rw [State.statusAsked, State.goto_env, withTransfer_miso, withTransfer_miso, List.drop_drop]

theorem statusAsked_wire (s : State) :
    s.statusAsked.env.rx = s.env.rx ∧ rxOf s.statusAsked.trace = rxOf s.trace ∧
    txOf s.statusAsked.trace = txOf s.trace := by
  simp [State.statusAsked, withTransfer_wire]

/-- START takes two transfers, so the status bytes begin sixteen levels on (R142). -/
theorem endsIn_start {k : Nat} {s : State} (hbus : s.BusFree) (henc : s.enc.busy = false) (hq : s.orch.state = .start)
    (hst : s.stimuli = []) (hr : s.env.rst = []) (hj : chDot ∉ s.env.rx)
    (hbusy : ∀ j, j < k → s.env.miso[16 + 8 * j + 7]? = some true)
    (hidle : s.env.miso[16 + 8 * k + 7]? = some false) : s.EndsIn (k + 3) := by
  have hstep : step s = .next ((decReset s).setIdx 0).statusAsked := by
    rw [step_of_nothing_to_come hst hr, orchRule, hq]
    exact execStart_free hbus
  obtain ⟨hrx, hrxOf, htxOf⟩ := statusAsked_wire ((decReset s).setIdx 0)
  have hmiso : ∀ i, ((decReset s).setIdx 0).statusAsked.env.miso[i]? = s.env.miso[16 + i]? := fun i => by
    rw [statusAsked_miso, List.getElem?_drop, State.setIdx_env, decReset_env]
  have hnext := (idle_of_start hbus henc hst hr).statusAsked.endsIn_pollReady (k := k) rfl (by rwa [hrx])
    (fun j hjk => by rw [hmiso, ← add_assoc, hbusy j hjk])
    (by rw [hmiso, ← add_assoc, hidle])
  exact hnext.of_step (by simp [State.runEnded, State.atRestPoint, hq]) hstep hrx hrxOf htxOf rfl

end Sys2Proof.Machine
end

section
/-! PROOF of RunEndsAtTheRestPoint, the machine standing still (42_orchestrator R157): a transfer and an encoder call
always show, so only the wait for a byte leaves the state as it was. -/

namespace Sys2Proof.Machine

/-! ## What shows -/

/-- What only adds events behind those of a transfer does not lead back. -/
theorem ne_of_grows_transfer {s t : State} {o : Byte} {f l : Bool} (h : Grows (s.withTransfer o f l) t) : t ≠ s := by
  rintro rfl
  obtain ⟨⟨evs, htrace⟩, -⟩ := h
  have hlen := congrArg List.length htrace
  simp [State.withTransfer, transferEvents] at hlen

/-- Of a character offered, either it is accepted or the transport's answer is used up (R105). -/
theorem encDrain_moves {cs : List Byte} (r : List Bool) (h : cs ≠ []) :
    (encDrain cs r).sent ≠ [] ∨ (encDrain cs r).ready ≠ r := by
  obtain ⟨c, cs, rfl⟩ := List.exists_cons_of_ne_nil h
  match r with
  | [] => simp [encDrain]
  | true :: r => simp [encDrain]
  | false :: r => exact .inr (List.cons_ne_self _ _).symm

/-- A rule does not stand still at its encoder call, if what follows the call records and takes nothing. -/
theorem afterEnc_encSend_ne {after : State → State} {cs : List Byte} (s : State) (hcs : cs ≠ [])
    (hafter : ∀ u, (after u).trace = u.trace ∧ (after u).env = u.env) : afterEnc after (encSend cs s) ≠ s := by
  have hmoves : (encSend cs s).trace ≠ s.trace ∨ (encSend cs s).env.txReady ≠ s.env.txReady :=
    (encDrain_moves s.env.txReady hcs).imp_left fun h => by simpa [encSend, encPump] using h
  have hkept : (afterEnc after (encSend cs s)).trace = (encSend cs s).trace ∧
      (afterEnc after (encSend cs s)).env = (encSend cs s).env := by
    rcases afterEnc_cases after (encSend cs s) with h | h <;> rw [h]
    · exact ⟨rfl, rfl⟩
    · exact hafter _
  intro h
  rw [← hkept.1, ← hkept.2, h] at hmoves
  simp at hmoves

/-- The characters of the call in flight are what ENC goes on with. -/
theorem encPump_eq_encSend (s : State) : encPump s = encSend s.enc.pending s := rfl

theorem State.Inv.pending_ne_nil {s : State} (hs : s.Inv) (hb : s.enc.busy = true) : s.enc.pending ≠ [] := by
  obtain ⟨-, -, -, -, -, ⟨hpend, -⟩, -⟩ := hs
  simpa [hb] using hpend

/-- A call with a marker, begun or in flight, does not stand still. -/
theorem afterEnc_encCall_ne {s : State} (hs : s.Inv) {after : State → State} (b m : Byte) (l e : Bool)
    (hafter : ∀ u, (after u).trace = u.trace ∧ (after u).env = u.env) : afterEnc after (encCall b m true l e s) ≠ s := by
  unfold encCall
  split
  next hb =>
    rw [encPump_eq_encSend]
    exact afterEnc_encSend_ne s (hs.pending_ne_nil hb) hafter
  next => exact afterEnc_encSend_ne s (by simp [encChars]) hafter

/-! ## The rules that do not wait for a byte -/

theorem ne_of_state {s t : State} (h : t.orch.state ≠ s.orch.state) : t ≠ s := by
  rintro rfl
  exact h rfl

theorem pollReady_moves {s t : State} (hs : s.Inv) (hq : s.orch.state = .pollReady) (h : execPollReady s = .next t) :
    t ≠ s := by
  obtain ⟨-, hspi, -⟩ := hs
  rw [execPollReady_free hspi.busFree] at h
  split at h <;> cases h
  · exact ne_of_grows_transfer (.same rfl rfl)
  · exact ne_of_state (by simp [hq])

theorem reportError_ne {s : State} (hs : s.Inv) : reportError s ≠ s :=
  afterEnc_encCall_ne hs Config.errByte chE true false fun _ => ⟨rfl, rfl⟩

theorem run_moves {s t : State} (hs : s.Inv) (h : execRun s = .next t) : t ≠ s := by
  by_cases hsum : s.dec.sum = 0
  · cases (execRun_sum_zero hsum).symm.trans h
    exact afterEnc_encCall_ne hs 0 chC true false fun _ => ⟨rfl, rfl⟩
  · cases (execRun_sum_ne_zero hsum).symm.trans h
    exact reportError_ne hs

theorem spiWrite_moves {s t : State} (hs : s.Inv) (hq : s.orch.state = .spiWrite) (h : execSpiWrite s = .next t) :
    t ≠ s := by
  obtain ⟨-, hspi, -⟩ := id hs
  by_cases hi : s.orch.idx = s.orch.byteCount
  · by_cases hr : s.orch.returnBytes = 0
    · cases (execSpiWrite_end hi hr).symm.trans h
      exact afterEnc_encCall_ne hs 0 chDot true true fun _ => ⟨rfl, rfl⟩
    · cases (execSpiWrite_stall hi hr).symm.trans h
      exact ne_of_state (by simp [hq])
  · unfold execSpiWrite at h
    rw [if_pos (by simpa [State.payloadDone] using hi)] at h
    split at h <;> cases h
    rw [spiXferOp_withTransfer _ _ _ _ hspi.busFree]
    exact ne_of_grows_transfer (.same rfl rfl)

theorem spiRead_moves {s t : State} (hs : s.Inv) (hq : s.orch.state = .spiRead) (h : execSpiRead s = .next t) :
    t ≠ s := by
  obtain ⟨-, hspi, -, hcur, -⟩ := id hs
  simp only [cursorLaw, hq] at hcur
  by_cases hi : s.orch.idx = s.orch.returnBytes
  · cases (execSpiRead_done hi).symm.trans h
    exact ne_of_state (by simp [hq])
  cases hb : s.enc.busy with
  | true =>
    cases (execSpiRead_busy hi hb).symm.trans h
    rw [encPump_eq_encSend]
    exact afterEnc_encSend_ne s (hs.pending_ne_nil hb) fun _ => ⟨rfl, rfl⟩
  | false =>
    cases (execSpiRead_free hspi.busFree hi (cursor_advance hcur.2 hi).1 hb).symm.trans h
    exact ne_of_grows_transfer ((Grows.same rfl rfl).trans ((grows_encSend _ _).trans (grows_afterEnc _ _ (.same rfl rfl))))

/-! ## The machine stands still -/

/-- With nothing on RX a decoding rule that changes nothing waits with its request out (R157). -/
theorem withByte_still {k : Byte → State → Host.Outcome State Fault Refusal} {s : State} (hrx : s.env.rx = [])
    (h : withByte k s = .next s) : s.dec.busy = true := by
  have hwait := decByteOp_nothing s hrx
  rw [withByte_waiting k hwait] at h
  injection h with h
  rw [← h]
  exact decRequest_busy s.dec

/-- In the invariant and with nothing on RX only a decoding rule that waits changes nothing. -/
theorem orchRule_still {s : State} (hs : s.Inv) (hrx : s.env.rx = []) (h : orchRule s = .next s) :
    s.Decoding ∧ s.dec.busy = true := by
  unfold orchRule at h
  split at h
  next hq => exact absurd ((execStart_state h).symm.trans hq) (by decide)
  next hq => exact absurd rfl (pollReady_moves hs hq h)
  next hq => exact ⟨.inl hq, withByte_still hrx h⟩
  next hq => exact ⟨.inr (.inl hq), withByte_still hrx h⟩
  next hq =>
    by_cases hi : s.orch.idx = s.orch.byteCount
    · rw [execReadData_done hi] at h
      injection h with h
      exact absurd h (ne_of_state (by simp [hq]))
    · exact ⟨.inr (.inr (.inl ⟨hq, hi⟩)), withByte_still hrx ((execReadData_open hi).symm.trans h)⟩
  next hq => exact ⟨.inr (.inr (.inr hq)), withByte_still hrx h⟩
  next => exact absurd rfl (run_moves hs h)
  next hq => exact absurd rfl (spiWrite_moves hs hq h)
  next hq => exact absurd ((execSpiStall_state h).symm.trans hq) (by decide)
  next hq => exact absurd rfl (spiRead_moves hs hq h)
  next =>
    injection h with h
    exact absurd h (reportError_ne hs)

/-- Behind COUNT_BYTES a decoding rule is inside the frame (R92, R157). -/
theorem State.Inv.decoding_inFrame {s : State} (hs : s.Inv) (hq : s.Decoding) (hne : s.orch.state ≠ .countBytes) :
    s.dec.inFrame = true := by
  obtain ⟨-, -, -, -, ⟨-, hdec⟩, -⟩ := hs
  rcases hq with hq | hq | ⟨hq, -⟩ | hq
  · exact absurd hq hne
  · simp only [hq] at hdec
    exact hdec.2
  · simp only [hq] at hdec
    exact hdec.2.1
  · simp only [hq] at hdec
    exact hdec.2

/-- A wait of the invariant in the hunt, with nothing to come, is the end of the run (R157, D23). -/
theorem State.Inv.runEnded_of_hunt {s : State} (hs : s.Inv) (hq : s.Decoding) (hb : s.dec.busy = true)
    (hf : s.dec.inFrame = false) (hrx : s.env.rx = []) (hst : s.stimuli = []) (hr : s.env.rst = []) :
    s.runEnded = true := by
  have hcount : s.orch.state = .countBytes := by
    by_contra hne
    simp [hs.decoding_inFrame hq hne] at hf
  obtain ⟨hcs, -, -, he⟩ := hs.decoding hq
  obtain ⟨-, hspi, -⟩ := hs
  exact (runEnded_iff s).2 ⟨⟨hcount, hb, hf, hcs, hspi.busFree.1, he⟩, hrx, hst, hr⟩

/-- Where a run has ended COUNT_BYTES finds nothing on RX, and its request is already out. -/
theorem step_of_runEnded {s : State} (h : s.runEnded = true) : step s = .next s := by
  obtain ⟨⟨hq, hb, -⟩, hrx, hst, hr⟩ := (runEnded_iff s).1 h
  rw [step_of_nothing_to_come hst hr, orchRule, hq]
  refine (withByte_waiting _ (decByteOp_nothing s hrx)).trans ?_
  rw [decRequest, if_pos hb]

/-- Settles O56: the end is a fixed point, the run from START reaches it, and every other standstill is a frame cut
short. -/
theorem runEndsAtTheRestPoint : Obligations.RunEndsAtTheRestPoint := by
  refine ⟨fun s => step_of_runEnded, fun k s => endsIn_start, ?_⟩
  intro s hs hrx hst hr h
  rw [step_of_nothing_to_come hst hr] at h
  obtain ⟨hq, hb⟩ := orchRule_still hs hrx h
  cases hf : s.dec.inFrame with
  | false => exact .inl (hs.runEnded_of_hunt hq hb hf hrx hst hr)
  | true =>
    refine .inr ⟨hb, rfl, ?_⟩
    rcases hq with hq | hq | ⟨hq, -⟩ | hq <;> simp [hq]

end Sys2Proof.Machine
end

section
/-! SUPPORT for RequestPassesThrough: the transfers of a request and the bytes of its response (43_flash_commands_and_host
R180), and what a pass behind RUN has done so far. -/

namespace Sys2Proof.Machine

/-! ## The transfers of a request -/

/-- The transfer of SPI_STALL (R150). -/
def stallTriple : Triple := (0x00, false, false)

theorem payloadTriples_length (m : Byte) (f : Bool) (p : List Byte) : (payloadTriples m f p).length = p.length := by
  induction p generalizing f with
  | nil => rfl
  | cons b bs ih =>
    cases bs with
    | nil => rfl
    | cons c cs => simp only [payloadTriples, List.length_cons, ih]

/-- The read transfers carry `last` on the final one only (R151). -/
theorem readTriples_succ (n : Nat) :
    readTriples (n + 1) = List.replicate n ((0x00, false, false) : Triple) ++ [(0x00, false, true)] := by
  induction n with
  | zero => rfl
  | succ n ih =>
    rw [readTriples, ih, List.replicate_succ]
    rfl

theorem readTriples_length (n : Nat) : (readTriples n).length = n := by
  cases n with
  | zero => rfl
  | succ n => simp [readTriples_succ]

theorem requestTriples_zero (p : List Byte) : requestTriples 0 p = payloadTriples 0 true p := by
  simp [requestTriples]

/-- With bytes wanted the payload is followed by the stall and the reads. -/
theorem requestTriples_of_ne_zero {m : Byte} (p : List Byte) (hm : m ≠ 0) :
    requestTriples m p = (payloadTriples m true p ++ [stallTriple]) ++ readTriples m.toNat := by
  rw [requestTriples, if_neg hm, List.append_assoc]
  rfl

/-! ## The bytes of the response -/

theorem responseData_zero (p : List Byte) (e : Env) : responseData 0 p e = [] := by
  refine List.drop_eq_nil_of_le ?_
  rw [transfers_length, requestTriples_zero, payloadTriples_length]
  omega

/-- The data are the bytes of the read transfers. -/
theorem responseData_of_ne_zero {m : Byte} (p : List Byte) (e : Env) (hm : m ≠ 0) :
    responseData m p e =
      (transfers (readTriples m.toNat) (transfers (payloadTriples m true p ++ [stallTriple]) e).2.2).2.1 := by
  rw [responseData, requestTriples_of_ne_zero p hm, transfers_append]
  refine List.drop_left' ?_
  rw [transfers_length, List.length_append, payloadTriples_length, List.length_singleton]

theorem responseData_length (m : Byte) (p : List Byte) (e : Env) : (responseData m p e).length = m.toNat := by
  by_cases hm : m = 0
  · rw [hm, responseData_zero]
    rfl
  · rw [responseData_of_ne_zero p e hm, transfers_length, readTriples_length]

/-! ## A request under way -/

/-- `t` is on the pass that answers at `s` the request `REQ(m; p)`, behind RUN: the frame is taken and its checksum right,
the transfers `ts` are made and the characters `cs` are sent. -/
structure State.Serves (s : State) (m : Byte) (p : List Byte) (ts : List Triple) (cs : List Byte) (t : State) : Prop where
  byteCount : t.orch.byteCount = lengthByte p
  returnBytes : t.orch.returnBytes = m
  sum : t.dec.sum = 0
  dec : t.dec.ByteDone
  enc : t.enc = { busy := false, pending := [] }
  bus : t.BusFree
  env : t.env = { (transfers ts s.env).2.2 with rx := [chCR, chLF] }
  stimuli : t.stimuli = s.stimuli
  rx : rxOf t.trace = rxOf s.trace ++ (s.env.rx ++ (reqFrame m p).dropLast.dropLast)
  tx : txOf t.trace = txOf s.trace ++ cs
  pins : pinsOf t.trace = pinsOf s.trace ++ (transfers ts s.env).1

variable {s t u : State} {m : Byte} {p : List Byte} {ts us : List Triple} {cs ds : List Byte}

theorem State.Serves.not_waiting (h : s.Serves m p ts cs t) : t.waiting = false := by
  rw [State.waiting, h.dec.1, h.enc]
  rfl

theorem State.Serves.txReady (h : s.Serves m p ts cs t) (ht : s.env.txReady = []) : t.env.txReady = [] := by
  rw [h.env, ← ht]
  exact (transfers_env ts s.env).2.1

/-- More transfers and more characters on the same pass. -/
theorem State.Serves.extend (h : s.Serves m p ts cs t) (hcount : u.orch.byteCount = t.orch.byteCount)
    (hreturn : u.orch.returnBytes = t.orch.returnBytes) (hdec : u.dec = t.dec)
    (henc : u.enc = { busy := false, pending := [] }) (hbus : u.BusFree) (henv : u.env = (transfers us t.env).2.2)
    (hstim : u.stimuli = t.stimuli) (hrx : rxOf u.trace = rxOf t.trace) (htx : txOf u.trace = txOf t.trace ++ ds)
    (hpins : pinsOf u.trace = pinsOf t.trace ++ (transfers us t.env).1) :
    s.Serves m p (ts ++ us) (cs ++ ds) u := by
  rw [h.env, transfers_rx] at henv hpins
  refine ⟨hcount.trans h.byteCount, hreturn.trans h.returnBytes, hdec ▸ h.sum, hdec ▸ h.dec, henc, hbus, ?_,
    hstim.trans h.stimuli, hrx.trans h.rx, ?_, ?_⟩
  · rw [henv, transfers_append]
  · rw [htx, h.tx, List.append_assoc]
  · rw [hpins, h.pins, transfers_append, List.append_assoc]

end Sys2Proof.Machine
end

section
/-! PROOF of RequestPassesThrough (43_flash_commands_and_host R180): the pass from RUN on, one phase after the other, up to
the acknowledgment or the last byte read back. -/

namespace Sys2Proof.Machine

variable {s t : State} {m : Byte} {p : List Byte} {ts : List Triple} {cs : List Byte}

/-- Characters sent show on TX alone. -/
theorem rxOf_withSent (s : State) (cs : List Byte) : rxOf (s.withSent cs).trace = rxOf s.trace := by
  simp [State.withSent]

theorem pinsOf_withSent (s : State) (cs : List Byte) : pinsOf (s.withSent cs).trace = pinsOf s.trace := by
  simp [State.withSent]

/-- All bytes read back: the pass ends in START (R151). -/
theorem runPass_readDone (n : Nat) (hq : t.orch.state = .spiRead) (hi : t.orch.idx = t.orch.returnBytes)
    (hw : t.waiting = false) : runPass (n + 1) t = .next (t.goto .start) := by
  have hrule : orchRule t = .next (t.goto .start) := by
    rw [orchRule, hq]
    exact execSpiRead_done hi
  rw [runPass_step n t _ (by simp [State.betweenRequests, hq]) hrule hw]
  exact runPass_stop n _ rfl

/-! ## The phases of the pass -/

/-- A request with a right checksum reaches SPI_WRITE, the payload stored and the diagnostic frame sent (R148). -/
theorem exec_req_reaches_spiWrite (hs : s.Resting) (ht : s.env.txReady = []) (hj : chDot ∉ s.env.rx)
    (hl : p.length ≤ 255) :
    ∃ t, exec (.req m p (checksumOf m p)) s = runPass (1019 - p.length) t ∧
      s.Serves m p [] [chC, 0x30, 0x30, chLF] t ∧ t.orch.state = .spiWrite ∧ t.orch.idx = 0 ∧ t.spi.cs = false ∧
      t.buf = s.buf.setAll 0 p := by
  obtain ⟨hi, hreq⟩ := pass_toRun m (checksumOf m p) p (1019 - p.length + 1) s hs hj hl
  rw [show 1019 - p.length + 1 + p.length + 4 = passFuel by simp only [passFuel]; omega] at hreq
  have hsum : (s.requestTaken m (checksumOf m p) p hi).dec.sum = 0 := by rw [requestTaken_sum, sub_self]
  obtain ⟨htx, hpins⟩ := requestTaken_views s m (checksumOf m p) p hi
  obtain ⟨-, -, -, -, hready, hsck, hcs, hb⟩ := hs
  refine ⟨_, hreq.trans (runPass_confirms (s := s.requestTaken m (checksumOf m p) p hi) _ rfl hb rfl ht hsum),
    ⟨rfl, rfl, hsum, ⟨rfl, rfl, rfl, rfl⟩, rfl, ⟨hready, hsck⟩, rfl, rfl, ?_, ?_, ?_⟩, rfl, rfl, hcs, rfl⟩
  · refine (rxOf_withSent _ _).trans ?_
    simp only [State.requestTaken, State.withDec, rxOf_append, rxOf_map_rx, reqFrame]
  · rw [← htx]
    exact txOf_withSent _ _
  · rw [← hpins]
    exact (pinsOf_withSent _ _).trans (List.append_nil _).symm

/-- The payload goes out, and with nothing to be read back the last byte releases chip-select (R149). -/
theorem State.Serves.writes (h : s.Serves m p [] cs t) (hl : p.length ≤ 255) (hq : t.orch.state = .spiWrite)
    (hi : t.orch.idx = 0) (hcs : t.spi.cs = false) (hbuf : t.buf = s.buf.setAll 0 p) (n : Nat) :
    ∃ u, runPass (n + p.length) t = runPass n u ∧ s.Serves m p (payloadTriples m true p) cs u ∧
      u.orch.state = .spiWrite ∧ u.orch.idx = u.orch.byteCount ∧ (m = 0 → u.spi.cs = false) ∧
      u.buf = s.buf.setAll 0 p := by
  have hcount : t.orch.byteCount.toNat = t.orch.idx.toNat + p.length := by
    rw [h.byteCount, lengthByte_toNat p hl, hi]
    exact (Nat.zero_add _).symm
  have hcells : ∀ k, k < p.length → t.buf.get (t.orch.idx.toNat + k) = p[k]? := by
    intro k hk
    simp [hbuf, hi, Memory.get_setAll, hk]
  obtain ⟨q, ⟨hready, hsck, hqcs⟩, hpass⟩ := pass_spiWrite p n t hq hcount hcells h.bus h.not_waiting
  have hfirst : t.writeFirst = true := by simp [State.writeFirst, hi, hcs]
  rw [hfirst, h.returnBytes] at hpass
  refine ⟨_, hpass, ?_, hq, rfl, ?_, hbuf⟩
  · rw [← List.append_nil cs]
    exact h.extend rfl rfl rfl h.enc ⟨hready, hsck⟩ rfl rfl
      (by simp [transfers_views]) (by simp [transfers_views]) (by simp [transfers_views])
  · intro hm
    rw [hqcs, hcs, h.returnBytes, if_pos hm, ite_self]

/-- Nothing is to be read back: the empty acknowledgment and START (R149). -/
theorem State.Serves.acknowledges (h : s.Serves 0 p ts cs t) (ht : s.env.txReady = []) (hq : t.orch.state = .spiWrite)
    (hi : t.orch.idx = t.orch.byteCount) (n : Nat) :
    runPass (n + 1) t = .next ((t.withSent [chDot, chLF]).goto .start) ∧
      s.Serves 0 p ts (cs ++ [chDot, chLF]) ((t.withSent [chDot, chLF]).goto .start) := by
  refine ⟨runPass_acknowledges n hq hi h.returnBytes (by rw [h.enc]) h.dec.1 (h.txReady ht), ?_⟩
  rw [← List.append_nil ts]
  exact h.extend rfl rfl rfl rfl h.bus rfl rfl (rxOf_withSent t _) (txOf_withSent t _)
    ((pinsOf_withSent t _).trans (List.append_nil _).symm)

/-- Bytes are wanted: one transfer more, and the cursor is set to 0 (R149, R150). -/
theorem State.Serves.stalls (h : s.Serves m p ts cs t) (hm : m ≠ 0) (hq : t.orch.state = .spiWrite)
    (hi : t.orch.idx = t.orch.byteCount) (n : Nat) :
    ∃ u, runPass (n + 1 + 1) t = runPass n u ∧ s.Serves m p (ts ++ [stallTriple]) cs u ∧
      u.orch.state = .spiRead ∧ u.orch.idx = 0 ∧ u.buf = t.buf := by
  have hwrite : orchRule t = .next (t.goto .spiStall) := by
    rw [orchRule, hq]
    exact execSpiWrite_stall hi (h.returnBytes.trans_ne hm)
  have hstall : orchRule (t.goto .spiStall) =
      .next ((((t.goto .spiStall).withTransfer Config.fillByte false false).setIdx 0).goto .spiRead) :=
    execSpiStall_free h.bus
  refine ⟨(((t.goto .spiStall).withTransfer Config.fillByte false false).setIdx 0).goto .spiRead, ?_, ?_, rfl, rfl, rfl⟩
  · rw [runPass_step _ t _ (by simp [State.betweenRequests, hq]) hwrite h.not_waiting,
      runPass_step _ (t.goto .spiStall) _ rfl hstall h.not_waiting]
  · rw [← List.append_nil cs]
    exact h.extend rfl rfl rfl h.enc ⟨rfl, rfl⟩ rfl rfl (by simp [State.withTransfer]) (by simp [State.withTransfer])
      (by simp [State.withTransfer, transfers, stallTriple, Config.fillByte])

/-- The bytes are read back, stored from cell 0 on and sent as the data frame, and ORCH goes to START (R151, R155). -/
theorem State.Serves.reads (h : s.Serves m p ts cs t) (hm : m ≠ 0) (ht : s.env.txReady = [])
    (hq : t.orch.state = .spiRead) (hi : t.orch.idx = 0) (n : Nat) :
    ∃ u, runPass (n + 1 + m.toNat) t = .next u ∧
      s.Serves m p (ts ++ readTriples m.toNat)
        (cs ++ chDot :: (hexBytes (transfers (readTriples m.toNat) (transfers ts s.env).2.2).2.1 ++ [chLF])) u ∧
      u.orch.state = .start ∧ u.orch.idx = m ∧ u.spi.cs = false ∧
      u.buf = t.buf.setAll 0 (transfers (readTriples m.toNat) (transfers ts s.env).2.2).2.1 := by
  have hpos : m.toNat ≠ 0 := fun h0 => hm (BitVec.eq_of_toNat_eq h0)
  have hcount : t.orch.returnBytes.toNat = t.orch.idx.toNat + m.toNat := by
    rw [h.returnBytes, hi]
    exact (Nat.zero_add _).symm
  obtain ⟨q, evs, ⟨hready, hsck, hqcs⟩, hrx, hpins, htx, hpass⟩ :=
    pass_spiRead m.toNat (n + 1) t hq hcount h.bus h.dec.1 h.enc (h.txReady ht)
  have hbytes : (transfers (readTriples m.toNat) t.env).2.1 =
      (transfers (readTriples m.toNat) (transfers ts s.env).2.2).2.1 := by rw [h.env, transfers_rx]
  rw [if_neg hpos] at hqcs htx
  rw [if_pos hi, hbytes] at htx
  rw [hi, hbytes] at hpass
  refine ⟨_, hpass.trans (runPass_readDone n hq rfl (by rw [State.waiting, h.dec.1, h.enc]; rfl)), ?_, rfl,
    h.returnBytes, hqcs, rfl⟩
  exact h.extend rfl rfl rfl h.enc ⟨hready, hsck⟩ rfl rfl (by simp [hrx]) (by simp [htx]) (by simp [hpins])

/-! ## The whole pass -/

/-- What a request answered leaves (R180, R155): ORCH in START with the bus released, the cursor behind the last byte sent
or read back, and in the buffer the bytes read back over the payload. -/
structure State.Answered (s : State) (m : Byte) (p : List Byte) (t : State) : Prop where
  serves : s.Serves m p (requestTriples m p) (successText m (responseData m p s.env)) t
  state : t.orch.state = .start
  idx : t.orch.idx = if m = 0 then lengthByte p else m
  cs : t.spi.cs = false
  buf : t.buf = (s.buf.setAll 0 p).setAll 0 (responseData m p s.env)

/-- Nothing wanted: the pass ends behind the payload. -/
theorem State.Serves.answered_of_zero (h : s.Serves 0 p (payloadTriples 0 true p) [chC, 0x30, 0x30, chLF] t)
    (ht : s.env.txReady = []) (hq : t.orch.state = .spiWrite) (hi : t.orch.idx = t.orch.byteCount)
    (hcs : t.spi.cs = false) (hbuf : t.buf = s.buf.setAll 0 p) (n : Nat) :
    ∃ u, runPass (n + 1) t = .next u ∧ s.Answered 0 p u := by
  obtain ⟨hpass, hserves⟩ := h.acknowledges ht hq hi n
  refine ⟨_, hpass, ?_, rfl, hi.trans h.byteCount, hcs, ?_⟩
  · rwa [requestTriples_zero]
  · rw [responseData_zero]
    exact hbuf

/-- Bytes wanted: the stall and the reads follow the payload. -/
theorem State.Serves.answered_of_ne_zero (h : s.Serves m p (payloadTriples m true p) [chC, 0x30, 0x30, chLF] t)
    (hm : m ≠ 0) (ht : s.env.txReady = []) (hq : t.orch.state = .spiWrite) (hi : t.orch.idx = t.orch.byteCount)
    (hbuf : t.buf = s.buf.setAll 0 p) (n : Nat) :
    ∃ u, runPass (n + 1 + m.toNat + 1 + 1) t = .next u ∧ s.Answered m p u := by
  obtain ⟨v, hstall, hv, hvq, hvi, hvbuf⟩ := h.stalls hm hq hi (n + 1 + m.toNat)
  obtain ⟨u, hread, hu, huq, hui, hcs, hubuf⟩ := hv.reads hm ht hvq hvi n
  rw [← requestTriples_of_ne_zero p hm, ← responseData_of_ne_zero p s.env hm] at hu
  rw [← responseData_of_ne_zero p s.env hm] at hubuf
  refine ⟨u, hstall.trans hread, ?_, huq, by rw [if_neg hm, hui], hcs, by rw [hubuf, hvbuf, hbuf]⟩
  rwa [successText, if_neg hm]

/-- A request with a right checksum, taken at the rest point, is answered. -/
theorem exec_req_answers (m : Byte) (hs : s.Resting) (ht : s.env.txReady = []) (hj : chDot ∉ s.env.rx)
    (hl : p.length ≤ 255) : ∃ t, exec (.req m p (checksumOf m p)) s = .next t ∧ s.Answered m p t := by
  obtain ⟨v, hrun, hv, hvq, hvi, hvcs, hvbuf⟩ := exec_req_reaches_spiWrite (m := m) hs ht hj hl
  obtain ⟨w, hwrite, hw, hwq, hwi, hwcs, hwbuf⟩ := hv.writes hl hvq hvi hvcs hvbuf (1019 - p.length - p.length)
  rw [hrun, show 1019 - p.length = 1019 - p.length - p.length + p.length by omega, hwrite]
  by_cases hm : m = 0
  · subst hm
    rw [show 1019 - p.length - p.length = 1018 - p.length - p.length + 1 by omega]
    exact hw.answered_of_zero ht hwq hwi (hwcs rfl) hwbuf _
  · have hlt := m.isLt
    rw [show 1019 - p.length - p.length = (1016 - p.length - p.length - m.toNat) + 1 + m.toNat + 1 + 1 by omega]
    exact hw.answered_of_ne_zero hm ht hwq hwi hwbuf _

theorem State.Answered.orch (h : s.Answered m p t) :
    t.orch = { state := .start, byteCount := lengthByte p, returnBytes := m,
               idx := if m = 0 then lengthByte p else m } := by
  rw [← h.idx, ← h.state, ← h.serves.byteCount]
  exact congrArg (fun v => { t.orch with returnBytes := v }) h.serves.returnBytes

/-- The cells behind an answer: the bytes read back, behind them the rest of the payload, else what they were. -/
theorem State.Answered.get_buf (h : s.Answered m p t) (a : Nat) :
    t.buf.get a = if a < m.toNat then (responseData m p s.env)[a]?
      else if a < p.length then p[a]? else s.buf.get a := by
  simp [h.buf, Memory.get_setAll, responseData_length]

/-- Settles O46: the pass from RUN on, phase by phase, and what it leaves in every register and cell. -/
theorem requestPassesThrough : Obligations.RequestPassesThrough := by
  intro s m p hs ht hj hl
  obtain ⟨t, hexec, h⟩ := exec_req_answers m hs ht hj hl
  obtain ⟨hbusy, herr, hframe, hhi⟩ := h.serves.dec
  obtain ⟨hready, hsck⟩ := h.serves.bus
  exact ⟨t, hexec, h.serves.pins, h.serves.tx, h.serves.rx, h.orch, h.serves.sum, herr, hbusy, hframe, hhi,
    h.serves.enc, h.cs, hready, hsck, h.serves.env, h.serves.stimuli, h.get_buf⟩

end Sys2Proof.Machine
end

section
/-! PROOFS of CommandsAreRequests and of the statements about the six commands (43_flash_commands_and_host R181-R186): each is
its request, with the transfers and the response written out. -/

namespace Sys2Proof.Machine

/-- Settles O47: the meaning of a command is that of the request with its payload. -/
theorem commandsAreRequests : Obligations.CommandsAreRequests :=
  fun _ _ _ _ => ⟨rfl, rfl, rfl, rfl, rfl, rfl⟩

/-! ## The transfers written out -/

/-- Behind the command byte a payload carries `last` on its final byte only, and there if nothing is wanted. -/
theorem payloadTriples_concat (m : Byte) (f : Bool) (b c : Byte) (bs : List Byte) :
    payloadTriples m f (b :: (bs ++ [c])) =
      (b, f, false) :: (bs.map (fun x => ((x, false, false) : Triple)) ++ [(c, false, decide (m = 0))]) := by
  induction bs generalizing b f with
  | nil => rfl
  | cons d ds ih =>
    rw [List.cons_append, payloadTriples, ih]
    rfl

/-- With bytes wanted no payload byte carries `last`. -/
theorem payloadTriples_of_ne_zero {m : Byte} (hm : m ≠ 0) (f : Bool) (b : Byte) (bs : List Byte) :
    payloadTriples m f (b :: bs) = (b, f, false) :: bs.map (fun x => ((x, false, false) : Triple)) := by
  induction bs generalizing b f with
  | nil => rw [payloadTriples, decide_eq_false hm, List.map_nil]
  | cons d ds ih =>
    rw [payloadTriples, ih]
    rfl

/-- The reads a response needs, the stall before them: all but the final one without flags. -/
theorem requestTriples_reads {m : Byte} (hm : m ≠ 0) (b : Byte) (bs : List Byte) :
    requestTriples m (b :: bs) =
      ((b, true, false) :: bs.map (fun x => ((x, false, false) : Triple)) ++ [(0x00, false, false)]) ++
      (List.replicate (m.toNat - 1) ((0x00, false, false) : Triple) ++ [(0x00, false, true)]) := by
  obtain ⟨n, hn⟩ := Nat.exists_eq_succ_of_ne_zero fun h0 => hm (BitVec.eq_of_toNat_eq h0)
  rw [requestTriples_of_ne_zero _ hm, payloadTriples_of_ne_zero hm, hn, readTriples_succ]
  rfl

/-! ## The responses -/

/-- An instruction that is a request without bytes wanted sends its payload and is acknowledged. -/
theorem command_acknowledged {s : State} {i : Instr} {p : List Byte} (hi : exec i s = exec (.req 0 p (checksumOf 0 p)) s)
    (hs : s.Resting) (ht : s.env.txReady = []) (hj : chDot ∉ s.env.rx) (hl : p.length ≤ 255) :
    ∃ t, exec i s = .next t ∧ pinsOf t.trace = pinsOf s.trace ++ (transfers (payloadTriples 0 true p) s.env).1 ∧
      txOf t.trace = txOf s.trace ++ [0x63, 0x30, 0x30, 0x0A, 0x2E, 0x0A] ∧ t.orch.state = .start ∧ t.spi.cs = false ∧
      ∀ a, a < p.length → t.buf.get a = p[a]? := by
  obtain ⟨t, hexec, h⟩ := exec_req_answers 0 hs ht hj hl
  refine ⟨t, hi.trans hexec, ?_, h.serves.tx, h.state, h.cs, fun a ha => ?_⟩
  · rw [← requestTriples_zero]
    exact h.serves.pins
  · exact (h.get_buf a).trans ((if_neg (Nat.not_lt_zero a)).trans (if_pos ha))

/-- An instruction that is a request for `m` bytes gets the digits of the last `m` bytes received. -/
theorem command_returns {s : State} {i : Instr} {m : Byte} {p : List Byte}
    (hi : exec i s = exec (.req m p (checksumOf m p)) s) (hm : m ≠ 0) (hs : s.Resting) (ht : s.env.txReady = [])
    (hj : chDot ∉ s.env.rx) (hl : p.length ≤ 255) :
    ∃ t, exec i s = .next t ∧ pinsOf t.trace = pinsOf s.trace ++ (transfers (requestTriples m p) s.env).1 ∧
      txOf t.trace = txOf s.trace ++ [0x63, 0x30, 0x30, 0x0A] ++
        chDot :: (hexBytes ((transfers (requestTriples m p) s.env).2.1.drop (p.length + 1)) ++ [chLF]) ∧
      t.orch.state = .start ∧ t.spi.cs = false := by
  obtain ⟨t, hexec, h⟩ := exec_req_answers m hs ht hj hl
  refine ⟨t, hi.trans hexec, h.serves.pins, ?_, h.state, h.cs⟩
  rw [h.serves.tx, successText, if_neg hm, List.append_assoc]
  rfl

/-! ## The commands -/

/-- Settles O50: the request's text, and one transfer with both flags. -/
theorem wrenSendsOneByteBurst : Obligations.WrenSendsOneByteBurst := by
  refine ⟨by decide, fun s hs ht hj => ?_⟩
  obtain ⟨t, hexec, hpins, htx, hq, hcs, hbuf⟩ :=
    command_acknowledged (i := .wren) (p := payloadWren) rfl hs ht hj (by decide)
  exact ⟨t, hexec, hpins, htx, hq, hcs, hbuf 0 (by decide)⟩

/-- Settles O51: the request's text, and the command byte with the three bytes of the address behind it. -/
theorem sectorEraseSendsCommandAndAddress : Obligations.SectorEraseSendsCommandAndAddress := by
  refine ⟨by decide, fun s a hs ht hj => ?_⟩
  obtain ⟨t, hexec, hpins, htx, hq, hcs, -⟩ := command_acknowledged (i := .sectorErase a) (p := payloadSectorErase a)
    rfl hs ht hj (by simp [payloadSectorErase, addrBytes])
  exact ⟨t, hexec, hpins, htx, hq, hcs⟩

/-- Settles O52: behind the command byte the address and the data, the final byte with `last`. -/
theorem pageProgramSendsItsData : Obligations.PageProgramSendsItsData := by
  intro s a ds d hs ht hj hl
  obtain ⟨t, hexec, hpins, htx, hq, hcs, -⟩ := command_acknowledged (i := .pageProgram a (ds ++ [d]))
    (p := payloadPageProgram a (ds ++ [d])) rfl hs ht hj (by simp [payloadPageProgram, addrBytes]; omega)
  refine ⟨t, hexec, ?_, htx, hq, hcs⟩
  rw [hpins, payloadPageProgram, ← List.append_assoc, payloadTriples_concat]
  rfl

/-- Settles O53: with bytes wanted the stall and the reads follow the address, with none the address ends the burst. -/
theorem readReturnsTheLastBytes : Obligations.ReadReturnsTheLastBytes := by
  refine ⟨fun s a m hs ht hj hm => ?_, fun s a hs ht hj => ?_⟩
  · obtain ⟨t, hexec, hpins, htx, hq, hcs⟩ :=
      command_returns (i := .read a m) (p := payloadRead a) rfl hm hs ht hj (by simp [payloadRead, addrBytes])
    refine ⟨t, hexec, ?_, htx, hq, hcs⟩
    rw [hpins, payloadRead, requestTriples_reads hm]
    rfl
  · obtain ⟨t, hexec, hpins, htx, hq, -, -⟩ :=
      command_acknowledged (i := .read a 0) (p := payloadRead a) rfl hs ht hj (by simp [payloadRead, addrBytes])
    exact ⟨t, hexec, hpins, htx, hq⟩

/-- A request whose payload is one command byte: with bytes wanted, the stall and the reads; else a burst of one byte. -/
theorem oneByteCommand_returns {s : State} {i : Instr} {m c : Byte}
    (hi : exec i s = exec (.req m [c] (checksumOf m [c])) s) (hs : s.Resting) (ht : s.env.txReady = [])
    (hj : chDot ∉ s.env.rx) :
    ∃ t, exec i s = .next t ∧ t.orch.state = .start ∧ t.spi.cs = false ∧
      (m ≠ 0 →
        pinsOf t.trace = pinsOf s.trace ++ (transfers ([(c, true, false), (0x00, false, false)] ++
          (List.replicate (m.toNat - 1) ((0x00, false, false) : Triple) ++ [(0x00, false, true)])) s.env).1 ∧
        txOf t.trace = txOf s.trace ++ [0x63, 0x30, 0x30, 0x0A] ++ chDot :: (hexBytes
          ((transfers (requestTriples m [c]) s.env).2.1.drop 2) ++ [chLF])) ∧
      (m = 0 →
        pinsOf t.trace = pinsOf s.trace ++ (transfers [(c, true, true)] s.env).1 ∧
        txOf t.trace = txOf s.trace ++ [0x63, 0x30, 0x30, 0x0A, 0x2E, 0x0A]) := by
  by_cases hm : m = 0
  · subst hm
    obtain ⟨t, hexec, hpins, htx, hq, hcs, -⟩ := command_acknowledged hi hs ht hj (by simp)
    exact ⟨t, hexec, hq, hcs, fun h => absurd rfl h, fun _ => ⟨hpins, htx⟩⟩
  · obtain ⟨t, hexec, hpins, htx, hq, hcs⟩ := command_returns hi hm hs ht hj (by simp)
    rw [requestTriples_reads hm] at hpins
    exact ⟨t, hexec, hq, hcs, fun _ => ⟨hpins, htx⟩, fun h => absurd h hm⟩

/-- Settles O54: both commands are a request of one command byte. -/
theorem statusAndIdReadsReturnBytes : Obligations.StatusAndIdReadsReturnBytes := by
  intro s m hs ht hj
  simp only [List.forall_mem_cons, List.not_mem_nil, IsEmpty.forall_iff, implies_true, and_true]
  exact ⟨oneByteCommand_returns rfl hs ht hj, oneByteCommand_returns rfl hs ht hj⟩

end Sys2Proof.Machine
end

section
/-! PROOF of HostFlashesOnePage (43_flash_commands_and_host R187-R192): an image of one page is one chunk and one page. -/

namespace Sys2Proof.Machine

/-- A list of no more than `n` elements is one piece. -/
theorem piecesOf_short {n : Nat} {l : List Byte} (hne : l ≠ []) (hlen : l.length ≤ n) : piecesOf n l.length l = [l] := by
  obtain ⟨b, bs, rfl⟩ := List.exists_cons_of_ne_nil hne
  have hnil : ∀ fuel, piecesOf n fuel [] = [] := fun fuel => by cases fuel <;> rfl
  rw [List.length_cons, piecesOf, List.take_of_length_le hlen, List.drop_of_length_le hlen, hnil]
  rfl

/-- The host erases the sector, programs the page and reads it back, each write enabled first (R188-R190). -/
theorem hostFlash_onePage (base : FlashAddr) {page : List Byte} (hne : page ≠ []) (hlen : page.length ≤ 128) :
    hostFlash base page =
      [.wren, .sectorErase base, .wren, .pageProgram base page, .read base (BitVec.ofNat 8 page.length)] := by
  rw [hostFlash, piecesOf_short hne (by omega), hostChunks, piecesOf_short hne hlen]
  rfl

/-- Settles O55: the example's image is one page of 128 bytes. -/
theorem hostFlashesOnePage : Obligations.HostFlashesOnePage := by
  rw [Obligations.HostFlashesOnePage, hostFlash_onePage _ (by simp) (by simp), List.length_replicate]
  rfl

end Sys2Proof.Machine
end

section
/-! PROOF of DecodeErrorGoesToErr (60_exceptions R201, R208; 40_frame_codec R95): each of the four rules answers the
failure of its decode request in the same way. -/

namespace Sys2Proof.Machine

/-- Settles O31: the four places of the bad character are the four ways in which the decode request fails. -/
theorem decodeErrorGoesToErr : Obligations.DecodeErrorGoesToErr := by
  intro s he i hi hopen
  obtain ⟨k, hk⟩ := exec_decoding_eq_withByte s i hi hopen
  rw [hk]
  refine ⟨?_, ?_, ?_, ?_⟩
  · intro c rest hf hbad hrx
    exact withByte_error k (decByteOp_bad s c rest he hf hbad hrx)
  · intro c1 c2 v rest hf hd h1 hbad hrx
    exact withByte_error k (decByteOp_bad_second s c1 c2 v rest he hf hd h1 hbad hrx)
  · intro junk rest c hf hj hbad hrx
    exact withByte_error k (decByteOp_hunt_bad_first s junk rest c he hf hj hbad hrx)
  · intro junk rest c1 c2 v hf hj h1 hbad hrx
    exact withByte_error k (decByteOp_hunt_bad_second s junk rest c1 c2 v he hf hj h1 hbad hrx)

end Sys2Proof.Machine
end

section
/-! PROOF of BusyFlashStallsPolling (60_exceptions R204, 42_orchestrator R143): a busy status byte is one transfer and
nothing else, so the polls are an induction on the number of busy bytes. -/

namespace Sys2Proof.Machine

theorem goto_self {s : State} {q : OrchState} (h : s.orch.state = q) : s.goto q = s := by
  subst h
  rfl

theorem runSteps_succ (n : Nat) {s t : State} (h : step s = .next t) : runSteps (n + 1) s = runSteps n t := by
  simp only [runSteps, h]

/-- A poll answered busy is its transfer: chip-select is neither asserted nor released (R143). -/
theorem step_pollReady_busy {s : State} (hbus : s.BusFree) (hq : s.orch.state = .pollReady) (hst : s.stimuli = [])
    (hr : s.env.rst = []) (hbusy : s.env.miso[7]? = some true) :
    step s = .next (s.withTransfer Config.fillByte false false) := by
  have hwip : wip s.env.nextByte.1 = true := wip_nextByte hbusy
  have hstay : (s.withTransfer Config.fillByte false false).goto .pollReady =
      s.withTransfer Config.fillByte false false := goto_self hq
  rw [step_of_nothing_to_come hst hr, orchRule, hq]
  exact (execPollReady_free hbus).trans (by rw [if_pos hwip, hstay])

/-- Settles O26, by induction on the number of busy status bytes: each poll takes eight levels of the data-in line and
leaves the rest to the polls behind it. -/
theorem busyFlashStallsPolling : Obligations.BusyFlashStallsPolling := by
  intro k
  induction k with
  | zero => exact fun s _ _ _ _ _ => ⟨s, rfl, rfl, rfl, rfl, rfl, rfl, rfl⟩
  | succ k ih =>
    intro s hbus hq hst hr hbusy
    have hstep := step_pollReady_busy hbus hq hst hr (hbusy 0 k.succ_pos)
    have hlater : ∀ j, j < k → (s.withTransfer Config.fillByte false false).env.miso[8 * j + 7]? = some true := by
      intro j hj
      rw [withTransfer_miso, List.getElem?_drop, show 8 + (8 * j + 7) = 8 * (j + 1) + 7 by omega]
      exact hbusy (j + 1) (Nat.succ_lt_succ hj)
    obtain ⟨hwireRx, hwireRxOf, hwireTxOf⟩ := withTransfer_wire s Config.fillByte false false
    obtain ⟨t, hrun, horch, hcs, hrx, htxOf, hrxOf, hmiso⟩ :=
      ih (s.withTransfer Config.fillByte false false) (withTransfer_free _ _ _ _) hq hst
        ((withTransfer_rst _ _ _ _).trans hr) hlater
    refine ⟨t, (runSteps_succ k hstep).trans hrun, horch, hcs, hrx.trans hwireRx, htxOf.trans hwireTxOf,
      hrxOf.trans hwireRxOf, ?_⟩
    rw [hmiso, withTransfer_miso, List.drop_drop, show 8 + 8 * k = 8 * (k + 1) by omega]

end Sys2Proof.Machine
end

section
/-! PROOFS of ResetHasTheSpecValues, RstForcesResetValues and ResetMeetsTheInvariant (70_reset_and_hazards R220, R223,
42_orchestrator R157): what reset leaves of any state, and which events a reset inside a step keeps. -/

namespace Sys2Proof.Machine

/-- Settles O1, by the definition of the reset state. -/
theorem resetHasTheSpecValues : Obligations.ResetHasTheSpecValues := ⟨rfl, rfl, rfl, rfl, rfl, rfl, rfl, rfl⟩

/-- Settles O59: the invariant does not look at the pin events, in which alone taking reset differs from the reset
state. -/
theorem resetMeetsTheInvariant : Obligations.ResetMeetsTheInvariant :=
  (takeReset_inv (s := State.reset) rfl).congr rfl rfl rfl rfl rfl rfl

theorem takeReset_atReset (s : State) : (takeReset s).AtReset :=
  ⟨rfl, rfl, rfl, rfl, rfl, rfl, rfl, rfl, rfl, rfl⟩

theorem step_of_rst_at_once {s : State} {r : List (Option Nat)} (h : s.env.rst = some 0 :: r) :
    step s = .next (takeReset (sampleRst s)) := by
  simp only [step, rstSample, h]

theorem step_of_rst_after {s u : State} {n : Nat} {r : List (Option Nat)} (h : s.env.rst = some (n + 1) :: r)
    (hu : carryOut s = .next u) : step s = .next (takeReset (rewind (n + 1) s u)) := by
  simp only [step, rstSample, h, hu, cutShort]

/-- What is carried out does not depend on whether `rst` is asserted in the step: the sample is taken either way. -/
theorem step_without_rst {s : State} {v : Option Nat} {r : List (Option Nat)} (h : s.env.rst = v :: r) :
    step { s with env := { s.env with rst := none :: r } } = carryOut s := by
  have hfetch : afterFetch { s with env := { s.env with rst := none :: r } } = afterFetch s := by
    simp only [afterFetch, sampleRst, h, List.tail_cons]
  calc step { s with env := { s.env with rst := none :: r } }
      = carryOut { s with env := { s.env with rst := none :: r } } := step_of_no_rst rfl
    _ = carryOut s := by rw [carryOut, hfetch]; rfl

/-- Of the events `evs` of the step the first `n` stay, and the bytes taken by the others are offered again. -/
theorem rewind_of_events {s u : State} {evs : List Event} (n : Nat) (h : u.trace = s.trace ++ evs) :
    (rewind n s u).trace = s.trace ++ evs.take n ∧ (rewind n s u).env.rx = rxOf (evs.drop n) ++ u.env.rx := by
  have hfresh : u.trace.drop s.trace.length = evs := by rw [h, List.drop_left]
  exact ⟨by rw [rewind_trace, hfresh], by rw [rewind, hfresh]⟩

/-- Settles O2: a step only adds events, so those of the step without reset are cut in two behind the first `n + 1`. -/
theorem rstForcesResetValues : Obligations.RstForcesResetValues := by
  refine ⟨fun s r hr => ?_, fun s u n r hr hu => ?_⟩
  · have henv : (takeReset (sampleRst s)).env = { s.env with rst := r } := by
      simp only [takeReset, sampleRst, hr, List.tail_cons]
    exact ⟨_, step_of_rst_at_once hr, takeReset_atReset _, rfl, henv, rfl⟩
  · rw [step_without_rst hr] at hu
    obtain ⟨⟨evs, hevs⟩, hrst⟩ := grows_carryOut s u hu
    rw [afterFetch_trace] at hevs
    obtain ⟨htrace, hrx⟩ := rewind_of_events (n + 1) hevs
    have hcut : evs.take (n + 1) ++ evs.drop (n + 1) = evs := List.take_append_drop _ _
    refine ⟨_, evs.take (n + 1), evs.drop (n + 1), step_of_rst_after hr hu, takeReset_atReset _,
      ?_, ?_, ?_, hrx, ?_⟩
    · rw [hcut, hevs]
    · rw [hcut, List.length_take]
    · rw [← List.append_assoc, ← htrace]
      rfl
    · calc u.env.rst = s.env.rst.tail := hrst
        _ = r := by rw [hr, List.tail_cons]

end Sys2Proof.Machine
end
